-- ==== Sys2Proof/Word.lean ====
section
/-! DEFINITION. The word types of the engine and the round-function variant of a command. -/

namespace Sys2Proof

/-- One byte of a buffer, of a register or of a substitution (R10, R15). -/
abbrev Byte := BitVec 8

/-- A 32-bit word: control registers, round keys, table entries, the command word (R10, R35, R90). -/
abbrev Word := BitVec 32

/-- A block of 16 bytes, held as `int128(B)`: byte 0 is the most significant byte (R15). -/
abbrev Block := BitVec 128

/-- The round-function variant that bit `V` of the command word chooses (R90, R94). -/
inductive Variant where
  /-- `V = 0`, `.REF`: substitution and rotations. -/
  | reference
  /-- `V = 1`, `.TT`: four table lookups. -/
  | tableAccelerated
deriving DecidableEq, Repr

end Sys2Proof
end

