-- ==== Sys2Proof/Machine/Bytes.lean ====
section
/-! DEFINITION. Byte order and bit numbering (R14 to R16, R66, R67), and byte sequences. -/

namespace Sys2Proof.Machine

/-- `rotl32(v, n)` (R14). -/
def rotl32 (v : Word) (n : Nat) : Word := (v <<< n) ||| (v >>> (32 - n))

/-- `be32` (R15): the first byte is the most significant. -/
def be32 (b0 b1 b2 b3 : Byte) : Word := b0 ++ b1 ++ b2 ++ b3

/-- Byte `j` of a word in 0 to 3, 0 the most significant (R15, R66). -/
def wordByte (w : Word) (j : Nat) : Byte := w.extractLsb' (8 * (3 - j)) 8

/-- `bytes32` (R15). -/
def bytes32 (w : Word) : List Byte := [wordByte w 0, wordByte w 1, wordByte w 2, wordByte w 3]

/-- The big-endian number of the first four bytes of a sequence. -/
def wordOfBytes (bs : List Byte) : Word :=
  be32 (bs.getD 0 0#8) (bs.getD 1 0#8) (bs.getD 2 0#8) (bs.getD 3 0#8)

/-- `w` with byte `j` replaced: a narrow write touches only the bytes it addresses (R66). -/
def setWordByte (w : Word) (j : Nat) (b : Byte) : Word :=
  (w &&& ~~~(0xFF#32 <<< (8 * (3 - j)))) ||| (b.setWidth 32 <<< (8 * (3 - j)))

/-- `B[i]` for `i` in 0 to 15 (R15). -/
def blockByte (B : Block) (i : Nat) : Byte := B.extractLsb' (8 * (15 - i)) 8

/-- The block as a sequence of 16 bytes, first byte first (R15). -/
def blockBytes (B : Block) : List Byte := (List.range 16).map (blockByte B)

/-- `B` with byte `i` replaced. -/
def setBlockByte (B : Block) (i : Nat) (b : Byte) : Block :=
  (B &&& ~~~(0xFF#128 <<< (8 * (15 - i)))) ||| (b.setWidth 128 <<< (8 * (15 - i)))

/-- `word(B, j)` for `j` in 0 to 3 (R15). -/
def word (B : Block) (j : Nat) : Word := B.extractLsb' (32 * (3 - j)) 32

/-- `bytes32(w0) || bytes32(w1) || bytes32(w2) || bytes32(w3)` as a block (R15). -/
def blockOfWords (w0 w1 w2 w3 : Word) : Block := w0 ++ w1 ++ w2 ++ w3

/-- The block of the first 16 bytes of a sequence, zero-padded at its end (R73, R163). -/
def blockOfBytes (bs : List Byte) : Block :=
  (List.range 16).foldl (fun B i => setBlockByte B i (bs.getD i 0#8)) 0#128

/-- `gbit(B, i)` (R16): the coefficient of `x^i`, bit `127 - i` of `int128(B)`. -/
def gbit (B : Block) (i : Nat) : Bool := B.getMsbD i

/-- `be64(n)` (R15). -/
def be64 (n : Nat) : BitVec 64 := BitVec.ofNat 64 n

/-- Byte-for-byte exclusive or, as long as the shorter of the two sequences. -/
def xorBytes (a b : List Byte) : List Byte := List.zipWith (· ^^^ ·) a b

end Sys2Proof.Machine
end

