-- ==== Sys2Proof/Syntax.lean ====
section
/-! DEFINITION. The sixteen commands of the engine, one constructor for each row of
`opcode_table.json` (R93). Every operand but the variant is implicit (R91). -/

namespace Sys2Proof

inductive Instr where
  /-- `NOP` (R111). -/
  | nop
  /-- `SOFT_RESET` (R112). -/
  | softReset
  /-- `TT_INIT` (R113). -/
  | ttInit
  /-- `KEY_EXPAND` (R127). -/
  | keyExpand
  /-- `BLK_ENC` (R135). -/
  | blkEnc (v : Variant)
  /-- `BLK_DEC` (R136). -/
  | blkDec (v : Variant)
  /-- `GF_MUL` (R152). -/
  | gfMul
  /-- `GH_INIT` (R161). -/
  | ghInit
  /-- `GH_UPD` (R162). -/
  | ghUpd
  /-- `GH_MSG` (R166). -/
  | ghMsg
  /-- `H_DERIVE` (R167). -/
  | hDerive (v : Variant)
  /-- `J0_DERIVE` (R176). -/
  | j0Derive
  /-- `CTR_INC` (R178). -/
  | ctrInc
  /-- `CTR_XCRYPT` (R180). -/
  | ctrXcrypt (v : Variant)
  /-- `AEAD_ENC` (R192). -/
  | aeadEnc (v : Variant)
  /-- `AEAD_DEC` (R195). -/
  | aeadDec (v : Variant)
deriving DecidableEq, Repr

end Sys2Proof
end

