-- ==== Sys2Proof/WellFormed.lean ====
section
/-! DEFINITION. When a command word is well formed (R90, R93, R95). A term of `Instr` is well formed
by construction: it holds no field but a variant, and only the six commands that offer both variants
hold one. -/

namespace Sys2Proof

/-- The three fields of the one format `CW` (R90). -/
structure CommandWord where
  rsv : BitVec 23
  v   : BitVec 1
  op  : Byte
deriving DecidableEq, Repr

/-- The `OP` values that R93 lists. -/
def listedOps : List Byte :=
  [0x00#8, 0x01#8, 0x02#8, 0x10#8, 0x11#8, 0x12#8, 0x20#8, 0x21#8,
   0x22#8, 0x23#8, 0x24#8, 0x30#8, 0x31#8, 0x32#8, 0x40#8, 0x41#8]

/-- The `OP` values whose row of R93 says "0 or 1" (R94). -/
def variantOps : List Byte := [0x11#8, 0x12#8, 0x24#8, 0x32#8, 0x40#8, 0x41#8]

/-- `RSV` is 0. -/
def CommandWord.rsvZero (c : CommandWord) : Bool := c.rsv == 0#23

/-- `OP` is listed. -/
def CommandWord.opListed (c : CommandWord) : Bool := listedOps.contains c.op

/-- `V = 1` only where the row offers it. -/
def CommandWord.variantOffered (c : CommandWord) : Bool := c.v == 0#1 || variantOps.contains c.op

/-- The word selects a row of R93. -/
def CommandWord.wellFormed (c : CommandWord) : Bool :=
  c.rsvZero && c.opListed && c.variantOffered

end Sys2Proof
end

