-- ==== Sys2Proof/Decode.lean ====
section
/-! DEFINITION. The decoder, total on all words and on any bytes, and the encoder (R90 to R96). -/

namespace Sys2Proof

/-- Why a word is no command (R93, R95). Each is raised by the decoder; the machine answers every one
with `IllegalCommand` (R218), which is the spec's own behaviour, so it is safe. -/
inductive Reject where
  /-- `RSV` is not 0. -/
  | reservedNonzero
  /-- `OP` is in no row. -/
  | unknownOp
  /-- `V = 1` where the row says 0. -/
  | variantNotOffered
  /-- Not exactly four bytes (R96: every command is one 32-bit word). -/
  | notOneWord
deriving DecidableEq, Repr

/-- A row of the opcode map: `OP`, the command for `V = 0`, and the one for `V = 1` if the row offers it. -/
structure OpcodeRow where
  op       : Byte
  plain    : Instr
  variant1 : Option Instr
deriving DecidableEq, Repr

/-- The opcode map (R93). -/
def opcodeMap : List OpcodeRow :=
  [⟨0x00#8, .nop, none⟩,
   ⟨0x01#8, .softReset, none⟩,
   ⟨0x02#8, .ttInit, none⟩,
   ⟨0x10#8, .keyExpand, none⟩,
   ⟨0x11#8, .blkEnc .reference, some (.blkEnc .tableAccelerated)⟩,
   ⟨0x12#8, .blkDec .reference, some (.blkDec .tableAccelerated)⟩] ++
  [⟨0x20#8, .gfMul, none⟩,
   ⟨0x21#8, .ghInit, none⟩,
   ⟨0x22#8, .ghUpd, none⟩,
   ⟨0x23#8, .ghMsg, none⟩,
   ⟨0x24#8, .hDerive .reference, some (.hDerive .tableAccelerated)⟩] ++
  [⟨0x30#8, .j0Derive, none⟩,
   ⟨0x31#8, .ctrInc, none⟩,
   ⟨0x32#8, .ctrXcrypt .reference, some (.ctrXcrypt .tableAccelerated)⟩,
   ⟨0x40#8, .aeadEnc .reference, some (.aeadEnc .tableAccelerated)⟩,
   ⟨0x41#8, .aeadDec .reference, some (.aeadDec .tableAccelerated)⟩]

/-- Field extraction (R92). -/
def commandFields (w : Word) : CommandWord :=
  { rsv := w.extractLsb' 9 23, v := w.extractLsb' 8 1, op := w.extractLsb' 0 8 }

/-- The decoder (R93). -/
def decode (w : Word) : Except Reject Instr :=
  if (commandFields w).rsv ≠ 0#23 then .error .reservedNonzero
  else match opcodeMap.find? (fun r => r.op == (commandFields w).op) with
    | none => .error .unknownOp
    | some r =>
      if (commandFields w).v = 0#1 then .ok r.plain
      else match r.variant1 with
        | none => .error .variantNotOffered
        | some i => .ok i

/-- The decoder on the bytes that travel on the host port, most significant first (R66, R90). -/
def decodeBytes (bs : List Byte) : Except Reject Instr :=
  match bs with
  | [b0, b1, b2, b3] => decode (Machine.be32 b0 b1 b2 b3)
  | _ => .error .notOneWord

/-- `match`, with bit 8 set for the `.TT` form (R94). -/
def variantWord (base : Word) (v : Variant) : Word :=
  match v with
  | .reference => base
  | .tableAccelerated => base ||| 0x00000100#32

/-- The encoder: the word of each command (R93, R94). -/
def encode (i : Instr) : Word :=
  match i with
  | .nop => 0x00000000#32
  | .softReset => 0x00000001#32
  | .ttInit => 0x00000002#32
  | .keyExpand => 0x00000010#32
  | .blkEnc v => variantWord 0x00000011#32 v
  | .blkDec v => variantWord 0x00000012#32 v
  | .gfMul => 0x00000020#32
  | .ghInit => 0x00000021#32
  | .ghUpd => 0x00000022#32
  | .ghMsg => 0x00000023#32
  | .hDerive v => variantWord 0x00000024#32 v
  | .j0Derive => 0x00000030#32
  | .ctrInc => 0x00000031#32
  | .ctrXcrypt v => variantWord 0x00000032#32 v
  | .aeadEnc v => variantWord 0x00000040#32 v
  | .aeadDec v => variantWord 0x00000041#32 v

/-- The instruction the decoder reads from a word of `nbits` bits, the bits above being 0, laid out
most significant byte first (R66, R90). -/
def decodeTableWord (nbits w : Nat) : Option Instr :=
  match decodeBytes (Machine.bytes32 (BitVec.ofNat 32 (w % 2 ^ nbits))) with
  | .ok i => some i
  | .error _ => none

end Sys2Proof
end

