-- ==== Sys2Proof/Config.lean ====
section
/-! DEFINITION. What an implementation fixes, and the free values. -/

namespace Sys2Proof

/-- `ID`, hard-wired: the letters "SM4G" (R36). -/
def Config.idValue : Word := 0x534D3447#32

/-- The `AAD_MAX` of `State.reset`. DESIGN CHOICE (log entry 4): R11 leaves it a parameter; 64 is what
`95_test_vectors.md` assumes. `State.resetWith` takes any value. -/
def Config.aadMax : Word := 64#32

/-- The `MSG_MAX` of `State.reset`. DESIGN CHOICE (log entry 4): R11 leaves it a parameter; 64 is what
`95_test_vectors.md` assumes. `State.resetWith` takes any value. -/
def Config.msgMax : Word := 64#32

/-- FREE VALUE (log entry 5): the word that entry `b` of table `k` holds after the hard reset number
`draw`. R51 leaves it unspecified, so it has no body. -/
opaque Config.ttUninit : (draw k b : Nat) → Word

end Sys2Proof
end

