-- ==== Sys2Proof/Machine/State.lean ====
section
/-! DEFINITION. The state of the engine (R21) and of its host port, its reset value (R51), and the
reasons a step can stop. -/

namespace Sys2Proof.Machine

/-- A byte buffer: the listed bytes, addresses strictly rising, no entry 0x00; an address that is not
listed reads 0x00, the reset contents of R51 (log entry 7). -/
abbrev Memory := List Host.Cell

/-- The canonical form of a buffer. -/
def Memory.wf : Memory → Bool
  | [] => true
  | [(_, b)] => b != 0#8
  | (a, b) :: (a', b') :: m => b != 0#8 && decide (a < a') && Memory.wf ((a', b') :: m)

/-- The address spaces that the 2-bit selector `sp` names (R60). -/
inductive Space where
  | reg | aadbuf | inbuf | outbuf
deriving DecidableEq, Repr

/-- The registers of space `REG` (R61). -/
inductive Reg where
  | id | cmd | status | err | errseen | keylen | ivlen | aadlen | inlen | outlen
  | cfgAadMax | cfgMsgMax
  | key | iv | blkin | blkout | gfx | gfy | gfz | h | y | j0 | ctr
deriving DecidableEq, Repr

/-- A row of the register map: the register, its offset and its size in bytes. -/
structure RegRow where
  reg    : Reg
  offset : Nat
  size   : Nat
deriving DecidableEq, Repr

/-- The states of the per-call state machine (R34). Only `init`, `authenticationFailed`, `finished` and
`aborted` are ever left in `PHASE` by a step (log entry 12). -/
inductive Phase where
  | init | keyExpanded | hashSubkeyDerived | keystreamGenerated | tagVerified
  | authenticationFailed | finished | aborted
deriving DecidableEq, Repr

/-- The engine's errors (R212). -/
inductive ErrorKind where
  | invalidKeySize
  | invalidIVSize
  /-- Reserved: no rule raises it (R224). -/
  | invalidHexEncoding
  | truncatedInput
  | authenticationFailure
  | illegalCommand
  | keyNotExpanded
  | lengthError
deriving DecidableEq, Repr

/-- The direction of the block cipher (R134). -/
inductive Direction where
  | enc | dec
deriving DecidableEq, Repr

/-- Four consecutive words of the cipher's or of the key schedule's sequence, oldest first (R126, R134). -/
structure Window where
  w0 : Word
  w1 : Word
  w2 : Word
  w3 : Word
deriving DecidableEq, Repr

/-- The table file `TT` (R47). -/
abbrev Tables := Vector (Vector Word 256) 4

/-- What can happen at the engine's port (R20, R65, R240). The `n` of a write is the length of its data
(log entry 14). -/
inductive HostEvent where
  /-- `HostRead(sp, addr, n)`. -/
  | read (sp : Space) (addr n : Nat)
  /-- `HostWrite(sp, addr, n, data)`. -/
  | write (sp : Space) (addr : Nat) (data : List Byte)
  /-- Hard reset (R240). -/
  | hardReset
deriving DecidableEq, Repr

/-- What the port answered to the last event. -/
inductive Response where
  /-- Nothing yet, or a hard reset. -/
  | nothing
  /-- The bytes of a read, lowest offset first. -/
  | data (bytes : List Byte)
  /-- A write was taken. -/
  | accepted
  /-- The access was refused (R70; log entry 3). -/
  | busError
deriving DecidableEq, Repr

/-- The state of the engine, and of its host port (log entry 1). `ID` is hard-wired and `STATUS` is a
view of the flags, so they have no field. -/
structure State where
  -- data registers (R22)
  key       : Block
  iv        : Block
  blkin     : Block
  blkout    : Block
  gfx       : Block
  gfy       : Block
  gfz       : Block
  h         : Block
  y         : Block
  j0        : Block
  ctr       : Block
  -- control and status registers (R35)
  cmd       : Word
  err       : Word
  errseen   : Word
  keylen    : Word
  ivlen     : Word
  aadlen    : Word
  inlen     : Word
  outlen    : Word
  cfgAadMax : Word
  cfgMsgMax : Word
  -- flags and phase (R32, R34)
  done      : Bool
  errf      : Bool
  ttReady   : Bool
  rkValid   : Bool
  authOk    : Bool
  phase     : Phase
  -- files (R46, R47)
  rk        : Vector Word 32
  tt        : Tables
  -- buffers (R48)
  aadbuf    : Memory
  inbuf     : Memory
  outbuf    : Memory
  -- the model's own fields (log entries 1 and 5)
  pending   : List HostEvent
  response  : Response
  resets    : Nat
deriving DecidableEq, Repr

/-- The engine has no behaviour that stops the machine: every error is an outcome that the command
records (R220), and a refused host access is answered on the port (log entry 3). So no fault exists. -/
inductive Fault where
deriving DecidableEq, Repr

/-- Why a step has no meaning. -/
inductive Refusal where
  /-- Raised by an arm of `exec` that has no meaning yet; safe. No arm of this model uses it. -/
  | notModelled (mnemonic : String)
deriving DecidableEq, Repr

/-- What the host port asks of the engine in one step. -/
inductive PortAction where
  /-- The event is complete and this is the state after it. -/
  | settled (s : State)
  /-- The word `w` was written to `CMD` (R37) and runs in state `s`. -/
  | command (w : Word) (s : State)
deriving DecidableEq, Repr

/-- A table given entry by entry. -/
def tableOf (f : Nat → Word) : Vector Word 256 := ⟨((List.range 256).map f).toArray, by simp⟩

/-- The table file given entry by entry. -/
def tablesOf (f : Nat → Nat → Word) : Tables :=
  ⟨[tableOf (f 0), tableOf (f 1), tableOf (f 2), tableOf (f 3)].toArray, by simp⟩

/-- The unspecified content of `TT` after hard reset number `draw`: free values (R51; log entry 5). -/
def uninitTables (draw : Nat) : Tables := tablesOf (Config.ttUninit draw)

/-- The state right after a hard reset (R51) of an engine with the given capacities (R11). -/
def State.resetWith (aadMax msgMax : Word) (draw : Nat) : State where
  key := 0#128
  iv := 0#128
  blkin := 0#128
  blkout := 0#128
  gfx := 0#128
  gfy := 0#128
  gfz := 0#128
  h := 0#128
  y := 0#128
  j0 := 0#128
  ctr := 0#128
  cmd := 0#32
  err := 0#32
  errseen := 0#32
  keylen := 0#32
  ivlen := 0#32
  aadlen := 0#32
  inlen := 0#32
  outlen := 0#32
  cfgAadMax := aadMax
  cfgMsgMax := msgMax
  done := false
  errf := false
  ttReady := false
  rkValid := false
  authOk := false
  phase := .init
  rk := Vector.replicate 32 0#32
  tt := uninitTables draw
  aadbuf := []
  inbuf := []
  outbuf := []
  pending := []
  response := .nothing
  resets := draw

/-- The machine right after reset (R51, R240), with the capacities of `Config` (log entry 4). -/
def State.reset : State := State.resetWith Config.aadMax Config.msgMax 0

end Sys2Proof.Machine
end

