-- ==== Sys2Proof/Machine/Flags.lean ====
section
/-! DEFINITION. The numbers of the errors and phases, and every flag and status computation (R32 to
R34, R38, R39, R110, R212). -/

namespace Sys2Proof.Machine

/-- The code of an error (R212). -/
def ErrorKind.code : ErrorKind → Nat
  | .invalidKeySize => 1
  | .invalidIVSize => 2
  | .invalidHexEncoding => 3
  | .truncatedInput => 4
  | .authenticationFailure => 5
  | .illegalCommand => 6
  | .keyNotExpanded => 7
  | .lengthError => 8

/-- The number of a phase (R34). -/
def Phase.code : Phase → BitVec 3
  | .init => 0#3
  | .keyExpanded => 1#3
  | .hashSubkeyDerived => 2#3
  | .keystreamGenerated => 3#3
  | .tagVerified => 4#3
  | .authenticationFailed => 5#3
  | .finished => 6#3
  | .aborted => 7#3

/-- `ERR` after a command: the code of its error, 0 for success (R38). -/
def errWord (outcome : Option ErrorKind) : Word :=
  match outcome with
  | none => 0#32
  | some e => BitVec.ofNat 32 e.code

/-- `ERRF` after a command (R32, R110). -/
def errFlag (outcome : Option ErrorKind) : Bool := outcome.isSome

/-- `ERRSEEN` after a command: the bit of its error is set, no bit is cleared (R39). -/
def errSeenAfter (seen : Word) (outcome : Option ErrorKind) : Word :=
  match outcome with
  | none => seen
  | some e => seen ||| (1#32 <<< e.code)

/-- `PHASE` after a command (R34, R110). -/
def endPhase (outcome : Option ErrorKind) : Phase :=
  match outcome with
  | none => .finished
  | some .authenticationFailure => .authenticationFailed
  | some _ => .aborted

/-- A flag as a bit of a word. -/
def flagBit (f : Bool) (i : Nat) : Word := if f then 1#32 <<< i else 0#32

/-- `STATUS` (R33). -/
def statusWord (s : State) : Word :=
  flagBit s.done 0 ||| flagBit s.errf 1 ||| flagBit s.ttReady 2 ||| flagBit s.rkValid 3
    ||| flagBit s.authOk 4 ||| (s.phase.code.setWidth 32 <<< 8)

end Sys2Proof.Machine
end

