-- ==== Sys2Proof/Machine/Ops.lean ====
section
/-! DEFINITION. The shared operations: the engine's accesses to a buffer (R63, R64), the end of a
command and the taking of an error (R110, R220), `clear_out` and `end_call` (R180, R194), and the two
resets (R112, R240). There is no return from an error: nothing is saved and nothing to restore (R223). -/

namespace Sys2Proof.Machine

/-- What a command, or a step, answers. -/
abbrev Result := Host.Outcome State Fault Refusal

/-- The byte at an address. -/
def Memory.read : Memory → Nat → Byte
  | [], _ => 0#8
  | (k, b) :: m, a => if k = a then b else Memory.read m a

/-- Store a byte, keeping the canonical form: the byte 0x00 is not listed. -/
def Memory.write : Memory → Nat → Byte → Memory
  | [], a, v => if v = 0#8 then [] else [(a, v)]
  | (k, b) :: m, a, v =>
    if a < k then (if v = 0#8 then (k, b) :: m else (a, v) :: (k, b) :: m)
    else if a = k then (if v = 0#8 then m else (a, v) :: m)
    else (k, b) :: Memory.write m a v

/-- `MemRead` (R63): `n` bytes, lowest offset first. -/
def Memory.readBytes (m : Memory) (a : Nat) : Nat → List Byte
  | 0 => []
  | n + 1 => m.read a :: Memory.readBytes m (a + 1) n

/-- `MemWrite` (R64). -/
def Memory.writeBytes (m : Memory) (a : Nat) : List Byte → Memory
  | [] => m
  | v :: vs => Memory.writeBytes (m.write a v) (a + 1) vs

/-- The end of a command: the outcome record of R110. `w` is the command word, `authentic` says that
the command was an `AEAD_DEC` that succeeded. -/
def endCommand (w : Word) (outcome : Option ErrorKind) (authentic : Bool) (s : State) : State :=
  { s with
    cmd := w
    done := true
    err := errWord outcome
    errf := errFlag outcome
    errseen := errSeenAfter s.errseen outcome
    authOk := authentic
    phase := endPhase outcome }

/-- `raise e`: the command ends at once with that error (R220). -/
def raise (w : Word) (e : ErrorKind) (s : State) : Result := .next (endCommand w (some e) false s)

/-- A command that reaches its end (R110). -/
def finish (w : Word) (s : State) : Result := .next (endCommand w none false s)

/-- An `AEAD_DEC` that reaches its end: `AUTH_OK` is set (R110). -/
def finishAuthentic (w : Word) (s : State) : Result := .next (endCommand w none true s)

/-- A word that is no command: `IllegalCommand`, with no other effect (R218). -/
def illegalCommand (w : Word) (s : State) : Result := raise w .illegalCommand s

/-- `clear_out()` (R180). -/
def clearOut (s : State) : State := { s with outbuf := [], outlen := 0#32 }

/-- `end_call()` (R194). -/
def endCall (s : State) : State := { s with h := 0#128, y := 0#128, j0 := 0#128, ctr := 0#128 }

/-- `abort(e)` of an AEAD command (R194). -/
def abort (w : Word) (e : ErrorKind) (s : State) : Result := raise w e (endCall (clearOut s))

/-- Hard reset (R240): every piece of engine state at its value of R51. The capacities are the
engine's parameters, the events still to come are the host's (log entry 15), and the content of `TT` is
drawn anew (log entry 5). -/
def hardReset (s : State) : State :=
  { State.resetWith s.cfgAadMax s.cfgMsgMax (s.resets + 1) with pending := s.pending }

/-- The body of `SOFT_RESET` (R112, R52): the hard-reset values, but for `TT`, `TT_READY` and `CMD`. -/
def softReset (s : State) : State :=
  { State.resetWith s.cfgAadMax s.cfgMsgMax s.resets with
    tt := s.tt
    ttReady := s.ttReady
    cmd := 0x00000001#32
    pending := s.pending
    response := s.response }

end Sys2Proof.Machine
end

