-- ==== Sys2Proof/Machine/Operands.lean ====
section
/-! DEFINITION. The implicit operands of the commands (R91, R92): the IV and the buffer contents that
the length registers select, the chunks of a buffer (R72, R73), and the checks on the lengths (R190,
R217). -/

namespace Sys2Proof.Machine

/-- `MSG_MAX + 16`, the size of `INBUF` and `OUTBUF`, as an exact number (R48; log entry 13). -/
def bufSize (s : State) : Nat := s.cfgMsgMax.toNat + 16

/-- `AADLEN > AAD_MAX` (R42). -/
def aadTooLong (s : State) : Bool := decide (s.cfgAadMax.toNat < s.aadlen.toNat)

/-- `INLEN > MSG_MAX + 16` (R43). -/
def inTooLong (s : State) : Bool := decide (bufSize s < s.inlen.toNat)

/-- `INLEN > MSG_MAX` (R190). -/
def plainTooLong (s : State) : Bool := decide (s.cfgMsgMax.toNat < s.inlen.toNat)

/-- `KEYLEN = 16` (R40). -/
def keyLenOk (s : State) : Bool := s.keylen == 16#32

/-- `IVLEN` is 12 or 16 (R41). -/
def ivLenOk (s : State) : Bool := s.ivlen == 12#32 || s.ivlen == 16#32

/-- `IV[0 .. IVLEN)` (R24). -/
def ivOperand (s : State) : List Byte := (blockBytes s.iv).take s.ivlen.toNat

/-- `AADBUF[0 .. AADLEN)` (R42). -/
def aadOperand (s : State) : List Byte := s.aadbuf.readBytes 0 s.aadlen.toNat

/-- `INBUF[0 .. n)` (R43). -/
def inOperand (s : State) (n : Nat) : List Byte := s.inbuf.readBytes 0 n

/-- `nchunks(len)` (R72). -/
def nchunks (len : Nat) : Nat := (len + 15) / 16

/-- `chunk(sp, len, i)` (R72), on the buffer itself. -/
def chunk (m : Memory) (len i : Nat) : List Byte := m.readBytes (16 * i) (min 16 (len - 16 * i))

/-- `padblock(sp, len, i)` (R73). -/
def padblock (m : Memory) (len i : Nat) : Block := blockOfBytes (chunk m len i)

/-- The argument checks of `AEAD_ENC`, in their order (R190, R222). -/
def encArgError (s : State) : Option ErrorKind :=
  if !keyLenOk s then some .invalidKeySize
  else if !ivLenOk s then some .invalidIVSize
  else if aadTooLong s || plainTooLong s then some .lengthError
  else none

/-- The argument checks of `AEAD_DEC`, in their order (R190, R222). -/
def decArgError (s : State) : Option ErrorKind :=
  if !keyLenOk s then some .invalidKeySize
  else if !ivLenOk s then some .invalidIVSize
  else if decide (s.inlen.toNat < 16) then some .truncatedInput
  else if aadTooLong s || inTooLong s then some .lengthError
  else none

end Sys2Proof.Machine
end

