-- ==== Sys2Proof/Machine/Sm4.lean ====
section
/-! DEFINITION. The block cipher in both round-function variants (R120 to R138) and the commands
`KEY_EXPAND`, `BLK_ENC`, `BLK_DEC`. -/

namespace Sys2Proof.Machine

/-- The rows of the substitution table, sixteen entries each, column 0 first (R120; log entry 9). -/
def sboxRows : List Block :=
  [0xD690E9FECCE13DB716B614C228FB2C05#128,
   0x2B679A762ABE04C3AA44132649860699#128,
   0x9C4250F491EF987A33540B43EDCFAC62#128,
   0xE4B31CA9C908E89580DF94FA758F3FA6#128] ++
  [0x4707A7FCF37317BA83593C19E6854FA8#128,
   0x686B81B27164DA8BF8EB0F4B70569D35#128,
   0x1E240E5E6358D1A225227C3B01217887#128,
   0xD40046579FD327524C3602E7A0C4C89E#128] ++
  [0xEABF8AD240C738B5A3F7F2CEF96115A1#128,
   0xE0AE5DA49B341A55AD933230F58CB1E3#128,
   0x1DF6E22E8266CA60C02923AB0D534E6F#128,
   0xD5DB3745DEFD8E2F03FF6A726D6C5B51#128] ++
  [0x8D1BAF92BBDDBC7F11D95C411F105AD8#128,
   0x0AC13188A5CD7BBD2D74D012B8E5B4B0#128,
   0x8969974A0C96777E65B9F109C56EC684#128,
   0x18F07DEC3ADC4D2079EE5F3ED7CB3948#128]

/-- `SBOX[b]`: row `b[7:4]`, column `b[3:0]` (R120). -/
def sbox (b : Byte) : Byte :=
  blockByte (sboxRows.getD (b.extractLsb' 4 4).toNat 0#128) (b.extractLsb' 0 4).toNat

/-- `FK` (R121). -/
def fk (j : Nat) : Word :=
  match j with
  | 0 => 0xA3B1BAC6#32
  | 1 => 0x56AA3350#32
  | 2 => 0x677D9197#32
  | _ => 0xB27022DC#32

/-- `CK[i]`: byte `j` is `((4*i + j) * 7) mod 256` (R122). -/
def ck (i : Nat) : Word :=
  be32 (BitVec.ofNat 8 ((4 * i + 0) * 7)) (BitVec.ofNat 8 ((4 * i + 1) * 7))
    (BitVec.ofNat 8 ((4 * i + 2) * 7)) (BitVec.ofNat 8 ((4 * i + 3) * 7))

/-- `tau` (R123). -/
def tau (a : Word) : Word :=
  be32 (sbox (wordByte a 0)) (sbox (wordByte a 1)) (sbox (wordByte a 2)) (sbox (wordByte a 3))

/-- `L`, the data path's linear transform (R124). -/
def linL (b : Word) : Word := b ^^^ rotl32 b 2 ^^^ rotl32 b 10 ^^^ rotl32 b 18 ^^^ rotl32 b 24

/-- `Lk`, the key schedule's linear mix (R125). -/
def linLk (b : Word) : Word := b ^^^ rotl32 b 13 ^^^ rotl32 b 23

/-- `T_ref` (R128). -/
def tRef (a : Word) : Word := linL (tau a)

/-- `TTDEF[k][b]` (R130). -/
def ttEntry (k : Nat) (b : Byte) : Word := linL ((sbox b).setWidth 32 <<< (24 - 8 * k))

/-- `TTDEF`, the defined content of the tables (R130). -/
def ttDef : Tables := tablesOf fun k b => ttEntry k (BitVec.ofNat 8 b)

/-- `TT[k][b]` (R47). -/
def ttLookup (tt : Tables) (k : Fin 4) (b : Byte) : Word := tt[k][b.toFin]

/-- `T_tab` (R132). -/
def tTab (tt : Tables) (a : Word) : Word :=
  ttLookup tt 0 (wordByte a 0) ^^^ ttLookup tt 1 (wordByte a 1)
    ^^^ ttLookup tt 2 (wordByte a 2) ^^^ ttLookup tt 3 (wordByte a 3)

/-- The round function of a variant (R134). -/
def roundFn (v : Variant) (tt : Tables) : Word → Word :=
  match v with
  | .reference => tRef
  | .tableAccelerated => tTab tt

/-- `init_tables()` (R131). -/
def initTables (s : State) : State := if s.ttReady then s else { s with tt := ttDef, ttReady := true }

/-- The first action of a command that runs the round function: `if V = 1: init_tables()` (R131). -/
def tablesFor (v : Variant) (s : State) : State :=
  match v with
  | .reference => s
  | .tableAccelerated => initTables s

/-- One step of the key schedule: the window moves on by `K[i+4]` (R126). -/
def keyStep (c : Word) (w : Window) : Window :=
  ⟨w.w1, w.w2, w.w3, w.w0 ^^^ linLk (tau (w.w1 ^^^ w.w2 ^^^ w.w3 ^^^ c))⟩

/-- The round keys that a list of constants gives from a window (R126). -/
def keyWords : List Word → Window → List Word
  | [], _ => []
  | c :: cs, w => (keyStep c w).w3 :: keyWords cs (keyStep c w)

/-- A schedule has one round key for each constant. -/
theorem keyWords_length (cs : List Word) (w : Window) : (keyWords cs w).length = cs.length := by
  induction cs generalizing w with
  | nil => rfl
  | cons c cs ih => simp [keyWords, ih]

/-- The 32 constants `CK[0]` to `CK[31]` (R122). -/
def ckList : List Word := (List.range 32).map ck

/-- `K[0 .. 3]` of a key (R126). -/
def keyWindow (key : Block) : Window :=
  ⟨word key 0 ^^^ fk 0, word key 1 ^^^ fk 1, word key 2 ^^^ fk 2, word key 3 ^^^ fk 3⟩

/-- `deriveRoundKeys` (R126). -/
def deriveRoundKeys (key : Block) : Vector Word 32 :=
  ⟨(keyWords ckList (keyWindow key)).toArray, by simp [keyWords_length, ckList]⟩

/-- One round of the cipher: the window moves on by `X[i+4]` (R134). -/
def cipherStep (T : Word → Word) (w : Window) (k : Word) : Window :=
  ⟨w.w1, w.w2, w.w3, w.w0 ^^^ T (w.w1 ^^^ w.w2 ^^^ w.w3 ^^^ k)⟩

/-- The round keys in the order of a direction (R134). -/
def orderedKeys (rk : Vector Word 32) (dir : Direction) : List Word :=
  match dir with
  | .enc => rk.toList
  | .dec => rk.toList.reverse

/-- `X[0 .. 3]` of a block (R134). -/
def blockWindow (B : Block) : Window := ⟨word B 0, word B 1, word B 2, word B 3⟩

/-- The last four words in reverse order (R134). -/
def reversedBlock (w : Window) : Block := blockOfWords w.w3 w.w2 w.w1 w.w0

/-- `crypt(rk, B, dir, v)`, with `T` the round function of the variant (R134). -/
def crypt (T : Word → Word) (rk : Vector Word 32) (dir : Direction) (B : Block) : Block :=
  reversedBlock ((orderedKeys rk dir).foldl (cipherStep T) (blockWindow B))

/-- `encBlock` (R134). -/
def encBlock (T : Word → Word) (rk : Vector Word 32) (B : Block) : Block := crypt T rk .enc B

/-- `decBlock` (R134). -/
def decBlock (T : Word → Word) (rk : Vector Word 32) (B : Block) : Block := crypt T rk .dec B

/-- `E(B)` of the running command, in the state whose tables it uses (R134). -/
def engineEnc (v : Variant) (s : State) (B : Block) : Block := encBlock (roundFn v s.tt) s.rk B

/-- `RK <- deriveRoundKeys(KEY); RK_VALID <- 1` (R127, R192). -/
def expandKey (s : State) : State := { s with rk := deriveRoundKeys s.key, rkValid := true }

/-- `KEY_EXPAND` (R127). -/
def execKeyExpand (s : State) : Result :=
  if !keyLenOk s then raise (encode .keyExpand) .invalidKeySize s
  else finish (encode .keyExpand) (expandKey s)

/-- `BLK_ENC` (R135). -/
def execBlkEnc (v : Variant) (s : State) : Result :=
  if !s.rkValid then raise (encode (.blkEnc v)) .keyNotExpanded s
  else
    let s1 := tablesFor v s
    finish (encode (.blkEnc v))
      { s1 with blkout := crypt (roundFn v s1.tt) s1.rk .enc s1.blkin }

/-- `BLK_DEC` (R136). -/
def execBlkDec (v : Variant) (s : State) : Result :=
  if !s.rkValid then raise (encode (.blkDec v)) .keyNotExpanded s
  else
    let s1 := tablesFor v s
    finish (encode (.blkDec v))
      { s1 with blkout := crypt (roundFn v s1.tt) s1.rk .dec s1.blkin }

end Sys2Proof.Machine
end

