-- ==== Sys2Proof/Machine/Ctr.lean ====
section
/-! DEFINITION. Counter mode (R175 to R182) and `J0_DERIVE`, `CTR_INC`, `CTR_XCRYPT`. -/

namespace Sys2Proof.Machine

/-- `deriveJ0(iv)` (R175); none stands for `InvalidIVSize`. -/
def deriveJ0 (iv : List Byte) : Option Block :=
  if iv.length = 12 then some (blockOfBytes (iv ++ [0x00#8, 0x00#8, 0x00#8, 0x01#8]))
  else if iv.length = 16 then some (blockOfBytes iv)
  else none

/-- `deriveJ0(IV[0 .. IVLEN))`, with the check on `IVLEN` itself (R176). -/
def ivJ0 (s : State) : Option Block := if ivLenOk s then deriveJ0 (ivOperand s) else none

/-- `inc32` (R177). -/
def inc32 (B : Block) : Block := blockOfWords (word B 0) (word B 1) (word B 2) (word B 3 + 1#32)

/-- The chunks of `ctr_stream` (R179): `n` chunks of `D` from counter `c` on, and the final counter. -/
def ctrLoop (E : Block → Block) : Nat → Block → List Byte → List Byte × Block
  | 0, c, _ => ([], c)
  | n + 1, c, D =>
    (xorBytes (D.take 16) (blockBytes (E c)) ++ (ctrLoop E n (inc32 c) (D.drop 16)).1,
     (ctrLoop E n (inc32 c) (D.drop 16)).2)

/-- `ctr_stream(rk, j0, D, v)`, with `E` the block encryption (R179). -/
def ctrStream (E : Block → Block) (j0 : Block) (D : List Byte) : List Byte × Block :=
  ctrLoop E (nchunks D.length) (inc32 j0) D

/-- `J0_DERIVE` (R176). -/
def execJ0Derive (s : State) : Result :=
  match ivJ0 s with
  | none => raise (encode .j0Derive) .invalidIVSize s
  | some j => finish (encode .j0Derive) { s with j0 := j }

/-- `CTR_INC` (R178). -/
def execCtrInc (s : State) : Result := finish (encode .ctrInc) { s with ctr := inc32 s.ctr }

/-- `CTR_XCRYPT` (R180). -/
def execCtrXcrypt (v : Variant) (s : State) : Result :=
  if !s.rkValid then raise (encode (.ctrXcrypt v)) .keyNotExpanded (clearOut s)
  else if inTooLong s then raise (encode (.ctrXcrypt v)) .lengthError (clearOut s)
  else
    let s1 := tablesFor v s
    let r := ctrStream (engineEnc v s1) s1.j0 (inOperand s1 s1.inlen.toNat)
    let s2 := clearOut s1
    finish (encode (.ctrXcrypt v))
      { s2 with outbuf := s2.outbuf.writeBytes 0 r.1, outlen := s2.inlen, ctr := r.2 }

end Sys2Proof.Machine
end

