-- ==== Sys2Proof/Machine/Gf128.lean ====
section
/-! DEFINITION. The multiplier in GF(2^128) (R150 to R154) and `GF_MUL`. The bit convention is the
one of `90_conflicts.md` C1 (log entry 8). -/

namespace Sys2Proof.Machine

/-- The reduction constant: 0xE1 in the top byte (R151). -/
def gfPoly : Block := 0xE1#128 <<< 120

/-- The running copy of `X` after one iteration: shifted right by one bit, reduced if a 1 was shifted
out (R151). It multiplies by `x`. -/
def gfShift (v : Block) : Block := if v.getLsbD 0 then (v >>> 1) ^^^ gfPoly else v >>> 1

/-- One iteration: the pair is the running copy `v` and the accumulator `z` (R151). -/
def gfStep (Y : Block) (vz : Block × Block) (i : Nat) : Block × Block :=
  (gfShift vz.1, if gbit Y i then vz.2 ^^^ vz.1 else vz.2)

/-- `gfmul(X, Y)` (R151). -/
def gfmul (X Y : Block) : Block := ((List.range 128).foldl (gfStep Y) (X, 0#128)).2

/-- `GF_MUL` (R152). -/
def execGfMul (s : State) : Result :=
  finish (encode .gfMul) { s with gfz := gfmul s.gfx s.gfy }

end Sys2Proof.Machine
end

