-- ==== Sys2Proof/Machine/Ghash.lean ====
section
/-! DEFINITION. The GHASH accumulator (R160 to R168) and `GH_INIT`, `GH_UPD`, `GH_MSG`, `H_DERIVE`. -/

namespace Sys2Proof.Machine

/-- One block enters the accumulator: `y <- gfmul(y ^ X, H)` (R160). -/
def ghashStep (H y X : Block) : Block := gfmul (y ^^^ X) H

/-- `ghash(H, X_1, ..., X_m)` (R160). -/
def ghash (H : Block) (Xs : List Block) : Block := Xs.foldl (ghashStep H) 0#128

/-- The blocks of a byte sequence, the last one zero-padded (R163). -/
def padBlocks (bs : List Byte) : List Block :=
  (List.range (nchunks bs.length)).map fun i => blockOfBytes ((bs.drop (16 * i)).take 16)

/-- `lenblock(a, c)` (R164). -/
def lenblock (a c : Nat) : Block := be64 (8 * a) ++ be64 (8 * c)

/-- `aead_blocks(A, C)` (R163). -/
def aeadBlocks (A C : List Byte) : List Block :=
  padBlocks A ++ padBlocks C ++ [lenblock A.length C.length]

/-- `ghash_ac(h, A, C)` (R191). -/
def ghashAC (h : Block) (A C : List Byte) : Block := ghash h (aeadBlocks A C)

/-- The chunks of a buffer enter the accumulator (R165). -/
def ghashChunks (h : Block) (m : Memory) (len : Nat) (y : Block) : Block :=
  (List.range (nchunks len)).foldl (fun y i => ghashStep h y (padblock m len i)) y

/-- `ghash_bufs(h, a, c)` over `AADBUF` and `INBUF` (R165). -/
def ghashBufs (h : Block) (aadbuf inbuf : Memory) (a c : Nat) : Block :=
  ghashStep h (ghashChunks h inbuf c (ghashChunks h aadbuf a 0#128)) (lenblock a c)

/-- `GH_INIT` (R161). -/
def execGhInit (s : State) : Result := finish (encode .ghInit) { s with y := 0#128 }

/-- `GH_UPD` (R162). -/
def execGhUpd (s : State) : Result :=
  finish (encode .ghUpd) { s with y := gfmul (s.y ^^^ s.blkin) s.h }

/-- `GH_MSG` (R166). -/
def execGhMsg (s : State) : Result :=
  if aadTooLong s || inTooLong s then raise (encode .ghMsg) .lengthError s
  else finish (encode .ghMsg)
    { s with y := ghashBufs s.h s.aadbuf s.inbuf s.aadlen.toNat s.inlen.toNat }

/-- `H_DERIVE` (R167). -/
def execHDerive (v : Variant) (s : State) : Result :=
  if !s.rkValid then raise (encode (.hDerive v)) .keyNotExpanded s
  else
    let s1 := tablesFor v s
    finish (encode (.hDerive v)) { s1 with h := engineEnc v s1 0#128 }

end Sys2Proof.Machine
end

