-- ==== Sys2Proof/Machine/Aead.lean ====
section
/-! DEFINITION. Authenticated encryption and decryption (R190 to R199): `AEAD_ENC`, `AEAD_DEC`. -/

namespace Sys2Proof.Machine

/-- `ct_eq16(a, b)` (R193): all sixteen byte differences are combined before the one test. -/
def ctEq16 (a b : Block) : Bool :=
  (List.range 16).foldl (fun d i => d ||| (blockByte a i ^^^ blockByte b i)) 0#8 == 0#8

/-- The part that both commands share once the checks have passed: tables, round keys (KeyExpanded),
`H` and `J0` (HashSubkeyDerived) (R191, R192, R195). -/
def startCall (v : Variant) (s : State) : State :=
  let s1 := expandKey (tablesFor v s)
  { s1 with h := engineEnc v s1 0#128, j0 := (ivJ0 s1).getD 0#128 }

/-- `Y <- ghash_ac(H, A, C)` (R191). -/
def hashCall (A C : List Byte) (s : State) : State := { s with y := ghashAC s.h A C }

/-- `t <- E(J0) ^ Y` (R191). -/
def callTag (v : Variant) (s : State) : Block := engineEnc v s s.j0 ^^^ s.y

/-- `AEAD_ENC` (R192). -/
def execAeadEnc (v : Variant) (s : State) : Result :=
  match encArgError s with
  | some e => abort (encode (.aeadEnc v)) e s
  | none =>
    let s1 := startCall v s
    let A := aadOperand s1
    let P := inOperand s1 s1.inlen.toNat
    let r := ctrStream (engineEnc v s1) s1.j0 P
    let s2 := hashCall A r.1 { s1 with ctr := r.2 }
    let t := callTag v s2
    let s3 := clearOut s2
    let out := (s3.outbuf.writeBytes 0 r.1).writeBytes s3.inlen.toNat (blockBytes t)
    finish (encode (.aeadEnc v)) (endCall { s3 with outbuf := out, outlen := s3.inlen + 16#32 })

/-- `AEAD_DEC` (R195). The keystream is computed only after the tags have been found equal (R196). -/
def execAeadDec (v : Variant) (s : State) : Result :=
  match decArgError s with
  | some e => abort (encode (.aeadDec v)) e s
  | none =>
    let n := s.inlen.toNat - 16
    let s1 := startCall v s
    let A := aadOperand s1
    let C := inOperand s1 n
    let g := blockOfBytes (s1.inbuf.readBytes n 16)
    let s2 := hashCall A C s1
    if ctEq16 (callTag v s2) g then
      let r := ctrStream (engineEnc v s2) s2.j0 C
      let s3 := clearOut { s2 with ctr := r.2 }
      finishAuthentic (encode (.aeadDec v))
        (endCall { s3 with outbuf := s3.outbuf.writeBytes 0 r.1, outlen := s3.inlen - 16#32 })
    else abort (encode (.aeadDec v)) .authenticationFailure s2

end Sys2Proof.Machine
end

