-- ==== Sys2Proof/Machine/Control.lean ====
section
/-! DEFINITION. The control commands `NOP`, `SOFT_RESET`, `TT_INIT` (R111 to R113). -/

namespace Sys2Proof.Machine

/-- `NOP` (R111). -/
def execNop (s : State) : Result := finish (encode .nop) s

/-- `SOFT_RESET` (R112): it sets all status itself, R110's record is skipped. -/
def execSoftReset (s : State) : Result := .next (softReset s)

/-- `TT_INIT` (R113). -/
def execTtInit (s : State) : Result := finish (encode .ttInit) (initTables s)

end Sys2Proof.Machine
end

