-- ==== Sys2Proof/Machine/Dispatch.lean ====
section
/-! DEFINITION. One arm for each command. -/

namespace Sys2Proof.Machine

def exec (i : Instr) (s : State) : Host.Outcome State Fault Refusal :=
  match i with
  | .nop => Sys2Proof.Machine.execNop s
  | .softReset => Sys2Proof.Machine.execSoftReset s
  | .ttInit => Sys2Proof.Machine.execTtInit s
  | .keyExpand => Sys2Proof.Machine.execKeyExpand s
  | .blkEnc v => Sys2Proof.Machine.execBlkEnc v s
  | .blkDec v => Sys2Proof.Machine.execBlkDec v s
  | .gfMul => Sys2Proof.Machine.execGfMul s
  | .ghInit => Sys2Proof.Machine.execGhInit s
  | .ghUpd => Sys2Proof.Machine.execGhUpd s
  | .ghMsg => Sys2Proof.Machine.execGhMsg s
  | .hDerive v => Sys2Proof.Machine.execHDerive v s
  | .j0Derive => Sys2Proof.Machine.execJ0Derive s
  | .ctrInc => Sys2Proof.Machine.execCtrInc s
  | .ctrXcrypt v => Sys2Proof.Machine.execCtrXcrypt v s
  | .aeadEnc v => Sys2Proof.Machine.execAeadEnc v s
  | .aeadDec v => Sys2Proof.Machine.execAeadDec v s

end Sys2Proof.Machine
end

