-- ==== Sys2Proof/Machine/HostPort.lean ====
section
/-! DEFINITION. The host port: the address spaces and the map of `REG` (R60, R61), `BusError` (R70),
the two host operations with their side effects (R65 to R69), and the event that a step takes. -/

namespace Sys2Proof.Machine

/-- The selector `sp` of a space (R60). -/
def Space.selector : Space → BitVec 2
  | .reg => 0#2
  | .aadbuf => 1#2
  | .inbuf => 2#2
  | .outbuf => 3#2

/-- The size of a space in bytes (R60). -/
def spaceSize (s : State) (sp : Space) : Nat :=
  match sp with
  | .reg => 256
  | .aadbuf => s.cfgAadMax.toNat
  | .inbuf => bufSize s
  | .outbuf => bufSize s

/-- The map of space `REG` (R61). -/
def regMap : List RegRow :=
  [⟨.id, 0x000, 4⟩, ⟨.cmd, 0x004, 4⟩, ⟨.status, 0x008, 4⟩, ⟨.err, 0x00C, 4⟩,
   ⟨.errseen, 0x010, 4⟩, ⟨.keylen, 0x014, 4⟩, ⟨.ivlen, 0x018, 4⟩, ⟨.aadlen, 0x01C, 4⟩,
   ⟨.inlen, 0x020, 4⟩, ⟨.outlen, 0x024, 4⟩, ⟨.cfgAadMax, 0x028, 4⟩, ⟨.cfgMsgMax, 0x02C, 4⟩] ++
  [⟨.key, 0x040, 16⟩, ⟨.iv, 0x050, 16⟩, ⟨.blkin, 0x060, 16⟩, ⟨.blkout, 0x070, 16⟩,
   ⟨.gfx, 0x080, 16⟩, ⟨.gfy, 0x090, 16⟩, ⟨.gfz, 0x0A0, 16⟩, ⟨.h, 0x0B0, 16⟩,
   ⟨.y, 0x0C0, 16⟩, ⟨.j0, 0x0D0, 16⟩, ⟨.ctr, 0x0E0, 16⟩]

/-- The register that an offset of `REG` belongs to and the byte of it; none if unmapped (R61). -/
def locate (a : Nat) : Option (Reg × Nat) :=
  match regMap.find? (fun r => decide (r.offset ≤ a ∧ a < r.offset + r.size)) with
  | none => none
  | some r => some (r.reg, a - r.offset)

/-- The offset of a register (R61). -/
def Reg.offset (r : Reg) : Nat :=
  match regMap.find? (fun row => row.reg == r) with
  | none => 0
  | some row => row.offset

/-- What the host reads at byte `i` of a register: `KEY` reads 0x00 (R23), `ID` is hard-wired (R36),
`STATUS` is a view (R33), the others are as stored, most significant byte first (R22, R66). -/
def readRegByte (s : State) (r : Reg) (i : Nat) : Byte :=
  match r with
  | .id => wordByte Config.idValue i
  | .cmd => wordByte s.cmd i
  | .status => wordByte (statusWord s) i
  | .err => wordByte s.err i
  | .errseen => wordByte s.errseen i
  | .keylen => wordByte s.keylen i
  | .ivlen => wordByte s.ivlen i
  | .aadlen => wordByte s.aadlen i
  | .inlen => wordByte s.inlen i
  | .outlen => wordByte s.outlen i
  | .cfgAadMax => wordByte s.cfgAadMax i
  | .cfgMsgMax => wordByte s.cfgMsgMax i
  | .key => 0#8
  | .iv => blockByte s.iv i
  | .blkin => blockByte s.blkin i
  | .blkout => blockByte s.blkout i
  | .gfx => blockByte s.gfx i
  | .gfy => blockByte s.gfy i
  | .gfz => blockByte s.gfz i
  | .h => blockByte s.h i
  | .y => blockByte s.y i
  | .j0 => blockByte s.j0 i
  | .ctr => blockByte s.ctr i

/-- A host write of `v` to byte `i` of a register. Read-only registers ignore it (R22, R35); a write
that touches `KEY` or `KEYLEN` clears `RK_VALID` (R69). `CMD` is not written here: its one legal
write runs a command (R37). -/
def writeRegByte (s : State) (r : Reg) (i : Nat) (v : Byte) : State :=
  match r with
  | .keylen => { s with keylen := setWordByte s.keylen i v, rkValid := false }
  | .ivlen => { s with ivlen := setWordByte s.ivlen i v }
  | .aadlen => { s with aadlen := setWordByte s.aadlen i v }
  | .inlen => { s with inlen := setWordByte s.inlen i v }
  | .key => { s with key := setBlockByte s.key i v, rkValid := false }
  | .iv => { s with iv := setBlockByte s.iv i v }
  | .blkin => { s with blkin := setBlockByte s.blkin i v }
  | .gfx => { s with gfx := setBlockByte s.gfx i v }
  | .gfy => { s with gfy := setBlockByte s.gfy i v }
  | .h => { s with h := setBlockByte s.h i v }
  | .y => { s with y := setBlockByte s.y i v }
  | .j0 => { s with j0 := setBlockByte s.j0 i v }
  | .ctr => { s with ctr := setBlockByte s.ctr i v }
  | .id | .cmd | .status | .err | .errseen | .outlen | .cfgAadMax | .cfgMsgMax | .blkout | .gfz => s

/-- The byte that the host reads at an offset of a space (R62, R65). -/
def readByte (s : State) (sp : Space) (a : Nat) : Byte :=
  match sp with
  | .reg =>
    match locate a with
    | none => 0#8
    | some (r, i) => readRegByte s r i
  | .aadbuf => s.aadbuf.read a
  | .inbuf => s.inbuf.read a
  | .outbuf => s.outbuf.read a

/-- The host stores one byte at an offset of a space; `OUTBUF` ignores it (R62, R65). -/
def writeByte (s : State) (sp : Space) (a : Nat) (v : Byte) : State :=
  match sp with
  | .reg =>
    match locate a with
    | none => s
    | some (r, i) => writeRegByte s r i v
  | .aadbuf => { s with aadbuf := s.aadbuf.write a v }
  | .inbuf => { s with inbuf := s.inbuf.write a v }
  | .outbuf => s

/-- The bytes of an access that touch an offset with a property. -/
def touches (p : Nat → Bool) (addr n : Nat) : Bool := (List.range n).any fun i => p (addr + i)

/-- `BusError` (R70). -/
def busError (s : State) (sp : Space) (addr n : Nat) (isWrite : Bool) : Bool :=
  !(n == 1 || n == 2 || n == 4)
    || addr % n != 0
    || decide (spaceSize s sp < addr + n)
    || (sp == .reg && touches (fun a => (locate a).isNone) addr n)
    || (sp == .reg && isWrite && n != 4 && touches (fun a => decide (4 ≤ a ∧ a ≤ 7)) addr n)

/-- `HostRead(sp, addr, n)` (R65). -/
def hostRead (s : State) (sp : Space) (addr n : Nat) : Response :=
  if busError s sp addr n false then .busError
  else .data ((List.range n).map fun i => readByte s sp (addr + i))

/-- The bytes of an accepted host write, lowest offset first (R65). -/
def hostStore (s : State) (sp : Space) (addr : Nat) : List Byte → State
  | [] => s
  | v :: vs => hostStore (writeByte s sp addr v) sp (addr + 1) vs

/-- `HostWrite(sp, addr, n, data)` (R65): refused, the run of a command (R69a), or a store. -/
def hostWrite (s : State) (sp : Space) (addr : Nat) (data : List Byte) : PortAction :=
  if busError s sp addr data.length true then .settled { s with response := .busError }
  else if sp = .reg ∧ addr = 0x004 then
    .command (wordOfBytes data) { s with response := .accepted }
  else .settled { hostStore s sp addr data with response := .accepted }

/-- The next event at the port (R20, R75): it leaves `pending` and takes effect. With nothing pending
the engine is idle (R235; log entry 2). -/
def nextAction (s : State) : PortAction :=
  match s.pending with
  | [] => .settled s
  | .hardReset :: rest => .settled (hardReset { s with pending := rest })
  | .read sp addr n :: rest => .settled { s with pending := rest, response := hostRead s sp addr n }
  | .write sp addr data :: rest => hostWrite { s with pending := rest } sp addr data

end Sys2Proof.Machine
end

