-- ==== Sys2Proof/Machine/Script.lean ====
section
/-! DEFINITION. The notation for host programs (R97, R98): each line is the list of host accesses it
stands for. -/

namespace Sys2Proof.Machine

/-- A place of the notation: a space and an offset in it (R97). -/
structure Place where
  sp     : Space
  offset : Nat
deriving DecidableEq, Repr

/-- `<register>+<offset>` (R97). -/
def Reg.at (r : Reg) (offset : Nat) : Place := ⟨.reg, r.offset + offset⟩

/-- `WR4 <place>, <number>` (R97). -/
def wr4 (p : Place) (w : Word) : HostEvent := .write p.sp p.offset (bytes32 w)

/-- `WR2 <place>, <number>`: the most significant byte first (R97). -/
def wr2 (p : Place) (w : BitVec 16) : HostEvent :=
  .write p.sp p.offset [w.extractLsb' 8 8, w.extractLsb' 0 8]

/-- `WR1 <place>, <number>` (R97). -/
def wr1 (p : Place) (b : Byte) : HostEvent := .write p.sp p.offset [b]

/-- `RD4 <place>` (R97). -/
def rd4 (p : Place) : HostEvent := .read p.sp p.offset 4

/-- `RD2 <place>` (R97). -/
def rd2 (p : Place) : HostEvent := .read p.sp p.offset 2

/-- `RD1 <place>` (R97). -/
def rd1 (p : Place) : HostEvent := .read p.sp p.offset 1

/-- `CMD <mnemonic>` with its suffix (R98). -/
def cmdLine (i : Instr) : HostEvent := wr4 (Reg.cmd.at 0) (encode i)

/-- `PUT <place>, <bytes>`: four bytes at a time while four or more remain, then two, then one (R98). -/
def put (p : Place) : List Byte → List HostEvent
  | b0 :: b1 :: b2 :: b3 :: bs =>
    .write p.sp p.offset [b0, b1, b2, b3] :: put ⟨p.sp, p.offset + 4⟩ bs
  | [b0, b1, b2] => [.write p.sp p.offset [b0, b1], .write p.sp (p.offset + 2) [b2]]
  | [b0, b1] => [.write p.sp p.offset [b0, b1]]
  | [b0] => [.write p.sp p.offset [b0]]
  | [] => []

/-- `GET <place>, <n>` (R98). -/
def get (p : Place) : Nat → List HostEvent
  | n + 4 => .read p.sp p.offset 4 :: get ⟨p.sp, p.offset + 4⟩ n
  | 3 => [.read p.sp p.offset 2, .read p.sp (p.offset + 2) 1]
  | 2 => [.read p.sp p.offset 2]
  | 1 => [.read p.sp p.offset 1]
  | 0 => []

/-- The number of bytes of a sequence, as the host writes it to a length register. A sequence longer
than the register can say is presented with the largest number (log entry 17). -/
def lengthWord (bs : List Byte) : Word := BitVec.ofNat 32 (min bs.length 0xFFFFFFFF)

/-- `SETKEY` (R98). A key of another length is presented by its length: the bytes beyond 16 have no
place (R99). -/
def setKey (key : List Byte) : List HostEvent :=
  put (Reg.key.at 0) (key.take 16) ++ [wr4 (Reg.keylen.at 0) (lengthWord key)]

/-- `SETIV` (R98). An IV of another length is presented by its length: the bytes beyond 16 have no
place (R99). -/
def setIv (iv : List Byte) : List HostEvent :=
  put (Reg.iv.at 0) (iv.take 16) ++ [wr4 (Reg.ivlen.at 0) (lengthWord iv)]

/-- `SETAAD` (R98). -/
def setAad (aad : List Byte) : List HostEvent :=
  put ⟨.aadbuf, 0⟩ aad ++ [wr4 (Reg.aadlen.at 0) (lengthWord aad)]

/-- `SETIN` (R98). -/
def setIn (data : List Byte) : List HostEvent :=
  put ⟨.inbuf, 0⟩ data ++ [wr4 (Reg.inlen.at 0) (lengthWord data)]

/-- The lines of a caller operation up to its command (R99). -/
def operandScript (key iv input aad : List Byte) : List HostEvent :=
  setKey key ++ setIv iv ++ setAad aad ++ setIn input

/-- The script of a caller operation that runs command `i`; `outlen` is the number that its `RD4 OUTLEN`
answers (R99). -/
def callScript (i : Instr) (key iv input aad : List Byte) (outlen : Nat) : List HostEvent :=
  operandScript key iv input aad ++ [cmdLine i, rd4 (Reg.err.at 0), rd4 (Reg.outlen.at 0)] ++
    get ⟨.outbuf, 0⟩ outlen

/-- The script of PC's `encrypt(key, iv, plaintext, aad)` (R99). -/
def encryptScript (v : Variant) (key iv plaintext aad : List Byte) (outlen : Nat) : List HostEvent :=
  callScript (.aeadEnc v) key iv plaintext aad outlen

/-- The script of PC's `decrypt(key, iv, ciphertext and tag, aad)` (R99). -/
def decryptScript (v : Variant) (key iv received aad : List Byte) (outlen : Nat) : List HostEvent :=
  callScript (.aeadDec v) key iv received aad outlen

end Sys2Proof.Machine
end

