-- ==== Sys2Proof/Machine/Step.lean ====
section
/-! DEFINITION. One step of the machine: the next event at the host port, and the command it runs if
it is a write to `CMD` (R20, R110). -/

namespace Sys2Proof.Machine

/-- Run the word written to `CMD` (R110). -/
def runWord (w : Word) (s : State) : Host.Outcome State Fault Refusal :=
  match decode w with
  | .ok i => exec i s
  | .error _ => illegalCommand w s

/-- One step. -/
def step (s : State) : Host.Outcome State Fault Refusal :=
  match nextAction s with
  | .settled t => .next t
  | .command w t => runWord w t

/-- `s` with the host's 4-byte write of the word to `CMD` as the next event: commands are not fetched,
they are the data of that write (R31, R78; log entry 6). -/
def State.withFetchWord (s : State) (nbits w : Nat) : State :=
  { s with pending := wr4 (Reg.cmd.at 0) (BitVec.ofNat 32 (w % 2 ^ nbits)) :: s.pending }

end Sys2Proof.Machine
end

