-- ==== Sys2Proof/Machine/Caller.lean ====
section
/-! DEFINITION. PC's caller operations as runs of the machine (R99): the host performs the script of the
operation, one access at a time, and reads the result back. -/

namespace Sys2Proof.Machine

/-- What the host holds after some accesses, with the state they leave; or the reason a step stopped. -/
abbrev Performed (α : Type) := Host.Outcome (α × State) Fault Refusal

/-- Go on from the accesses made so far. -/
def andThen {α β : Type} (p : Performed α) (f : α → State → Performed β) : Performed β :=
  match p with
  | .next (a, s) => f a s
  | .fault r => .fault r
  | .refused r => .refused r

/-- The host makes one access before everything that is pending, and gets its answer (R20, R75). -/
def access (e : HostEvent) (s : State) : Performed Response :=
  match step { s with pending := e :: s.pending } with
  | .next t => .next (t.response, t)
  | .fault r => .fault r
  | .refused r => .refused r

/-- The host makes the accesses of a script in order and collects the answers (R97). -/
def perform : List HostEvent → State → Performed (List Response)
  | [], s => .next ([], s)
  | e :: es, s =>
    andThen (access e s) fun r t => andThen (perform es t) fun rs u => .next (r :: rs, u)

/-- The bytes that an answer carries. -/
def Response.bytes : Response → List Byte
  | .data bytes => bytes
  | .nothing | .accepted | .busError => []

/-- What a caller operation gives back: the error code, 0 for success, and the bytes read (R99). -/
structure CallResult where
  err   : Word
  bytes : List Byte
deriving DecidableEq, Repr

/-- A caller operation that runs command `i`: the operands are written, the command runs, `ERR` and
`OUTLEN` are read, and as many bytes of `OUTBUF` as `OUTLEN` says (R99). -/
def call (i : Instr) (key iv input aad : List Byte) (s : State) : Performed CallResult :=
  andThen (perform (operandScript key iv input aad ++ [cmdLine i]) s) fun _ s1 =>
  andThen (access (rd4 (Reg.err.at 0)) s1) fun err s2 =>
  andThen (access (rd4 (Reg.outlen.at 0)) s2) fun outlen s3 =>
  andThen (perform (get ⟨.outbuf, 0⟩ (wordOfBytes outlen.bytes).toNat) s3) fun out s4 =>
  .next (⟨wordOfBytes err.bytes, out.flatMap Response.bytes⟩, s4)

/-- PC's `encrypt`: on success the bytes are the ciphertext and the tag (R99). The variant is the
engine's choice between two conforming implementations (R94). -/
def encrypt (v : Variant) (key iv plaintext aad : List Byte) (s : State) : Performed CallResult :=
  call (.aeadEnc v) key iv plaintext aad s

/-- PC's `decrypt` on the decoded bytes of ciphertext and tag: on success the bytes are the plaintext
(R99). -/
def decrypt (v : Variant) (key iv received aad : List Byte) (s : State) : Performed CallResult :=
  call (.aeadDec v) key iv received aad s

end Sys2Proof.Machine
end

