-- ==== Sys2Proof/Safety.lean ====
section
/-! DEFINITION. The terms that claims use: the outcome record of a command written out (R110), the
constraints on the capacities (R11), the invariant of every reachable state (R50), and a safe step. -/

namespace Sys2Proof.Machine

/-- `s` with the outcome record of a command word that succeeded (R110). -/
def State.succeeded (s : State) (w : Word) : State :=
  { s with
    cmd := w
    done := true
    err := 0#32
    errf := false
    authOk := false
    phase := .finished }

/-- `s` with the outcome record of a command word that ended with error `code` (R110, R220). -/
def State.failed (s : State) (w : Word) (code : Nat) : State :=
  { s with
    cmd := w
    done := true
    err := BitVec.ofNat 32 code
    errf := true
    errseen := s.errseen ||| (1#32 <<< code)
    authOk := false
    phase := if code = 5 then .authenticationFailed else .aborted }

/-- `s` with `OUTBUF` all zero and `OUTLEN = 0` (R180). -/
def State.outCleared (s : State) : State := { s with outbuf := [], outlen := 0#32 }

/-- `s` with the call-local registers zero (R194). -/
def State.callCleared (s : State) : State := { s with h := 0#128, y := 0#128, j0 := 0#128, ctr := 0#128 }

/-- The constraints on `AAD_MAX` and `MSG_MAX` (R11). -/
abbrev CapacityLegal (aadMax msgMax : Word) : Prop :=
  aadMax.toNat % 16 = 0 ∧ 16 ≤ aadMax.toNat ∧ aadMax.toNat ≤ 0xFFFFFFF0 ∧
  msgMax.toNat % 16 = 0 ∧ 16 ≤ msgMax.toNat ∧ msgMax.toNat ≤ 0xFFFFFFE0

/-- The tables are the defined ones whenever they are ready (R50 I2). -/
def State.TablesComplete (s : State) : Prop :=
  s.ttReady = true → ∀ (k : Fin 4) (b : Byte),
    ttLookup s.tt k b = linL ((sbox b).setWidth 32 <<< (24 - 8 * k.val))

/-- What `TT` and `TT_READY` are after a command with variant `v` has run its first action in state `s`:
with `V = 0` they are as before; with `V = 1` the tables are ready, with the defined content if they were
not ready before and as they were if they were (R131). -/
def TablesAfter (v : Variant) (s : State) (tt : Tables) (ready : Bool) : Prop :=
  (v = .reference → tt = s.tt ∧ ready = s.ttReady) ∧
  (v = .tableAccelerated → ready = true ∧ (s.ttReady = true → tt = s.tt) ∧
    (s.ttReady = false → ∀ (k : Fin 4) (b : Byte),
      tt[k][b.toNat] = linL ((sbox b).setWidth 32 <<< (24 - 8 * k.val))))

/-- What holds in every state reachable from reset (R50), with the facts about reserved bits and
buffers that R34, R38, R39 and R48 state. -/
structure State.Inv (s : State) : Prop where
  /-- R11. -/
  capacity : CapacityLegal s.cfgAadMax s.cfgMsgMax
  /-- I1. -/
  keysFresh : s.rkValid = true → s.keylen = 16#32 ∧ s.rk = deriveRoundKeys s.key
  /-- I2. -/
  tablesComplete : s.TablesComplete
  /-- I3. -/
  outTail : ∀ a, s.outlen.toNat ≤ a → s.outbuf.read a = 0#8
  /-- I3. -/
  outLength : s.outlen.toNat ≤ s.cfgMsgMax.toNat + 16
  /-- I4. -/
  errFlagged : s.errf = true ↔ s.err ≠ 0#32
  /-- I4. -/
  authClean : s.authOk = true → s.err = 0#32 ∧ s.phase = .finished
  /-- I4. -/
  phaseRejected : s.phase = .authenticationFailed ↔ s.err = 5#32
  /-- I4. -/
  phaseAborted : s.phase = .aborted ↔ s.err ≠ 0#32 ∧ s.err ≠ 5#32
  /-- I4. -/
  phaseInit : s.phase = .init ↔ s.done = false
  /-- R34: the phases inside a call are never left behind. -/
  phaseObservable : s.phase = .init ∨ s.phase = .authenticationFailed ∨ s.phase = .finished ∨
    s.phase = .aborted
  /-- R38, R224: the codes that `ERR` holds. -/
  errCode : s.err.toNat ≤ 8 ∧ s.err ≠ 3#32
  /-- I5 and R39: bits 0, 3 and 31:9 of `ERRSEEN` are 0. -/
  errseenReserved : s.errseen &&& ~~~0x000001F6#32 = 0#32
  /-- The canonical form of the buffers. -/
  buffersCanonical : s.aadbuf.wf = true ∧ s.inbuf.wf = true ∧ s.outbuf.wf = true
  /-- R48: `AADBUF` has `AAD_MAX` bytes. -/
  aadInside : ∀ a, s.cfgAadMax.toNat ≤ a → s.aadbuf.read a = 0#8
  /-- R48: `INBUF` has `MSG_MAX + 16` bytes. -/
  inInside : ∀ a, s.cfgMsgMax.toNat + 16 ≤ a → s.inbuf.read a = 0#8

/-- A step is safe when it answers a next state. No behaviour of the engine stops the machine. -/
def SafeStep (s : State) : Prop := ∃ t, step s = .next t

/-- The bytes of `REG` that a host write changes and a host read returns: the four length registers and
the writable data registers but `KEY` (R22, R35). -/
abbrev RegReadWrite (a : Nat) : Prop :=
  (0x014 ≤ a ∧ a < 0x024) ∨ (0x050 ≤ a ∧ a < 0x070) ∨ (0x080 ≤ a ∧ a < 0x0A0) ∨ (0x0B0 ≤ a ∧ a < 0x0F0)

/-- The places that a host write changes and a host read returns (R22, R35, R62). -/
abbrev ReadWrite (sp : Space) (a : Nat) : Prop :=
  sp = .aadbuf ∨ sp = .inbuf ∨ (sp = .reg ∧ RegReadWrite a)

end Sys2Proof.Machine
end

