-- ==== Sys2Proof/Certificates/Slice0/Obligations.lean ====
section
/-! DEFINITION. The statements for the provers. Each docstring names the rule it formalises. A result
statement gives the whole next state: every field that the record does not name is unchanged. -/

open Sys2Proof Sys2Proof.Machine

/-! ## Encoding -/

/-- R93: words written out from the opcode map decode to their commands. -/
def Obligations.WrittenWordsDecode : Prop :=
  decode 0x00000000#32 = .ok .nop ∧
  decode 0x00000001#32 = .ok .softReset ∧
  decode 0x00000002#32 = .ok .ttInit ∧
  decode 0x00000010#32 = .ok .keyExpand ∧
  decode 0x00000111#32 = .ok (.blkEnc .tableAccelerated) ∧
  decode 0x00000012#32 = .ok (.blkDec .reference) ∧
  decode 0x00000020#32 = .ok .gfMul ∧
  decode 0x00000023#32 = .ok .ghMsg ∧
  decode 0x00000124#32 = .ok (.hDerive .tableAccelerated) ∧
  decode 0x00000031#32 = .ok .ctrInc ∧
  decode 0x00000032#32 = .ok (.ctrXcrypt .reference) ∧
  decode 0x00000141#32 = .ok (.aeadDec .tableAccelerated)

/-- R93, R94: the decoder and the encoder are inverse to each other, on every word and every command.
-/
def Obligations.DecodeEncodeAgree : Prop :=
  ∀ (w : Word) (i : Instr), decode w = .ok i ↔ encode i = w

/-- R93: a word selects a row exactly when `(w & mask) = match`, and bit 8 is then the variant. -/
def Obligations.DecoderSelectsRowsByMask : Prop :=
  ∀ w : Word,
    (decode w = .ok .nop ↔ w &&& 0xFFFFFFFF#32 = 0x00000000#32) ∧
    (decode w = .ok .softReset ↔ w &&& 0xFFFFFFFF#32 = 0x00000001#32) ∧
    (decode w = .ok .ttInit ↔ w &&& 0xFFFFFFFF#32 = 0x00000002#32) ∧
    (decode w = .ok .keyExpand ↔ w &&& 0xFFFFFFFF#32 = 0x00000010#32) ∧
    (decode w = .ok .gfMul ↔ w &&& 0xFFFFFFFF#32 = 0x00000020#32) ∧
    (decode w = .ok .ghInit ↔ w &&& 0xFFFFFFFF#32 = 0x00000021#32) ∧
    (decode w = .ok .ghUpd ↔ w &&& 0xFFFFFFFF#32 = 0x00000022#32) ∧
    (decode w = .ok .ghMsg ↔ w &&& 0xFFFFFFFF#32 = 0x00000023#32) ∧
    (decode w = .ok .j0Derive ↔ w &&& 0xFFFFFFFF#32 = 0x00000030#32) ∧
    (decode w = .ok .ctrInc ↔ w &&& 0xFFFFFFFF#32 = 0x00000031#32) ∧
    (∀ v : Variant,
      (decode w = .ok (.blkEnc v) ↔
        w &&& 0xFFFFFEFF#32 = 0x00000011#32 ∧ (w.getLsbD 8 = true ↔ v = .tableAccelerated)) ∧
      (decode w = .ok (.blkDec v) ↔
        w &&& 0xFFFFFEFF#32 = 0x00000012#32 ∧ (w.getLsbD 8 = true ↔ v = .tableAccelerated)) ∧
      (decode w = .ok (.hDerive v) ↔
        w &&& 0xFFFFFEFF#32 = 0x00000024#32 ∧ (w.getLsbD 8 = true ↔ v = .tableAccelerated)) ∧
      (decode w = .ok (.ctrXcrypt v) ↔
        w &&& 0xFFFFFEFF#32 = 0x00000032#32 ∧ (w.getLsbD 8 = true ↔ v = .tableAccelerated)) ∧
      (decode w = .ok (.aeadEnc v) ↔
        w &&& 0xFFFFFEFF#32 = 0x00000040#32 ∧ (w.getLsbD 8 = true ↔ v = .tableAccelerated)) ∧
      (decode w = .ok (.aeadDec v) ↔
        w &&& 0xFFFFFEFF#32 = 0x00000041#32 ∧ (w.getLsbD 8 = true ↔ v = .tableAccelerated)))

/-- R95, R218: a word with a nonzero `RSV`, an `OP` that is not listed, or `V = 1` where the row says
0, written to `CMD`, raises `IllegalCommand` and changes nothing but the outcome record. That the
event leaves `pending` and is answered `accepted` is the model's port (log entry 1). -/
def Obligations.IllegalWordRaisesIllegalCommand : Prop :=
  ∀ (s : State) (rest : List HostEvent) (w : Word),
    s.pending = .write .reg 0x004 (bytes32 w) :: rest →
    (w.extractLsb' 9 23 ≠ 0#23 ∨
      w.extractLsb' 0 8 ∉ [0x00#8, 0x01#8, 0x02#8, 0x10#8, 0x11#8, 0x12#8, 0x20#8, 0x21#8, 0x22#8,
        0x23#8, 0x24#8, 0x30#8, 0x31#8, 0x32#8, 0x40#8, 0x41#8] ∨
      (w.getLsbD 8 = true ∧
        w.extractLsb' 0 8 ∉ [0x11#8, 0x12#8, 0x24#8, 0x32#8, 0x40#8, 0x41#8])) →
    step s = .next (State.failed { s with pending := rest, response := .accepted } w 6)

/-! ## The step -/

/-- R110: when the next event is the host's 4-byte write of a word to `CMD` and the word decodes to
`i`, the step is `exec i` in the state in which that event is taken and answered. `pending` and
`response` are the model's port (log entry 1). -/
def Obligations.StepRunsDecodedCommand : Prop :=
  ∀ (s : State) (rest : List HostEvent) (w : Word) (i : Instr),
    s.pending = .write .reg 0x004 (bytes32 w) :: rest →
    decode w = .ok i →
    step s = exec i { s with pending := rest, response := .accepted }

/-- R110: every command answers a next state and, but for `SOFT_RESET`, leaves the outcome record of
some code: `CMD`, `DONE`, `ERR`, `ERRF`, `ERRSEEN`, `AUTH_OK` and `PHASE` are as R110 says. -/
def Obligations.EveryCommandRecordsItsOutcome : Prop :=
  ∀ (i : Instr) (s : State), ∃ t, exec i s = .next t ∧
    (i ≠ .softReset → ∃ code : Nat,
      code ∈ [0, 1, 2, 4, 5, 6, 7, 8] ∧
      t.cmd = encode i ∧ t.done = true ∧ t.err = BitVec.ofNat 32 code ∧
      (t.errf = true ↔ code ≠ 0) ∧
      t.errseen = (if code = 0 then s.errseen else s.errseen ||| (1#32 <<< code)) ∧
      (t.authOk = true ↔ (∃ v, i = .aeadDec v) ∧ code = 0) ∧
      t.phase = (if code = 0 then .finished else if code = 5 then .authenticationFailed else .aborted))

/-! ## Control commands -/

/-- R111: `NOP` leaves only the outcome record. -/
def Obligations.NopLeavesOnlyTheRecord : Prop :=
  encode .nop = 0x00000000#32 ∧ ∀ s : State, exec .nop s = .next (s.succeeded 0x00000000#32)

/-- R112, R52: `SOFT_RESET` gives every piece of engine state its hard-reset value, but for `TT`,
`TT_READY` and `CMD`. The capacities are constants, and the model's own fields are unchanged. -/
def Obligations.SoftResetKeepsOnlyTables : Prop :=
  encode .softReset = 0x00000001#32 ∧
  ∀ s : State, exec .softReset s = .next
    { key := 0#128, iv := 0#128, blkin := 0#128, blkout := 0#128, gfx := 0#128, gfy := 0#128,
      gfz := 0#128, h := 0#128, y := 0#128, j0 := 0#128, ctr := 0#128,
      cmd := 0x00000001#32, err := 0#32, errseen := 0#32, keylen := 0#32, ivlen := 0#32,
      aadlen := 0#32, inlen := 0#32, outlen := 0#32,
      cfgAadMax := s.cfgAadMax, cfgMsgMax := s.cfgMsgMax,
      done := false, errf := false, ttReady := s.ttReady, rkValid := false, authOk := false,
      phase := .init, rk := Vector.replicate 32 0#32, tt := s.tt,
      aadbuf := [], inbuf := [], outbuf := [],
      pending := s.pending, response := s.response, resets := s.resets }

/-- R113, R130, R131: `TT_INIT` gives every table entry its defined value and sets `TT_READY`; when the
tables were ready already it changes no entry. -/
def Obligations.TtInitFillsTablesOnce : Prop :=
  encode .ttInit = 0x00000002#32 ∧
  ∀ s : State, ∃ tt : Tables,
    (s.ttReady = true → tt = s.tt) ∧
    (s.ttReady = false → ∀ (k : Fin 4) (b : Byte),
      tt[k][b.toNat] = linL ((sbox b).setWidth 32 <<< (24 - 8 * k.val))) ∧
    exec .ttInit s = .next (State.succeeded { s with tt := tt, ttReady := true } 0x00000002#32)

/-! ## Block cipher -/

/-- R120: `SBOX` is a permutation of the bytes. -/
def Obligations.SboxIsPermutation : Prop := Function.Bijective sbox

/-- R126, R127: `KEY_EXPAND` with `KEYLEN = 16` writes the round keys of the recurrence and sets
`RK_VALID`; otherwise it raises `InvalidKeySize` and changes nothing else. -/
def Obligations.KeyExpandFollowsSchedule : Prop :=
  encode .keyExpand = 0x00000010#32 ∧
  (∀ s : State, s.keylen = 16#32 →
    ∃ (K : Nat → Word) (rk : Vector Word 32),
      (K 0 = word s.key 0 ^^^ 0xA3B1BAC6#32 ∧ K 1 = word s.key 1 ^^^ 0x56AA3350#32 ∧
        K 2 = word s.key 2 ^^^ 0x677D9197#32 ∧ K 3 = word s.key 3 ^^^ 0xB27022DC#32) ∧
      (∀ i < 32, K (i + 4) = K i ^^^ linLk (tau (K (i + 1) ^^^ K (i + 2) ^^^ K (i + 3) ^^^ ck i))) ∧
      (∀ i : Fin 32, rk[i] = K (i.val + 4)) ∧
      exec .keyExpand s = .next (State.succeeded { s with rk := rk, rkValid := true } 0x00000010#32)) ∧
  (∀ s : State, s.keylen ≠ 16#32 → exec .keyExpand s = .next (s.failed 0x00000010#32 1))

/-- R131, R134, R135: `BLK_ENC` with `V = 1` has the tables ready first, and writes the block of the
32-round recurrence with round key `i` in round `i`, the last four words in reverse order; with
`RK_VALID = 0` it raises `KeyNotExpanded` only. -/
def Obligations.BlkEncFollowsRecurrence : Prop :=
  encode (.blkEnc .reference) = 0x00000011#32 ∧ encode (.blkEnc .tableAccelerated) = 0x00000111#32 ∧
  (∀ (v : Variant) (s : State), s.rkValid = true →
    ∃ (tt : Tables) (ready : Bool) (X : Nat → Word),
      TablesAfter v s tt ready ∧
      (∀ j < 4, X j = word s.blkin j) ∧
      (∀ i : Fin 32, X (i.val + 4) = X i.val ^^^ roundFn v tt
        (X (i.val + 1) ^^^ X (i.val + 2) ^^^ X (i.val + 3) ^^^ s.rk[i])) ∧
      exec (.blkEnc v) s = .next (State.succeeded
        { s with tt := tt, ttReady := ready, blkout := X 35 ++ X 34 ++ X 33 ++ X 32 }
        (encode (.blkEnc v)))) ∧
  (∀ (v : Variant) (s : State), s.rkValid = false →
    exec (.blkEnc v) s = .next (s.failed (encode (.blkEnc v)) 7))

/-- R131, R134, R136: `BLK_DEC` is the same recurrence with round key `31 - i` in round `i`. -/
def Obligations.BlkDecFollowsRecurrence : Prop :=
  encode (.blkDec .reference) = 0x00000012#32 ∧ encode (.blkDec .tableAccelerated) = 0x00000112#32 ∧
  (∀ (v : Variant) (s : State), s.rkValid = true →
    ∃ (tt : Tables) (ready : Bool) (X : Nat → Word),
      TablesAfter v s tt ready ∧
      (∀ j < 4, X j = word s.blkin j) ∧
      (∀ i : Fin 32, X (i.val + 4) = X i.val ^^^ roundFn v tt
        (X (i.val + 1) ^^^ X (i.val + 2) ^^^ X (i.val + 3) ^^^ s.rk[31 - i.val])) ∧
      exec (.blkDec v) s = .next (State.succeeded
        { s with tt := tt, ttReady := ready, blkout := X 35 ++ X 34 ++ X 33 ++ X 32 }
        (encode (.blkDec v)))) ∧
  (∀ (v : Variant) (s : State), s.rkValid = false →
    exec (.blkDec v) s = .next (s.failed (encode (.blkDec v)) 7))

/-- R132, R133: the table path computes the reference round function, from the defined tables. -/
def Obligations.TableLookupEqualsReference : Prop :=
  ∀ (tt : Tables) (a : Word),
    (∀ (k : Fin 4) (b : Byte), tt[k][b.toNat] = linL ((sbox b).setWidth 32 <<< (24 - 8 * k.val))) →
    tTab tt a = linL (tau a)

/-- R133: in a state whose tables are complete when they are ready, the two variants of a command
leave the same state, apart from `TT`, `TT_READY` and the command word in `CMD`. `V = 0` leaves `TT`
and `TT_READY`; `V = 1` has the tables ready, unless it ends with an error found before its first
action (R131). -/
def Obligations.VariantsGiveSameResults : Prop :=
  ∀ (s : State) (f : Variant → Instr),
    f ∈ [Instr.blkEnc, Instr.blkDec, Instr.hDerive, Instr.ctrXcrypt, Instr.aeadEnc, Instr.aeadDec] →
    s.TablesComplete →
    ∃ t u : State,
      exec (f .reference) s = .next t ∧ exec (f .tableAccelerated) s = .next u ∧
      t.cmd = encode (f .reference) ∧ u.cmd = encode (f .tableAccelerated) ∧
      u = { t with tt := u.tt, ttReady := u.ttReady, cmd := u.cmd } ∧
      (t.tt = s.tt ∧ t.ttReady = s.ttReady) ∧
      (u.err = 0#32 ∨ u.err = 5#32 → TablesAfter .tableAccelerated s u.tt u.ttReady) ∧
      (u.err ≠ 0#32 → u.err ≠ 5#32 → u.tt = s.tt ∧ u.ttReady = s.ttReady)

/-- R137: with any round keys and in any two variants whose tables are the defined ones, decryption
undoes encryption and encryption undoes decryption. -/
def Obligations.BlockCipherInverse : Prop :=
  ∀ (rk : Vector Word 32) (B : Block) (v v' : Variant),
    decBlock (roundFn v' ttDef) rk (encBlock (roundFn v ttDef) rk B) = B ∧
    encBlock (roundFn v' ttDef) rk (decBlock (roundFn v ttDef) rk B) = B

/-- R138: the known answer, under both variants and both directions. -/
def Obligations.KnownAnswer : Prop :=
  ∀ v : Variant,
    encBlock (roundFn v ttDef) (deriveRoundKeys 0x0123456789abcdeffedcba9876543210#128)
      0x0123456789abcdeffedcba9876543210#128 = 0x681edf34d206965e86b3e94f536e4246#128 ∧
    decBlock (roundFn v ttDef) (deriveRoundKeys 0x0123456789abcdeffedcba9876543210#128)
      0x681edf34d206965e86b3e94f536e4246#128 = 0x0123456789abcdeffedcba9876543210#128

/-! ## Multiplier -/

/-- R151, R152: `GF_MUL` writes what 128 iterations of shift and conditional accumulate give, scanning
`GFY` from `gbit 0` up. -/
def Obligations.GfMulShiftsAndAccumulates : Prop :=
  encode .gfMul = 0x00000020#32 ∧
  ∀ s : State, ∃ v z : Nat → Block,
    v 0 = s.gfx ∧ z 0 = 0#128 ∧
    (∀ i < 128, z (i + 1) = if s.gfy.getLsbD (127 - i) then z i ^^^ v i else z i) ∧
    (∀ i < 128, v (i + 1) =
      if (v i).getLsbD 0 then (v i >>> 1) ^^^ (0xE1#128 <<< 120) else v i >>> 1) ∧
    exec .gfMul s = .next (State.succeeded { s with gfz := z 128 } 0x00000020#32)

/-- R150, R151, R153: the product is the product of the field with the polynomial `x^128 + x^7 + x^2 +
x + 1`, a block standing for the polynomial whose coefficient of `x^i` is `gbit i`. -/
def Obligations.ProductIsFieldProduct : Prop :=
  let P : Polynomial (ZMod 2) :=
    Polynomial.X ^ 128 + Polynomial.X ^ 7 + Polynomial.X ^ 2 + Polynomial.X + 1
  let poly : Block → Polynomial (ZMod 2) := fun B =>
    ∑ i ∈ Finset.range 128, if B.getLsbD (127 - i) then Polynomial.X ^ i else 0
  ∀ A B : Block, P ∣ poly (gfmul A B) - poly A * poly B

/-- R153: distributivity over exclusive or on both sides, the zero and the one of the field. -/
def Obligations.MultiplierIsBilinear : Prop :=
  ∀ A B C : Block,
    gfmul (A ^^^ B) C = gfmul A C ^^^ gfmul B C ∧
    gfmul A (B ^^^ C) = gfmul A B ^^^ gfmul A C ∧
    gfmul A 0#128 = 0#128 ∧ gfmul 0#128 A = 0#128 ∧
    gfmul A (1#128 <<< 127) = A ∧ gfmul (1#128 <<< 127) A = A

/-- R153: commutativity and associativity, which the other reading of the scan order lacks. -/
def Obligations.MultiplierCommutesAndAssociates : Prop :=
  ∀ A B C : Block,
    gfmul A B = gfmul B A ∧ gfmul (gfmul A B) C = gfmul A (gfmul B C)

/-! ## GHASH -/

/-- R160: the hash of no block is zero, and each further block is absorbed as `gfmul(Y ^ X, H)`. -/
def Obligations.GhashAbsorbsBlocksInOrder : Prop :=
  ∀ (H X : Block) (Xs : List Block),
    ghash H [] = 0#128 ∧ ghash H (Xs ++ [X]) = gfmul (ghash H Xs ^^^ X) H

/-- R163: the block sequence of a call: the padded blocks of `A`, those of `C`, the length block. -/
def Obligations.AeadBlockSequence : Prop :=
  ∀ A C : List Byte,
    let na := (A.length + 15) / 16
    let nc := (C.length + 15) / 16
    (aeadBlocks A C).length = na + nc + 1 ∧
    (∀ i < na, ∀ t < 16,
      blockByte ((aeadBlocks A C).getD i 0#128) t = A.getD (16 * i + t) 0#8) ∧
    (∀ i < nc, ∀ t < 16,
      blockByte ((aeadBlocks A C).getD (na + i) 0#128) t = C.getD (16 * i + t) 0#8) ∧
    (aeadBlocks A C).getD (na + nc) 0#128 = lenblock A.length C.length

/-- R164: the length block: the bit length of the AAD in bytes 0 to 7, that of the ciphertext in
bytes 8 to 15, big-endian, exact for byte counts below `2^32`. -/
def Obligations.LengthBlockHoldsBitLengths : Prop :=
  ∀ a c : Nat, a < 2 ^ 32 → c < 2 ^ 32 →
    (∑ i ∈ Finset.range 8, (blockByte (lenblock a c) i).toNat * 256 ^ (7 - i)) = 8 * a ∧
    (∑ i ∈ Finset.range 8, (blockByte (lenblock a c) (8 + i)).toNat * 256 ^ (7 - i)) = 8 * c

/-- R161: `GH_INIT` clears `Y`. -/
def Obligations.GhInitClearsAccumulator : Prop :=
  encode .ghInit = 0x00000021#32 ∧
  ∀ s : State, exec .ghInit s = .next (State.succeeded { s with y := 0#128 } 0x00000021#32)

/-- R162: `GH_UPD` absorbs `BLKIN` into `Y`. -/
def Obligations.GhUpdAbsorbsBlock : Prop :=
  encode .ghUpd = 0x00000022#32 ∧
  ∀ s : State, exec .ghUpd s =
    .next (State.succeeded { s with y := gfmul (s.y ^^^ s.blkin) s.h } 0x00000022#32)

/-- R165, R166: `GH_MSG` hashes the AEAD block sequence of the two buffers up to their lengths; a
length beyond its buffer raises `LengthError` and changes nothing else. -/
def Obligations.GhMsgHashesTheBuffers : Prop :=
  encode .ghMsg = 0x00000023#32 ∧
  (∀ s : State, s.aadlen.toNat ≤ s.cfgAadMax.toNat → s.inlen.toNat ≤ s.cfgMsgMax.toNat + 16 →
    exec .ghMsg s = .next (State.succeeded
      { s with y := ghash s.h (aeadBlocks (s.aadbuf.readBytes 0 s.aadlen.toNat)
                (s.inbuf.readBytes 0 s.inlen.toNat)) } 0x00000023#32)) ∧
  (∀ s : State, s.cfgAadMax.toNat < s.aadlen.toNat ∨ s.cfgMsgMax.toNat + 16 < s.inlen.toNat →
    exec .ghMsg s = .next (s.failed 0x00000023#32 8))

/-- R131, R167: `H_DERIVE` with `V = 1` has the tables ready first, and encrypts the zero block under
`RK`; with `RK_VALID = 0` it raises `KeyNotExpanded` only. -/
def Obligations.HDeriveEncryptsZeroBlock : Prop :=
  encode (.hDerive .reference) = 0x00000024#32 ∧ encode (.hDerive .tableAccelerated) = 0x00000124#32 ∧
  (∀ (v : Variant) (s : State), s.rkValid = true →
    ∃ (tt : Tables) (ready : Bool), TablesAfter v s tt ready ∧
      exec (.hDerive v) s = .next (State.succeeded
        { s with tt := tt, ttReady := ready, h := encBlock (roundFn v tt) s.rk 0#128 }
        (encode (.hDerive v)))) ∧
  (∀ (v : Variant) (s : State), s.rkValid = false →
    exec (.hDerive v) s = .next (s.failed (encode (.hDerive v)) 7))

/-! ## Counter mode -/

/-- R175, R176: `J0_DERIVE` appends 00000001 to a 12-byte IV, takes a 16-byte IV as it is, and raises
`InvalidIVSize` for every other length. -/
def Obligations.J0DeriveFollowsIvLength : Prop :=
  encode .j0Derive = 0x00000030#32 ∧
  (∀ s : State, s.ivlen = 12#32 → exec .j0Derive s = .next (State.succeeded
    { s with j0 := word s.iv 0 ++ word s.iv 1 ++ word s.iv 2 ++ 0x00000001#32 } 0x00000030#32)) ∧
  (∀ s : State, s.ivlen = 16#32 →
    exec .j0Derive s = .next (State.succeeded { s with j0 := s.iv } 0x00000030#32)) ∧
  (∀ s : State, s.ivlen ≠ 12#32 → s.ivlen ≠ 16#32 →
    exec .j0Derive s = .next (s.failed 0x00000030#32 2))

/-- R177: `inc32` adds 1 modulo `2^32` to the last word, never changes bytes 0 to 11, and is the
identity when applied `2^32` times. -/
def Obligations.Inc32CountsInTheLastWord : Prop :=
  ∀ B : Block,
    (word (inc32 B) 3).toNat = ((word B 3).toNat + 1) % 2 ^ 32 ∧
    (∀ i < 12, blockByte (inc32 B) i = blockByte B i) ∧
    inc32^[2 ^ 32] B = B

/-- R178: `CTR_INC` increments `CTR`, silently at the wrap. -/
def Obligations.CtrIncAdvancesCounter : Prop :=
  encode .ctrInc = 0x00000031#32 ∧
  ∀ s : State, exec .ctrInc s = .next (State.succeeded
    { s with ctr := word s.ctr 0 ++ word s.ctr 1 ++ word s.ctr 2 ++ (word s.ctr 3 + 1#32) }
    0x00000031#32)

/-- R181: as many counter blocks as there are below `2^32`, starting at `J0`, are pairwise different,
and a command over at most `MSG_MAX + 16` bytes uses fewer than `2^28` of them. -/
def Obligations.CounterBlocksDoNotRepeat : Prop :=
  (∀ (J : Block) (i j : Nat), i < j → j < 2 ^ 32 → inc32^[i] J ≠ inc32^[j] J) ∧
  (∀ (aadMax msgMax : Word) (n : Nat), CapacityLegal aadMax msgMax → n ≤ msgMax.toNat + 16 →
    nchunks n < 2 ^ 28)

/-- R131, R179, R180: `CTR_XCRYPT` with `V = 1` has the tables ready first, and writes `INBUF[p] ^
E(c)[p mod 16]`, `c` being `J0` incremented `p div 16 + 1` times, for every `p` below `INLEN`, zeros
above, and the counter after the last chunk. -/
def Obligations.CtrXcryptStreams : Prop :=
  encode (.ctrXcrypt .reference) = 0x00000032#32 ∧
  encode (.ctrXcrypt .tableAccelerated) = 0x00000132#32 ∧
  (∀ (v : Variant) (s : State), s.rkValid = true → s.inlen.toNat ≤ s.cfgMsgMax.toNat + 16 →
    ∃ (tt : Tables) (ready : Bool) (m : Memory),
      TablesAfter v s tt ready ∧
      m.wf = true ∧
      (∀ p < s.inlen.toNat, m.read p = s.inbuf.read p ^^^
        blockByte (encBlock (roundFn v tt) s.rk (inc32^[p / 16 + 1] s.j0)) (p % 16)) ∧
      (∀ p, s.inlen.toNat ≤ p → m.read p = 0#8) ∧
      exec (.ctrXcrypt v) s = .next (State.succeeded
        { s with
            tt := tt
            ttReady := ready
            outbuf := m
            outlen := s.inlen
            ctr := inc32^[(s.inlen.toNat + 15) / 16 + 1] s.j0 } (encode (.ctrXcrypt v)))) ∧
  (∀ (v : Variant) (s : State), s.rkValid = false →
    exec (.ctrXcrypt v) s = .next (s.outCleared.failed (encode (.ctrXcrypt v)) 7)) ∧
  (∀ (v : Variant) (s : State), s.rkValid = true → s.cfgMsgMax.toNat + 16 < s.inlen.toNat →
    exec (.ctrXcrypt v) s = .next (s.outCleared.failed (encode (.ctrXcrypt v)) 8))

/-- R182: counter mode keeps the length, undoes itself in any variant, and flips in the output exactly
the bits that are flipped in the input. -/
def Obligations.CounterModeLaws : Prop :=
  ∀ (rk : Vector Word 32) (J : Block) (D M : List Byte) (v v' : Variant),
    let E := encBlock (roundFn v ttDef) rk
    let E' := encBlock (roundFn v' ttDef) rk
    (ctrStream E J D).1.length = D.length ∧
    (ctrStream E' J (ctrStream E J D).1).1 = D ∧
    (M.length = D.length →
      (ctrStream E J (xorBytes D M)).1 = xorBytes (ctrStream E J D).1 M)

/-! ## Authenticated encryption -/

/-- R193: the comparison of tags decides equality of all sixteen bytes. -/
def Obligations.TagComparisonDecidesEquality : Prop :=
  ∀ a b : Block, ctEq16 a b = true ↔ ∀ i < 16, blockByte a i = blockByte b i

/-- R131, R191, R192: `AEAD_ENC` past its checks has the tables ready if `V = 1`, expands the key,
encrypts in counter mode from `J0`, and stores the ciphertext and the tag `E(J0) ^ GHASH`; the
call-local registers end up zero. -/
def Obligations.AeadEncComputesCiphertextAndTag : Prop :=
  encode (.aeadEnc .reference) = 0x00000040#32 ∧ encode (.aeadEnc .tableAccelerated) = 0x00000140#32 ∧
  ∀ (v : Variant) (s : State),
    s.keylen = 16#32 → s.ivlen = 12#32 ∨ s.ivlen = 16#32 →
    s.aadlen.toNat ≤ s.cfgAadMax.toNat → s.inlen.toNat ≤ s.cfgMsgMax.toNat →
    ∃ (tt : Tables) (ready : Bool) (J tag : Block) (C : List Byte) (m : Memory),
      let u : State :=
        { s with tt := tt, ttReady := ready, rk := deriveRoundKeys s.key, rkValid := true }
      let E : Block → Block := encBlock (roundFn v tt) u.rk
      TablesAfter v s tt ready ∧
      (s.ivlen = 12#32 → J = word s.iv 0 ++ word s.iv 1 ++ word s.iv 2 ++ 0x00000001#32) ∧
      (s.ivlen = 16#32 → J = s.iv) ∧
      C.length = s.inlen.toNat ∧
      (∀ p < s.inlen.toNat, C.getD p 0#8 =
        s.inbuf.read p ^^^ blockByte (E (inc32^[p / 16 + 1] J)) (p % 16)) ∧
      tag = E J ^^^ ghash (E 0#128) (aeadBlocks (s.aadbuf.readBytes 0 s.aadlen.toNat) C) ∧
      m.wf = true ∧
      (∀ p, m.read p = if p < s.inlen.toNat then C.getD p 0#8
        else if p < s.inlen.toNat + 16 then blockByte tag (p - s.inlen.toNat) else 0#8) ∧
      exec (.aeadEnc v) s = .next (State.succeeded
        (State.callCleared { u with outbuf := m, outlen := s.inlen + 16#32 }) (encode (.aeadEnc v)))

/-- R131, R191, R195, R196: `AEAD_DEC` past its checks has the tables ready if `V = 1` and recomputes
the tag over the received ciphertext. If it equals the received one the plaintext is stored and
`AUTH_OK` set; if not, `OUTBUF` is all zero, the error is `AuthenticationFailure`, and only the key
expansion and the tables stay. -/
def Obligations.AeadDecChecksTagBeforePlaintext : Prop :=
  encode (.aeadDec .reference) = 0x00000041#32 ∧ encode (.aeadDec .tableAccelerated) = 0x00000141#32 ∧
  ∀ (v : Variant) (s : State),
    s.keylen = 16#32 → s.ivlen = 12#32 ∨ s.ivlen = 16#32 → 16 ≤ s.inlen.toNat →
    s.aadlen.toNat ≤ s.cfgAadMax.toNat → s.inlen.toNat ≤ s.cfgMsgMax.toNat + 16 →
    ∃ (tt : Tables) (ready : Bool) (J tag : Block) (m : Memory),
      let n := s.inlen.toNat - 16
      let u : State :=
        { s with tt := tt, ttReady := ready, rk := deriveRoundKeys s.key, rkValid := true }
      let E : Block → Block := encBlock (roundFn v tt) u.rk
      TablesAfter v s tt ready ∧
      (s.ivlen = 12#32 → J = word s.iv 0 ++ word s.iv 1 ++ word s.iv 2 ++ 0x00000001#32) ∧
      (s.ivlen = 16#32 → J = s.iv) ∧
      tag = E J ^^^ ghash (E 0#128)
        (aeadBlocks (s.aadbuf.readBytes 0 s.aadlen.toNat) (s.inbuf.readBytes 0 n)) ∧
      m.wf = true ∧
      (∀ p, m.read p = if p < n then
        s.inbuf.read p ^^^ blockByte (E (inc32^[p / 16 + 1] J)) (p % 16) else 0#8) ∧
      ((∀ i < 16, blockByte tag i = s.inbuf.read (n + i)) →
        exec (.aeadDec v) s = .next
          { State.succeeded (State.callCleared { u with outbuf := m, outlen := s.inlen - 16#32 })
              (encode (.aeadDec v)) with authOk := true }) ∧
      ((∃ i < 16, blockByte tag i ≠ s.inbuf.read (n + i)) →
        exec (.aeadDec v) s = .next (State.failed u.outCleared.callCleared (encode (.aeadDec v)) 5))

/-- R190, R221, R222: the argument checks of the AEAD commands, the first that fails in the order of
R190; the output and the call-local registers are cleared and nothing else changes. -/
def Obligations.AeadArgumentErrorsInOrder : Prop :=
  ∀ (v : Variant) (s : State) (c : Instr), c = .aeadEnc v ∨ c = .aeadDec v →
    (s.keylen ≠ 16#32 →
      exec c s = .next (State.failed s.outCleared.callCleared (encode c) 1)) ∧
    (s.keylen = 16#32 → s.ivlen ≠ 12#32 → s.ivlen ≠ 16#32 →
      exec c s = .next (State.failed s.outCleared.callCleared (encode c) 2)) ∧
    (s.keylen = 16#32 → s.ivlen = 12#32 ∨ s.ivlen = 16#32 → c = .aeadDec v → s.inlen.toNat < 16 →
      exec c s = .next (State.failed s.outCleared.callCleared (encode c) 4)) ∧
    (s.keylen = 16#32 → s.ivlen = 12#32 ∨ s.ivlen = 16#32 → (c = .aeadDec v → 16 ≤ s.inlen.toNat) →
      (s.cfgAadMax.toNat < s.aadlen.toNat ∨
        (c = .aeadEnc v ∧ s.cfgMsgMax.toNat < s.inlen.toNat) ∨
        (c = .aeadDec v ∧ s.cfgMsgMax.toNat + 16 < s.inlen.toNat)) →
      exec c s = .next (State.failed s.outCleared.callCleared (encode c) 8))

/-- R25, R194: on every path, success or error, an AEAD command ends with `H`, `Y`, `J0` and `CTR`
zero, and on an error with `OUTBUF` all zero and `OUTLEN` zero. -/
def Obligations.AeadLeavesNoCallLocalState : Prop :=
  ∀ (v : Variant) (s : State) (c : Instr), c = .aeadEnc v ∨ c = .aeadDec v →
    ∃ t, exec c s = .next t ∧
      t.h = 0#128 ∧ t.y = 0#128 ∧ t.j0 = 0#128 ∧ t.ctr = 0#128 ∧
      (t.err ≠ 0#32 → t.outlen = 0#32 ∧ ∀ p, t.outbuf.read p = 0#8)

/-- R192, R168: the result of an AEAD command does not depend on `H`, `Y`, `J0`, `CTR`, `RK`,
`RK_VALID`, `BLKIN`, `BLKOUT`, `GFX`, `GFY`, `GFZ`, `OUTBUF` or `OUTLEN` before it: two states that
agree on the operands, on the tables and on their flag end with equal output and equal record. -/
def Obligations.AeadIgnoresEarlierWorkingState : Prop :=
  ∀ (v : Variant) (c : Instr) (s u : State), c = .aeadEnc v ∨ c = .aeadDec v →
    s.key = u.key → s.keylen = u.keylen → s.iv = u.iv → s.ivlen = u.ivlen →
    s.aadlen = u.aadlen → s.inlen = u.inlen → s.aadbuf = u.aadbuf → s.inbuf = u.inbuf →
    s.cfgAadMax = u.cfgAadMax → s.cfgMsgMax = u.cfgMsgMax → s.tt = u.tt → s.ttReady = u.ttReady →
    ∃ s' u' : State, exec c s = .next s' ∧ exec c u = .next u' ∧
      s'.outbuf = u'.outbuf ∧ s'.outlen = u'.outlen ∧ s'.err = u'.err ∧ s'.errf = u'.errf ∧
      s'.authOk = u'.authOk ∧ s'.phase = u'.phase ∧ s'.h = u'.h ∧ s'.y = u'.y ∧ s'.j0 = u'.j0 ∧
      s'.ctr = u'.ctr ∧ s'.tt = u'.tt ∧ s'.ttReady = u'.ttReady

/-- R198: decrypting what `AEAD_ENC` left in `OUTBUF`, with the same key, IV and AAD and in any two
variants, succeeds and gives the plaintext back. -/
def Obligations.AeadRoundTrip : Prop :=
  ∀ (v v' : Variant) (s : State),
    CapacityLegal s.cfgAadMax s.cfgMsgMax → s.TablesComplete →
    s.keylen = 16#32 → s.ivlen = 12#32 ∨ s.ivlen = 16#32 →
    s.aadlen.toNat ≤ s.cfgAadMax.toNat → s.inlen.toNat ≤ s.cfgMsgMax.toNat →
    ∃ t, exec (.aeadEnc v) s = .next t ∧
      ∀ u : State,
        u.TablesComplete → u.cfgAadMax = s.cfgAadMax → u.cfgMsgMax = s.cfgMsgMax →
        u.key = s.key → u.keylen = s.keylen → u.ivlen = s.ivlen →
        (∀ i < s.ivlen.toNat, blockByte u.iv i = blockByte s.iv i) →
        u.aadlen = s.aadlen → (∀ p < s.aadlen.toNat, u.aadbuf.read p = s.aadbuf.read p) →
        u.inlen = t.outlen → (∀ p < t.outlen.toNat, u.inbuf.read p = t.outbuf.read p) →
        ∃ r, exec (.aeadDec v') u = .next r ∧
          r.err = 0#32 ∧ r.authOk = true ∧ r.outlen = s.inlen ∧
          ∀ p < s.inlen.toNat, r.outbuf.read p = s.inbuf.read p

/-- R199 (a) and (c): if `AEAD_DEC` accepts an input, then after any change to the tag alone it ends
with `AuthenticationFailure` and no byte of `OUTBUF` is other than zero. -/
def Obligations.ChangedTagIsRejected : Prop :=
  ∀ (v : Variant) (s t : State) (m : Memory) (i : Nat),
    exec (.aeadDec v) s = .next t → t.authOk = true → i < 16 →
    (∀ p < s.inlen.toNat - 16, m.read p = s.inbuf.read p) →
    m.read (s.inlen.toNat - 16 + i) ≠ s.inbuf.read (s.inlen.toNat - 16 + i) →
    ∃ r, exec (.aeadDec v) { s with inbuf := m } = .next r ∧
      r.err = 5#32 ∧ r.phase = .authenticationFailed ∧ r.authOk = false ∧ r.outlen = 0#32 ∧
      ∀ p, r.outbuf.read p = 0#8

/-! ## The whole machine -/

/-- R51: the state right after a hard reset meets the invariant, whatever the legal capacities and
whatever `TT` holds. -/
def Obligations.ResetMeetsInvariant : Prop :=
  ∀ (aadMax msgMax : Word) (draw : Nat), CapacityLegal aadMax msgMax →
    (State.resetWith aadMax msgMax draw).Inv

/-- R50: every step, whatever the host does, keeps the invariant. -/
def Obligations.EveryStepKeepsInvariant : Prop :=
  ∀ s t : State, s.Inv → step s = .next t → t.Inv

/-- R51, R240: a hard reset gives every piece of engine state its reset value and clears `TT_READY`;
the content of `TT` is free. The fields `pending`, `response` and `resets` are the model's (log entries
1, 5, 15). -/
def Obligations.HardResetGivesResetValues : Prop :=
  ∀ (s : State) (rest : List HostEvent), s.pending = .hardReset :: rest →
    ∃ tt : Tables, step s = .next
      { key := 0#128, iv := 0#128, blkin := 0#128, blkout := 0#128, gfx := 0#128, gfy := 0#128,
        gfz := 0#128, h := 0#128, y := 0#128, j0 := 0#128, ctr := 0#128,
        cmd := 0#32, err := 0#32, errseen := 0#32, keylen := 0#32, ivlen := 0#32,
        aadlen := 0#32, inlen := 0#32, outlen := 0#32,
        cfgAadMax := s.cfgAadMax, cfgMsgMax := s.cfgMsgMax,
        done := false, errf := false, ttReady := false, rkValid := false, authOk := false,
        phase := .init, rk := Vector.replicate 32 0#32, tt := tt,
        aadbuf := [], inbuf := [], outbuf := [],
        pending := rest, response := .nothing, resets := s.resets + 1 }

/-- R39: a bit of `ERRSEEN` stays set under every step but a soft reset and a hard reset. -/
def Obligations.ErrseenIsSticky : Prop :=
  ∀ (s t : State) (i : Nat), step s = .next t → s.errseen.getLsbD i = true →
    (∀ rest, s.pending ≠ .hardReset :: rest) →
    (∀ rest, s.pending ≠ .write .reg 0x004 [0x00#8, 0x00#8, 0x00#8, 0x01#8] :: rest) →
    t.errseen.getLsbD i = true

/-- R47, R32: while `TT_READY = 1` no step but a hard reset clears it or writes `TT`. -/
def Obligations.TablesAreWrittenOnce : Prop :=
  ∀ s t : State, step s = .next t → s.ttReady = true → (∀ rest, s.pending ≠ .hardReset :: rest) →
    t.ttReady = true ∧ t.tt = s.tt

/-- R26, R62, R131: what the commands write. But for `SOFT_RESET` no command changes an operand of the
host, and each of the other registers changes only under the commands that R26 and R62 list. `TT` and
`TT_READY` change only under `TT_INIT` and under a command with `V = 1` that reaches its first action:
it then succeeds, or is an `AEAD_DEC` that rejects its tag. -/
def Obligations.CommandsWriteOnlyTheirRegisters : Prop :=
  ∀ (i : Instr) (s t : State), exec i s = .next t → i ≠ .softReset →
    (t.key = s.key ∧ t.iv = s.iv ∧ t.blkin = s.blkin ∧ t.gfx = s.gfx ∧ t.gfy = s.gfy ∧
      t.keylen = s.keylen ∧ t.ivlen = s.ivlen ∧ t.aadlen = s.aadlen ∧ t.inlen = s.inlen ∧
      t.aadbuf = s.aadbuf ∧ t.inbuf = s.inbuf ∧
      t.cfgAadMax = s.cfgAadMax ∧ t.cfgMsgMax = s.cfgMsgMax ∧
      t.pending = s.pending ∧ t.response = s.response ∧ t.resets = s.resets) ∧
    (i = .ttInit → TablesAfter .tableAccelerated s t.tt t.ttReady) ∧
    ((∀ f ∈ [Instr.blkEnc, Instr.blkDec, Instr.hDerive, Instr.ctrXcrypt, Instr.aeadEnc, Instr.aeadDec],
        i ≠ f .tableAccelerated) →
      i ≠ .ttInit → t.tt = s.tt ∧ t.ttReady = s.ttReady) ∧
    ((∃ f ∈ [Instr.blkEnc, Instr.blkDec, Instr.hDerive, Instr.ctrXcrypt, Instr.aeadEnc, Instr.aeadDec],
        i = f .tableAccelerated) →
      (t.err = 0#32 ∨ t.err = 5#32 → TablesAfter .tableAccelerated s t.tt t.ttReady) ∧
      (t.err ≠ 0#32 → t.err ≠ 5#32 → t.tt = s.tt ∧ t.ttReady = s.ttReady)) ∧
    ((∀ v, i ≠ .blkEnc v ∧ i ≠ .blkDec v) → t.blkout = s.blkout) ∧
    (i ≠ .gfMul → t.gfz = s.gfz) ∧
    ((∀ v, i ≠ .aeadEnc v ∧ i ≠ .aeadDec v) →
      (i ≠ .keyExpand → t.rk = s.rk ∧ t.rkValid = s.rkValid) ∧
      ((∀ v, i ≠ .hDerive v) → t.h = s.h) ∧
      (i ≠ .ghInit → i ≠ .ghUpd → i ≠ .ghMsg → t.y = s.y) ∧
      (i ≠ .j0Derive → t.j0 = s.j0) ∧
      (i ≠ .ctrInc → (∀ v, i ≠ .ctrXcrypt v) → t.ctr = s.ctr) ∧
      ((∀ v, i ≠ .ctrXcrypt v) → t.outlen = s.outlen ∧ ∀ p, t.outbuf.read p = s.outbuf.read p))

/-! ## The host port -/

/-- R33, R34: the bits of `STATUS`, with the numbers of the states that `PHASE` takes. -/
def Obligations.StatusShowsFlagsAndPhase : Prop :=
  (Phase.init.code = 0#3 ∧ Phase.keyExpanded.code = 1#3 ∧ Phase.hashSubkeyDerived.code = 2#3 ∧
    Phase.keystreamGenerated.code = 3#3 ∧ Phase.tagVerified.code = 4#3 ∧
    Phase.authenticationFailed.code = 5#3 ∧ Phase.finished.code = 6#3 ∧ Phase.aborted.code = 7#3) ∧
  ∀ s : State,
    (statusWord s).getLsbD 0 = s.done ∧ (statusWord s).getLsbD 1 = s.errf ∧
    (statusWord s).getLsbD 2 = s.ttReady ∧ (statusWord s).getLsbD 3 = s.rkValid ∧
    (statusWord s).getLsbD 4 = s.authOk ∧
    (statusWord s).extractLsb' 5 3 = 0#3 ∧
    (statusWord s).extractLsb' 8 3 = s.phase.code ∧
    (statusWord s).extractLsb' 11 21 = 0#21

/-- R70: exactly the accesses that R70 lists are refused, and a refused access changes no engine
state. The answer `busError`, the fields `pending` and `response` and the step that consumes the
access are the model's (log entries 1 and 3). -/
def Obligations.BadAccessesAreRefused : Prop :=
  ∀ (s : State) (rest : List HostEvent) (sp : Space) (addr n : Nat) (data : List Byte) (write : Bool),
    data.length = n →
    s.pending = (if write then .write sp addr data else .read sp addr n) :: rest →
    let size := match sp with
      | .reg => 256
      | .aadbuf => s.cfgAadMax.toNat
      | .inbuf => s.cfgMsgMax.toNat + 16
      | .outbuf => s.cfgMsgMax.toNat + 16
    let bad := (n ≠ 1 ∧ n ≠ 2 ∧ n ≠ 4) ∨ addr % n ≠ 0 ∨ size < addr + n ∨
      (sp = .reg ∧ ∃ a, addr ≤ a ∧ a < addr + n ∧
        ((0x030 ≤ a ∧ a ≤ 0x03F) ∨ (0x0F0 ≤ a ∧ a ≤ 0x0FF))) ∨
      (sp = .reg ∧ write = true ∧ n ≠ 4 ∧ ∃ a, addr ≤ a ∧ a < addr + n ∧ 0x004 ≤ a ∧ a ≤ 0x007)
    (bad → step s = .next { s with pending := rest, response := .busError }) ∧
    (¬ bad → ∃ t, step s = .next t ∧ t.response ≠ .busError)

/-- R22, R23, R35, R36, R61, R65, R66: every accepted read of `n` bytes answers the `n` bytes that are
stored, lowest offset first: those of a buffer, those of a control register, most significant first,
and those of a data register, where `KEY` reads 0x00. No read changes the engine (R69). The first two
clauses name the 4-byte reads of the control registers and the 1-byte reads of the data registers
outright. That the event leaves `pending` and the answer stands in `response` is the model's port (log
entry 1). -/
def Obligations.HostReadsReturnRegisters : Prop :=
  let words : State → List (Nat × Word) := fun s =>
    [(0x000, 0x534D3447#32), (0x004, s.cmd), (0x008, statusWord s), (0x00C, s.err), (0x010, s.errseen),
      (0x014, s.keylen), (0x018, s.ivlen), (0x01C, s.aadlen), (0x020, s.inlen), (0x024, s.outlen),
      (0x028, s.cfgAadMax), (0x02C, s.cfgMsgMax)]
  let blocks : State → List (Nat × Block) := fun s =>
    [(0x040, 0#128), (0x050, s.iv), (0x060, s.blkin), (0x070, s.blkout), (0x080, s.gfx), (0x090, s.gfy),
      (0x0A0, s.gfz), (0x0B0, s.h), (0x0C0, s.y), (0x0D0, s.j0), (0x0E0, s.ctr)]
  (∀ (s : State) (rest : List HostEvent) (a : Nat) (w : Word),
    (a, w) ∈ words s → s.pending = .read .reg a 4 :: rest →
    step s = .next { s with pending := rest, response := .data (bytes32 w) }) ∧
  (∀ (s : State) (rest : List HostEvent) (a i : Nat) (B : Block),
    (a, B) ∈ blocks s → i < 16 → s.pending = .read .reg (a + i) 1 :: rest →
    step s = .next { s with pending := rest, response := .data [blockByte B i] }) ∧
  (∀ (s : State) (rest : List HostEvent) (sp : Space) (addr n : Nat),
    s.pending = .read sp addr n :: rest → busError s sp addr n false = false →
    ∃ bytes : List Byte,
      step s = .next { s with pending := rest, response := .data bytes } ∧
      bytes.length = n ∧
      ∀ i < n,
        (sp = .aadbuf → bytes.getD i 0#8 = s.aadbuf.read (addr + i)) ∧
        (sp = .inbuf → bytes.getD i 0#8 = s.inbuf.read (addr + i)) ∧
        (sp = .outbuf → bytes.getD i 0#8 = s.outbuf.read (addr + i)) ∧
        (sp = .reg →
          (∃ a w j, (a, w) ∈ words s ∧ j < 4 ∧ addr + i = a + j ∧ bytes.getD i 0#8 = wordByte w j) ∨
          (∃ a B j, (a, B) ∈ blocks s ∧ j < 16 ∧ addr + i = a + j ∧ bytes.getD i 0#8 = blockByte B j)))

/-- R62, R65, R66, R69: an accepted write stores its bytes at the read-write places it touches, and
every other byte that the host can read is as before; but for a write that touches `KEY` or `KEYLEN`,
that holds of `STATUS` too, and `KEY` and `RK_VALID` are as before. `RK`, `TT` and the other flags are
as before after every write. So a write to a read-only register or to `OUTBUF` changes nothing. That
the event leaves `pending` and is answered `accepted` is the model's port (log entry 1). -/
def Obligations.HostWriteStoresItsBytes : Prop :=
  ∀ (s : State) (rest : List HostEvent) (sp : Space) (addr : Nat) (data : List Byte),
    s.pending = .write sp addr data :: rest →
    busError s sp addr data.length true = false → ¬ (sp = .reg ∧ addr = 0x004) →
    s.aadbuf.wf = true → s.inbuf.wf = true →
    let touchesKey := sp = .reg ∧
      ((addr < 0x050 ∧ 0x040 < addr + data.length) ∨ (addr < 0x018 ∧ 0x014 < addr + data.length))
    ∃ t, step s = .next t ∧ t.response = .accepted ∧ t.pending = rest ∧
      (t.done = s.done ∧ t.errf = s.errf ∧ t.ttReady = s.ttReady ∧ t.authOk = s.authOk ∧
        t.phase = s.phase ∧ t.rk = s.rk ∧ t.tt = s.tt) ∧
      (¬ touchesKey → t.key = s.key ∧ t.rkValid = s.rkValid) ∧
      ∀ (sp' : Space) (a : Nat), ¬ (touchesKey ∧ sp' = .reg ∧ 0x008 ≤ a ∧ a < 0x00C) →
        readByte t sp' a =
          if sp' = sp ∧ addr ≤ a ∧ a < addr + data.length ∧ ReadWrite sp a
          then data.getD (a - addr) 0#8 else readByte s sp' a

/-- R23, R40, R69: an accepted write that touches `KEY` or `KEYLEN` clears `RK_VALID` and stores its
bytes there, and changes nothing else of the engine. That the event leaves `pending` and is answered
`accepted` is the model's port (log entry 1). -/
def Obligations.KeyWritesInvalidateRoundKeys : Prop :=
  (∀ (s : State) (rest : List HostEvent) (addr : Nat) (data : List Byte),
    s.pending = .write .reg addr data :: rest → 0x040 ≤ addr → addr < 0x050 →
    busError s .reg addr data.length true = false →
    ∃ K : Block,
      step s = .next { s with key := K, rkValid := false, pending := rest, response := .accepted } ∧
      ∀ i < 16, blockByte K i =
        if addr ≤ 0x040 + i ∧ 0x040 + i < addr + data.length then data.getD (0x040 + i - addr) 0#8
        else blockByte s.key i) ∧
  (∀ (s : State) (rest : List HostEvent) (addr : Nat) (data : List Byte),
    s.pending = .write .reg addr data :: rest → 0x014 ≤ addr → addr < 0x018 →
    busError s .reg addr data.length true = false →
    ∃ L : Word,
      step s = .next { s with keylen := L, rkValid := false, pending := rest, response := .accepted } ∧
      ∀ i < 4, wordByte L i =
        if addr ≤ 0x014 + i ∧ 0x014 + i < addr + data.length then data.getD (0x014 + i - addr) 0#8
        else wordByte s.keylen i)

/-- R23, R46, R47, R234: two states that differ only in `KEY`, `RK` and `TT` answer every host read
alike, so no read reveals them. The answer stands in `response`, and a refused read is answered
`busError`: both are the model's port (log entries 1 and 3). -/
def Obligations.ReadsRevealNoKeyMaterial : Prop :=
  ∀ (s u : State) (rest : List HostEvent) (sp : Space) (addr n : Nat),
    u = { s with key := u.key, rk := u.rk, tt := u.tt } →
    s.pending = .read sp addr n :: rest →
    ∃ s' u' : State, step s = .next s' ∧ step u = .next u' ∧ s'.response = u'.response ∧
      (∃ bytes, s'.response = .data bytes ∨ s'.response = .busError)

/-- R98, as a run of the model's port (log entry 1): the accesses that `PUT` expands to store the byte
sequence at consecutive offsets of `INBUF` from a 4-byte aligned place, and leave every other byte of
it as it was. -/
def Obligations.PutStoresTheSequence : Prop :=
  ∀ (s : State) (offset : Nat) (data : List Byte),
    s.inbuf.wf = true → offset % 4 = 0 →
    offset + data.length ≤ s.cfgMsgMax.toNat + 16 →
    s.pending = put ⟨.inbuf, offset⟩ data →
    ∃ t, Host.Core.run Sys2Proof.core (put ⟨.inbuf, offset⟩ data).length s = .next t ∧
      t.pending = [] ∧
      ∀ p, t.inbuf.read p =
        if offset ≤ p ∧ p < offset + data.length then data.getD (p - offset) 0#8 else s.inbuf.read p

/-- No step of the machine stops: every step answers a next state, since the engine's errors are
outcomes (R220), a refused access is answered on the port (the model's choice, log entry 3), and with
nothing pending the model's step answers the same state (the model's choice, log entry 2). -/
def Obligations.EveryStepIsSafe : Prop := ∀ s : State, SafeStep s

/-- R97 to R99, as runs of the model's port (log entry 1): PC's `encrypt` and `decrypt` present their
operands, run `AEAD_ENC` or `AEAD_DEC` on them, and give back `ERR` and the `OUTLEN` bytes of
`OUTBUF`. A key or IV of any length below `2^32` is presented: its length whole, its bytes up to the
sixteenth. The reads of the result change nothing of the engine. -/
def Obligations.CallerOperationsRunTheirCommand : Prop :=
  ∀ (v : Variant) (i : Instr)
    (op : List Byte → List Byte → List Byte → List Byte → State → Performed CallResult)
    (key iv input aad : List Byte) (s : State),
    (i = .aeadEnc v ∧ op = encrypt v) ∨ (i = .aeadDec v ∧ op = decrypt v) →
    CapacityLegal s.cfgAadMax s.cfgMsgMax → s.aadbuf.wf = true → s.inbuf.wf = true →
    key.length < 2 ^ 32 → iv.length < 2 ^ 32 →
    aad.length ≤ s.cfgAadMax.toNat → input.length ≤ s.cfgMsgMax.toNat + 16 →
    ∃ (K I : Block) (A M : Memory) (u : State) (r : Response),
      (∀ j < 16, blockByte K j = if j < key.length then key.getD j 0#8 else blockByte s.key j) ∧
      (∀ j < 16, blockByte I j = if j < iv.length then iv.getD j 0#8 else blockByte s.iv j) ∧
      A.wf = true ∧
      (∀ p, A.read p = if p < aad.length then aad.getD p 0#8 else s.aadbuf.read p) ∧
      M.wf = true ∧
      (∀ p, M.read p = if p < input.length then input.getD p 0#8 else s.inbuf.read p) ∧
      exec i
        { s with
            key := K
            keylen := BitVec.ofNat 32 key.length
            rkValid := false
            iv := I
            ivlen := BitVec.ofNat 32 iv.length
            aadbuf := A
            aadlen := BitVec.ofNat 32 aad.length
            inbuf := M
            inlen := BitVec.ofNat 32 input.length
            response := .accepted } = .next u ∧
      op key iv input aad s =
        .next (⟨u.err, u.outbuf.readBytes 0 u.outlen.toNat⟩, { u with response := r })

/-- R99, R198, as runs of the model's port (log entry 1): what `encrypt` gives back for a plaintext is
16 bytes longer, and `decrypt` gives the plaintext back from it, in any two variants and on any two
engines whose capacities hold the operands, whatever they did before. -/
def Obligations.CallerRoundTrip : Prop :=
  ∀ (v v' : Variant) (key iv plaintext aad : List Byte) (s u : State),
    key.length = 16 → iv.length = 12 ∨ iv.length = 16 →
    (∀ x ∈ [s, u], CapacityLegal x.cfgAadMax x.cfgMsgMax ∧ x.TablesComplete ∧
      x.aadbuf.wf = true ∧ x.inbuf.wf = true ∧
      aad.length ≤ x.cfgAadMax.toNat ∧ plaintext.length ≤ x.cfgMsgMax.toNat) →
    ∃ (sealed : List Byte) (s' u' : State),
      encrypt v key iv plaintext aad s = .next (⟨0#32, sealed⟩, s') ∧
      sealed.length = plaintext.length + 16 ∧
      decrypt v' key iv sealed aad u = .next (⟨0#32, plaintext⟩, u')
end

