-- ==== Sys2Proof/Laws/Bytes.lean ====
section
/-! SUPPORT. The laws of byte order: reading a byte of a word or block, replacing one, and blocks as
byte sequences (R15, R66, R67). -/

namespace Sys2Proof.Laws

open Sys2Proof.Machine

/-- The bits of a byte of a block. -/
theorem getLsbD_blockByte (B : Block) (i k : Nat) :
    (blockByte B i).getLsbD k = (decide (k < 8) && B.getLsbD (8 * (15 - i) + k)) := by
  simp [blockByte, BitVec.getLsbD_extractLsb']

/-- The bits of a byte of a word. -/
theorem getLsbD_wordByte (w : Word) (j k : Nat) :
    (wordByte w j).getLsbD k = (decide (k < 8) && w.getLsbD (8 * (3 - j) + k)) := by
  simp [wordByte, BitVec.getLsbD_extractLsb']

/-- Two blocks with equal bytes are equal. -/
theorem block_ext {A B : Block} (h : ∀ i < 16, blockByte A i = blockByte B i) : A = B := by
  apply BitVec.eq_of_getLsbD_eq
  intro k hk
  have := congrArg (·.getLsbD (k % 8)) (h (15 - k / 8) (by omega))
  simp only [getLsbD_blockByte] at this
  rw [show 8 * (15 - (15 - k / 8)) + k % 8 = k by omega] at this
  simpa [Nat.mod_lt] using this

/-- Two words with equal bytes are equal. -/
theorem word_ext {v w : Word} (h : ∀ j < 4, wordByte v j = wordByte w j) : v = w := by
  apply BitVec.eq_of_getLsbD_eq
  intro k hk
  have := congrArg (·.getLsbD (k % 8)) (h (3 - k / 8) (by omega))
  simp only [getLsbD_wordByte] at this
  rw [show 8 * (3 - (3 - k / 8)) + k % 8 = k by omega] at this
  simpa [Nat.mod_lt] using this

/-- The bits of a byte mask at a byte position. -/
theorem getLsbD_byteMask {n : Nat} (p k : Nat) :
    ((0xFF#n) <<< (8 * p)).getLsbD k = (decide (k < n) && decide (k / 8 = p)) := by
  rw [BitVec.getLsbD_shiftLeft, BitVec.getLsbD_ofNat]
  have h255 : ∀ i : Nat, Nat.testBit 255 i = decide (i < 8) := by
    intro i
    rw [show (255 : Nat) = 2 ^ 8 - 1 by norm_num, Nat.testBit_two_pow_sub_one]
  rw [h255]
  by_cases h1 : k < n <;> by_cases h2 : k < 8 * p <;> by_cases h3 : k / 8 = p <;> simp [h1, h2, h3] <;> omega

/-- The bits of a block after a byte of it was replaced. -/
theorem getLsbD_setBlockByte (B : Block) (i : Nat) (b : Byte) (k : Nat) (hk : k < 128) :
    (setBlockByte B i b).getLsbD k =
      if k / 8 = 15 - i then b.getLsbD (k % 8) else B.getLsbD k := by
  rw [setBlockByte, BitVec.getLsbD_or, BitVec.getLsbD_and, BitVec.getLsbD_not, getLsbD_byteMask,
    BitVec.getLsbD_shiftLeft, BitVec.getLsbD_setWidth]
  by_cases h : k / 8 = 15 - i
  · rw [show k - 8 * (15 - i) = k % 8 by omega]
    simp [h, hk, show ¬ k < 8 * (15 - i) by omega, show k % 8 < 128 by omega]
  · rcases Nat.lt_or_gt_of_ne h with h' | h'
    · simp [h, hk, show k < 8 * (15 - i) by omega]
    · have hb : b.getLsbD (k - 8 * (15 - i)) = false := BitVec.getLsbD_of_ge _ _ (by omega)
      simp [h, hk, hb]

/-- The bits of a word after a byte of it was replaced. -/
theorem getLsbD_setWordByte (w : Word) (j : Nat) (b : Byte) (k : Nat) (hk : k < 32) :
    (setWordByte w j b).getLsbD k =
      if k / 8 = 3 - j then b.getLsbD (k % 8) else w.getLsbD k := by
  rw [setWordByte, BitVec.getLsbD_or, BitVec.getLsbD_and, BitVec.getLsbD_not, getLsbD_byteMask,
    BitVec.getLsbD_shiftLeft, BitVec.getLsbD_setWidth]
  by_cases h : k / 8 = 3 - j
  · rw [show k - 8 * (3 - j) = k % 8 by omega]
    simp [h, hk, show ¬ k < 8 * (3 - j) by omega, show k % 8 < 32 by omega]
  · rcases Nat.lt_or_gt_of_ne h with h' | h'
    · simp [h, hk, show k < 8 * (3 - j) by omega]
    · have hb : b.getLsbD (k - 8 * (3 - j)) = false := BitVec.getLsbD_of_ge _ _ (by omega)
      simp [h, hk, hb]

/-- Reading a byte of a block after one was replaced. -/
theorem blockByte_setBlockByte (B : Block) (i j : Nat) (b : Byte) (hi : i < 16) (hj : j < 16) :
    blockByte (setBlockByte B i b) j = if j = i then b else blockByte B j := by
  apply BitVec.eq_of_getLsbD_eq
  intro k hk
  rw [getLsbD_blockByte, getLsbD_setBlockByte _ _ _ _ (by omega),
    show (8 * (15 - j) + k) / 8 = 15 - j by omega, show (8 * (15 - j) + k) % 8 = k by omega]
  by_cases h : j = i
  · simp [h, hk]
  · rw [if_neg (by omega), if_neg h, getLsbD_blockByte]

/-- Reading a byte of a word after one was replaced. -/
theorem wordByte_setWordByte (w : Word) (i j : Nat) (b : Byte) (hi : i < 4) (hj : j < 4) :
    wordByte (setWordByte w i b) j = if j = i then b else wordByte w j := by
  apply BitVec.eq_of_getLsbD_eq
  intro k hk
  rw [getLsbD_wordByte, getLsbD_setWordByte _ _ _ _ (by omega),
    show (8 * (3 - j) + k) / 8 = 3 - j by omega, show (8 * (3 - j) + k) % 8 = k by omega]
  by_cases h : j = i
  · simp [h, hk]
  · rw [if_neg (by omega), if_neg h, getLsbD_wordByte]

@[simp] theorem length_blockBytes (B : Block) : (blockBytes B).length = 16 := by simp [blockBytes]

/-- The byte sequence of a block, byte by byte. -/
theorem getD_blockBytes (B : Block) (i : Nat) (h : i < 16) :
    (blockBytes B).getD i 0#8 = blockByte B i := by
  simp [blockBytes, List.getD_eq_getElem?_getD, h]

/-- The block of a byte sequence, byte by byte: zeros beyond its end (R73). -/
theorem blockByte_blockOfBytes (bs : List Byte) (j : Nat) (hj : j < 16) :
    blockByte (blockOfBytes bs) j = bs.getD j 0#8 := by
  have key : ∀ n ≤ 16, blockByte ((List.range n).foldl
      (fun B i => setBlockByte B i (bs.getD i 0#8)) 0#128) j =
        if j < n then bs.getD j 0#8 else 0#8 := by
    intro n
    induction n with
    | zero => intro _; simp [blockByte]
    | succ n ih =>
      intro hn
      rw [List.range_succ, List.foldl_append, List.foldl_cons, List.foldl_nil,
        blockByte_setBlockByte _ _ _ _ (by omega) hj, ih (by omega)]
      by_cases h : j = n
      · subst h; simp
      · rw [if_neg h]
        by_cases h' : j < n
        · rw [if_pos h', if_pos (by omega)]
        · rw [if_neg h', if_neg (by omega)]
  rw [blockOfBytes, key 16 le_rfl, if_pos hj]

/-- A block is the block of its bytes. -/
@[simp] theorem blockOfBytes_blockBytes (B : Block) : blockOfBytes (blockBytes B) = B :=
  block_ext fun i hi => by rw [blockByte_blockOfBytes _ _ hi, getD_blockBytes _ _ hi]

/-- The bytes of an exclusive or. -/
theorem blockByte_xor (A B : Block) (i : Nat) :
    blockByte (A ^^^ B) i = blockByte A i ^^^ blockByte B i := by
  apply BitVec.eq_of_getLsbD_eq
  intro k hk
  rw [BitVec.getLsbD_xor, getLsbD_blockByte, getLsbD_blockByte, getLsbD_blockByte,
    BitVec.getLsbD_xor]
  simp [hk]

/-- A word is its four bytes. -/
@[simp] theorem wordOfBytes_bytes32 (w : Word) : wordOfBytes (bytes32 w) = w := by
  apply BitVec.eq_of_getLsbD_eq
  intro k hk
  simp only [wordOfBytes, bytes32, be32, List.getD_cons_zero, List.getD_cons_succ,
    BitVec.getLsbD_append, getLsbD_wordByte]
  rcases (by omega : k < 8 ∨ (8 ≤ k ∧ k < 16) ∨ (16 ≤ k ∧ k < 24) ∨ 24 ≤ k) with h | h | h | h
  · simp [h]
  · simp [show ¬ k < 8 by omega, show k - 8 < 8 by omega, show 8 + (k - 8) = k by omega]
  · simp [show ¬ k < 8 by omega, show ¬ k - 8 < 8 by omega, show k - 8 - 8 < 8 by omega,
      show 16 + (k - 8 - 8) = k by omega]
  · simp [show ¬ k < 8 by omega, show ¬ k - 8 < 8 by omega, show ¬ k - 8 - 8 < 8 by omega,
      show k - 8 - 8 - 8 < 8 by omega, show 24 + (k - 8 - 8 - 8) = k by omega]

/-- The words of a block of words. -/
theorem word_blockOfWords (a b c d : Word) :
    word (blockOfWords a b c d) 0 = a ∧ word (blockOfWords a b c d) 1 = b ∧
    word (blockOfWords a b c d) 2 = c ∧ word (blockOfWords a b c d) 3 = d := by
  refine ⟨?_, ?_, ?_, ?_⟩ <;>
  · apply BitVec.eq_of_getLsbD_eq
    intro k hk
    simp only [word, blockOfWords, BitVec.getLsbD_extractLsb', BitVec.getLsbD_append]
    simp [hk, show ¬ 96 + k < 32 by omega, show ¬ 64 + k < 32 by omega,
      show ¬ 32 + k < 32 by omega, show 96 + k - 32 = 64 + k by omega,
      show 64 + k - 32 = 32 + k by omega, show 32 + k - 32 = k by omega]

/-- A block is the block of its words. -/
theorem blockOfWords_word (B : Block) :
    blockOfWords (word B 0) (word B 1) (word B 2) (word B 3) = B := by
  apply BitVec.eq_of_getLsbD_eq
  intro k hk
  simp only [word, blockOfWords, BitVec.getLsbD_extractLsb', BitVec.getLsbD_append]
  rcases (by omega : k < 32 ∨ (32 ≤ k ∧ k < 64) ∨ (64 ≤ k ∧ k < 96) ∨ 96 ≤ k) with h | h | h | h
  · simp [h]
  · simp [show ¬ k < 32 by omega, show k - 32 < 32 by omega, show 32 + (k - 32) = k by omega]
  · simp [show ¬ k < 32 by omega, show ¬ k - 32 < 32 by omega, show k - 32 - 32 < 32 by omega,
      show 64 + (k - 32 - 32) = k by omega]
  · simp [show ¬ k < 32 by omega, show ¬ k - 32 < 32 by omega, show ¬ k - 32 - 32 < 32 by omega,
      show k - 32 - 32 - 32 < 32 by omega, show 96 + (k - 32 - 32 - 32) = k by omega]

@[simp] theorem length_xorBytes (a b : List Byte) :
    (xorBytes a b).length = min a.length b.length := by simp [xorBytes]

/-- A byte of an exclusive or of sequences. -/
theorem getD_xorBytes (a b : List Byte) (i : Nat) (ha : i < a.length) (hb : i < b.length) :
    (xorBytes a b).getD i 0#8 = a.getD i 0#8 ^^^ b.getD i 0#8 := by
  simp [xorBytes, List.getD_eq_getElem?_getD, ha, hb]

end Sys2Proof.Laws
end

