-- ==== Sys2Proof/Laws/State.lean ====
section
/-! SUPPORT. One lemma for each field and each shared update of State, true by rfl. -/

namespace Sys2Proof.Laws

open Sys2Proof.Machine

/-! The outcome record (R110). -/

@[simp] theorem endCommand_key (w : Word) (o : Option ErrorKind) (a : Bool) (s : State) : (endCommand w o a s).key = s.key := rfl
@[simp] theorem endCommand_iv (w : Word) (o : Option ErrorKind) (a : Bool) (s : State) : (endCommand w o a s).iv = s.iv := rfl
@[simp] theorem endCommand_blkin (w : Word) (o : Option ErrorKind) (a : Bool) (s : State) : (endCommand w o a s).blkin = s.blkin := rfl
@[simp] theorem endCommand_blkout (w : Word) (o : Option ErrorKind) (a : Bool) (s : State) : (endCommand w o a s).blkout = s.blkout := rfl
@[simp] theorem endCommand_gfx (w : Word) (o : Option ErrorKind) (a : Bool) (s : State) : (endCommand w o a s).gfx = s.gfx := rfl
@[simp] theorem endCommand_gfy (w : Word) (o : Option ErrorKind) (a : Bool) (s : State) : (endCommand w o a s).gfy = s.gfy := rfl
@[simp] theorem endCommand_gfz (w : Word) (o : Option ErrorKind) (a : Bool) (s : State) : (endCommand w o a s).gfz = s.gfz := rfl
@[simp] theorem endCommand_h (w : Word) (o : Option ErrorKind) (a : Bool) (s : State) : (endCommand w o a s).h = s.h := rfl
@[simp] theorem endCommand_y (w : Word) (o : Option ErrorKind) (a : Bool) (s : State) : (endCommand w o a s).y = s.y := rfl
@[simp] theorem endCommand_j0 (w : Word) (o : Option ErrorKind) (a : Bool) (s : State) : (endCommand w o a s).j0 = s.j0 := rfl
@[simp] theorem endCommand_ctr (w : Word) (o : Option ErrorKind) (a : Bool) (s : State) : (endCommand w o a s).ctr = s.ctr := rfl
@[simp] theorem endCommand_cmd (w : Word) (o : Option ErrorKind) (a : Bool) (s : State) : (endCommand w o a s).cmd = w := rfl
@[simp] theorem endCommand_err (w : Word) (o : Option ErrorKind) (a : Bool) (s : State) : (endCommand w o a s).err = errWord o := rfl
@[simp] theorem endCommand_errseen (w : Word) (o : Option ErrorKind) (a : Bool) (s : State) : (endCommand w o a s).errseen = errSeenAfter s.errseen o := rfl
@[simp] theorem endCommand_keylen (w : Word) (o : Option ErrorKind) (a : Bool) (s : State) : (endCommand w o a s).keylen = s.keylen := rfl
@[simp] theorem endCommand_ivlen (w : Word) (o : Option ErrorKind) (a : Bool) (s : State) : (endCommand w o a s).ivlen = s.ivlen := rfl
@[simp] theorem endCommand_aadlen (w : Word) (o : Option ErrorKind) (a : Bool) (s : State) : (endCommand w o a s).aadlen = s.aadlen := rfl
@[simp] theorem endCommand_inlen (w : Word) (o : Option ErrorKind) (a : Bool) (s : State) : (endCommand w o a s).inlen = s.inlen := rfl
@[simp] theorem endCommand_outlen (w : Word) (o : Option ErrorKind) (a : Bool) (s : State) : (endCommand w o a s).outlen = s.outlen := rfl
@[simp] theorem endCommand_cfgAadMax (w : Word) (o : Option ErrorKind) (a : Bool) (s : State) : (endCommand w o a s).cfgAadMax = s.cfgAadMax := rfl
@[simp] theorem endCommand_cfgMsgMax (w : Word) (o : Option ErrorKind) (a : Bool) (s : State) : (endCommand w o a s).cfgMsgMax = s.cfgMsgMax := rfl
@[simp] theorem endCommand_done (w : Word) (o : Option ErrorKind) (a : Bool) (s : State) : (endCommand w o a s).done = true := rfl
@[simp] theorem endCommand_errf (w : Word) (o : Option ErrorKind) (a : Bool) (s : State) : (endCommand w o a s).errf = errFlag o := rfl
@[simp] theorem endCommand_ttReady (w : Word) (o : Option ErrorKind) (a : Bool) (s : State) : (endCommand w o a s).ttReady = s.ttReady := rfl
@[simp] theorem endCommand_rkValid (w : Word) (o : Option ErrorKind) (a : Bool) (s : State) : (endCommand w o a s).rkValid = s.rkValid := rfl
@[simp] theorem endCommand_authOk (w : Word) (o : Option ErrorKind) (a : Bool) (s : State) : (endCommand w o a s).authOk = a := rfl
@[simp] theorem endCommand_phase (w : Word) (o : Option ErrorKind) (a : Bool) (s : State) : (endCommand w o a s).phase = endPhase o := rfl
@[simp] theorem endCommand_rk (w : Word) (o : Option ErrorKind) (a : Bool) (s : State) : (endCommand w o a s).rk = s.rk := rfl
@[simp] theorem endCommand_tt (w : Word) (o : Option ErrorKind) (a : Bool) (s : State) : (endCommand w o a s).tt = s.tt := rfl
@[simp] theorem endCommand_aadbuf (w : Word) (o : Option ErrorKind) (a : Bool) (s : State) : (endCommand w o a s).aadbuf = s.aadbuf := rfl
@[simp] theorem endCommand_inbuf (w : Word) (o : Option ErrorKind) (a : Bool) (s : State) : (endCommand w o a s).inbuf = s.inbuf := rfl
@[simp] theorem endCommand_outbuf (w : Word) (o : Option ErrorKind) (a : Bool) (s : State) : (endCommand w o a s).outbuf = s.outbuf := rfl
@[simp] theorem endCommand_pending (w : Word) (o : Option ErrorKind) (a : Bool) (s : State) : (endCommand w o a s).pending = s.pending := rfl
@[simp] theorem endCommand_response (w : Word) (o : Option ErrorKind) (a : Bool) (s : State) : (endCommand w o a s).response = s.response := rfl
@[simp] theorem endCommand_resets (w : Word) (o : Option ErrorKind) (a : Bool) (s : State) : (endCommand w o a s).resets = s.resets := rfl

/-! `clear_out()` (R180). -/

@[simp] theorem clearOut_key (s : State) : (clearOut s).key = s.key := rfl
@[simp] theorem clearOut_iv (s : State) : (clearOut s).iv = s.iv := rfl
@[simp] theorem clearOut_blkin (s : State) : (clearOut s).blkin = s.blkin := rfl
@[simp] theorem clearOut_blkout (s : State) : (clearOut s).blkout = s.blkout := rfl
@[simp] theorem clearOut_gfx (s : State) : (clearOut s).gfx = s.gfx := rfl
@[simp] theorem clearOut_gfy (s : State) : (clearOut s).gfy = s.gfy := rfl
@[simp] theorem clearOut_gfz (s : State) : (clearOut s).gfz = s.gfz := rfl
@[simp] theorem clearOut_h (s : State) : (clearOut s).h = s.h := rfl
@[simp] theorem clearOut_y (s : State) : (clearOut s).y = s.y := rfl
@[simp] theorem clearOut_j0 (s : State) : (clearOut s).j0 = s.j0 := rfl
@[simp] theorem clearOut_ctr (s : State) : (clearOut s).ctr = s.ctr := rfl
@[simp] theorem clearOut_cmd (s : State) : (clearOut s).cmd = s.cmd := rfl
@[simp] theorem clearOut_err (s : State) : (clearOut s).err = s.err := rfl
@[simp] theorem clearOut_errseen (s : State) : (clearOut s).errseen = s.errseen := rfl
@[simp] theorem clearOut_keylen (s : State) : (clearOut s).keylen = s.keylen := rfl
@[simp] theorem clearOut_ivlen (s : State) : (clearOut s).ivlen = s.ivlen := rfl
@[simp] theorem clearOut_aadlen (s : State) : (clearOut s).aadlen = s.aadlen := rfl
@[simp] theorem clearOut_inlen (s : State) : (clearOut s).inlen = s.inlen := rfl
@[simp] theorem clearOut_outlen (s : State) : (clearOut s).outlen = 0#32 := rfl
@[simp] theorem clearOut_cfgAadMax (s : State) : (clearOut s).cfgAadMax = s.cfgAadMax := rfl
@[simp] theorem clearOut_cfgMsgMax (s : State) : (clearOut s).cfgMsgMax = s.cfgMsgMax := rfl
@[simp] theorem clearOut_done (s : State) : (clearOut s).done = s.done := rfl
@[simp] theorem clearOut_errf (s : State) : (clearOut s).errf = s.errf := rfl
@[simp] theorem clearOut_ttReady (s : State) : (clearOut s).ttReady = s.ttReady := rfl
@[simp] theorem clearOut_rkValid (s : State) : (clearOut s).rkValid = s.rkValid := rfl
@[simp] theorem clearOut_authOk (s : State) : (clearOut s).authOk = s.authOk := rfl
@[simp] theorem clearOut_phase (s : State) : (clearOut s).phase = s.phase := rfl
@[simp] theorem clearOut_rk (s : State) : (clearOut s).rk = s.rk := rfl
@[simp] theorem clearOut_tt (s : State) : (clearOut s).tt = s.tt := rfl
@[simp] theorem clearOut_aadbuf (s : State) : (clearOut s).aadbuf = s.aadbuf := rfl
@[simp] theorem clearOut_inbuf (s : State) : (clearOut s).inbuf = s.inbuf := rfl
@[simp] theorem clearOut_outbuf (s : State) : (clearOut s).outbuf = [] := rfl
@[simp] theorem clearOut_pending (s : State) : (clearOut s).pending = s.pending := rfl
@[simp] theorem clearOut_response (s : State) : (clearOut s).response = s.response := rfl
@[simp] theorem clearOut_resets (s : State) : (clearOut s).resets = s.resets := rfl

/-! `end_call()` (R194). -/

@[simp] theorem endCall_key (s : State) : (endCall s).key = s.key := rfl
@[simp] theorem endCall_iv (s : State) : (endCall s).iv = s.iv := rfl
@[simp] theorem endCall_blkin (s : State) : (endCall s).blkin = s.blkin := rfl
@[simp] theorem endCall_blkout (s : State) : (endCall s).blkout = s.blkout := rfl
@[simp] theorem endCall_gfx (s : State) : (endCall s).gfx = s.gfx := rfl
@[simp] theorem endCall_gfy (s : State) : (endCall s).gfy = s.gfy := rfl
@[simp] theorem endCall_gfz (s : State) : (endCall s).gfz = s.gfz := rfl
@[simp] theorem endCall_h (s : State) : (endCall s).h = 0#128 := rfl
@[simp] theorem endCall_y (s : State) : (endCall s).y = 0#128 := rfl
@[simp] theorem endCall_j0 (s : State) : (endCall s).j0 = 0#128 := rfl
@[simp] theorem endCall_ctr (s : State) : (endCall s).ctr = 0#128 := rfl
@[simp] theorem endCall_cmd (s : State) : (endCall s).cmd = s.cmd := rfl
@[simp] theorem endCall_err (s : State) : (endCall s).err = s.err := rfl
@[simp] theorem endCall_errseen (s : State) : (endCall s).errseen = s.errseen := rfl
@[simp] theorem endCall_keylen (s : State) : (endCall s).keylen = s.keylen := rfl
@[simp] theorem endCall_ivlen (s : State) : (endCall s).ivlen = s.ivlen := rfl
@[simp] theorem endCall_aadlen (s : State) : (endCall s).aadlen = s.aadlen := rfl
@[simp] theorem endCall_inlen (s : State) : (endCall s).inlen = s.inlen := rfl
@[simp] theorem endCall_outlen (s : State) : (endCall s).outlen = s.outlen := rfl
@[simp] theorem endCall_cfgAadMax (s : State) : (endCall s).cfgAadMax = s.cfgAadMax := rfl
@[simp] theorem endCall_cfgMsgMax (s : State) : (endCall s).cfgMsgMax = s.cfgMsgMax := rfl
@[simp] theorem endCall_done (s : State) : (endCall s).done = s.done := rfl
@[simp] theorem endCall_errf (s : State) : (endCall s).errf = s.errf := rfl
@[simp] theorem endCall_ttReady (s : State) : (endCall s).ttReady = s.ttReady := rfl
@[simp] theorem endCall_rkValid (s : State) : (endCall s).rkValid = s.rkValid := rfl
@[simp] theorem endCall_authOk (s : State) : (endCall s).authOk = s.authOk := rfl
@[simp] theorem endCall_phase (s : State) : (endCall s).phase = s.phase := rfl
@[simp] theorem endCall_rk (s : State) : (endCall s).rk = s.rk := rfl
@[simp] theorem endCall_tt (s : State) : (endCall s).tt = s.tt := rfl
@[simp] theorem endCall_aadbuf (s : State) : (endCall s).aadbuf = s.aadbuf := rfl
@[simp] theorem endCall_inbuf (s : State) : (endCall s).inbuf = s.inbuf := rfl
@[simp] theorem endCall_outbuf (s : State) : (endCall s).outbuf = s.outbuf := rfl
@[simp] theorem endCall_pending (s : State) : (endCall s).pending = s.pending := rfl
@[simp] theorem endCall_response (s : State) : (endCall s).response = s.response := rfl
@[simp] theorem endCall_resets (s : State) : (endCall s).resets = s.resets := rfl

/-! The key expansion (R127). -/

@[simp] theorem expandKey_key (s : State) : (expandKey s).key = s.key := rfl
@[simp] theorem expandKey_iv (s : State) : (expandKey s).iv = s.iv := rfl
@[simp] theorem expandKey_blkin (s : State) : (expandKey s).blkin = s.blkin := rfl
@[simp] theorem expandKey_blkout (s : State) : (expandKey s).blkout = s.blkout := rfl
@[simp] theorem expandKey_gfx (s : State) : (expandKey s).gfx = s.gfx := rfl
@[simp] theorem expandKey_gfy (s : State) : (expandKey s).gfy = s.gfy := rfl
@[simp] theorem expandKey_gfz (s : State) : (expandKey s).gfz = s.gfz := rfl
@[simp] theorem expandKey_h (s : State) : (expandKey s).h = s.h := rfl
@[simp] theorem expandKey_y (s : State) : (expandKey s).y = s.y := rfl
@[simp] theorem expandKey_j0 (s : State) : (expandKey s).j0 = s.j0 := rfl
@[simp] theorem expandKey_ctr (s : State) : (expandKey s).ctr = s.ctr := rfl
@[simp] theorem expandKey_cmd (s : State) : (expandKey s).cmd = s.cmd := rfl
@[simp] theorem expandKey_err (s : State) : (expandKey s).err = s.err := rfl
@[simp] theorem expandKey_errseen (s : State) : (expandKey s).errseen = s.errseen := rfl
@[simp] theorem expandKey_keylen (s : State) : (expandKey s).keylen = s.keylen := rfl
@[simp] theorem expandKey_ivlen (s : State) : (expandKey s).ivlen = s.ivlen := rfl
@[simp] theorem expandKey_aadlen (s : State) : (expandKey s).aadlen = s.aadlen := rfl
@[simp] theorem expandKey_inlen (s : State) : (expandKey s).inlen = s.inlen := rfl
@[simp] theorem expandKey_outlen (s : State) : (expandKey s).outlen = s.outlen := rfl
@[simp] theorem expandKey_cfgAadMax (s : State) : (expandKey s).cfgAadMax = s.cfgAadMax := rfl
@[simp] theorem expandKey_cfgMsgMax (s : State) : (expandKey s).cfgMsgMax = s.cfgMsgMax := rfl
@[simp] theorem expandKey_done (s : State) : (expandKey s).done = s.done := rfl
@[simp] theorem expandKey_errf (s : State) : (expandKey s).errf = s.errf := rfl
@[simp] theorem expandKey_ttReady (s : State) : (expandKey s).ttReady = s.ttReady := rfl
@[simp] theorem expandKey_rkValid (s : State) : (expandKey s).rkValid = true := rfl
@[simp] theorem expandKey_authOk (s : State) : (expandKey s).authOk = s.authOk := rfl
@[simp] theorem expandKey_phase (s : State) : (expandKey s).phase = s.phase := rfl
@[simp] theorem expandKey_rk (s : State) : (expandKey s).rk = deriveRoundKeys s.key := rfl
@[simp] theorem expandKey_tt (s : State) : (expandKey s).tt = s.tt := rfl
@[simp] theorem expandKey_aadbuf (s : State) : (expandKey s).aadbuf = s.aadbuf := rfl
@[simp] theorem expandKey_inbuf (s : State) : (expandKey s).inbuf = s.inbuf := rfl
@[simp] theorem expandKey_outbuf (s : State) : (expandKey s).outbuf = s.outbuf := rfl
@[simp] theorem expandKey_pending (s : State) : (expandKey s).pending = s.pending := rfl
@[simp] theorem expandKey_response (s : State) : (expandKey s).response = s.response := rfl
@[simp] theorem expandKey_resets (s : State) : (expandKey s).resets = s.resets := rfl

/-! Hard reset (R240). -/

@[simp] theorem hardReset_key (s : State) : (hardReset s).key = 0#128 := rfl
@[simp] theorem hardReset_iv (s : State) : (hardReset s).iv = 0#128 := rfl
@[simp] theorem hardReset_blkin (s : State) : (hardReset s).blkin = 0#128 := rfl
@[simp] theorem hardReset_blkout (s : State) : (hardReset s).blkout = 0#128 := rfl
@[simp] theorem hardReset_gfx (s : State) : (hardReset s).gfx = 0#128 := rfl
@[simp] theorem hardReset_gfy (s : State) : (hardReset s).gfy = 0#128 := rfl
@[simp] theorem hardReset_gfz (s : State) : (hardReset s).gfz = 0#128 := rfl
@[simp] theorem hardReset_h (s : State) : (hardReset s).h = 0#128 := rfl
@[simp] theorem hardReset_y (s : State) : (hardReset s).y = 0#128 := rfl
@[simp] theorem hardReset_j0 (s : State) : (hardReset s).j0 = 0#128 := rfl
@[simp] theorem hardReset_ctr (s : State) : (hardReset s).ctr = 0#128 := rfl
@[simp] theorem hardReset_cmd (s : State) : (hardReset s).cmd = 0#32 := rfl
@[simp] theorem hardReset_err (s : State) : (hardReset s).err = 0#32 := rfl
@[simp] theorem hardReset_errseen (s : State) : (hardReset s).errseen = 0#32 := rfl
@[simp] theorem hardReset_keylen (s : State) : (hardReset s).keylen = 0#32 := rfl
@[simp] theorem hardReset_ivlen (s : State) : (hardReset s).ivlen = 0#32 := rfl
@[simp] theorem hardReset_aadlen (s : State) : (hardReset s).aadlen = 0#32 := rfl
@[simp] theorem hardReset_inlen (s : State) : (hardReset s).inlen = 0#32 := rfl
@[simp] theorem hardReset_outlen (s : State) : (hardReset s).outlen = 0#32 := rfl
@[simp] theorem hardReset_cfgAadMax (s : State) : (hardReset s).cfgAadMax = s.cfgAadMax := rfl
@[simp] theorem hardReset_cfgMsgMax (s : State) : (hardReset s).cfgMsgMax = s.cfgMsgMax := rfl
@[simp] theorem hardReset_done (s : State) : (hardReset s).done = false := rfl
@[simp] theorem hardReset_errf (s : State) : (hardReset s).errf = false := rfl
@[simp] theorem hardReset_ttReady (s : State) : (hardReset s).ttReady = false := rfl
@[simp] theorem hardReset_rkValid (s : State) : (hardReset s).rkValid = false := rfl
@[simp] theorem hardReset_authOk (s : State) : (hardReset s).authOk = false := rfl
@[simp] theorem hardReset_phase (s : State) : (hardReset s).phase = .init := rfl
@[simp] theorem hardReset_rk (s : State) : (hardReset s).rk = Vector.replicate 32 0#32 := rfl
@[simp] theorem hardReset_tt (s : State) : (hardReset s).tt = uninitTables (s.resets + 1) := rfl
@[simp] theorem hardReset_aadbuf (s : State) : (hardReset s).aadbuf = [] := rfl
@[simp] theorem hardReset_inbuf (s : State) : (hardReset s).inbuf = [] := rfl
@[simp] theorem hardReset_outbuf (s : State) : (hardReset s).outbuf = [] := rfl
@[simp] theorem hardReset_pending (s : State) : (hardReset s).pending = s.pending := rfl
@[simp] theorem hardReset_response (s : State) : (hardReset s).response = .nothing := rfl
@[simp] theorem hardReset_resets (s : State) : (hardReset s).resets = s.resets + 1 := rfl

/-! The body of `SOFT_RESET` (R112). -/

@[simp] theorem softReset_key (s : State) : (softReset s).key = 0#128 := rfl
@[simp] theorem softReset_iv (s : State) : (softReset s).iv = 0#128 := rfl
@[simp] theorem softReset_blkin (s : State) : (softReset s).blkin = 0#128 := rfl
@[simp] theorem softReset_blkout (s : State) : (softReset s).blkout = 0#128 := rfl
@[simp] theorem softReset_gfx (s : State) : (softReset s).gfx = 0#128 := rfl
@[simp] theorem softReset_gfy (s : State) : (softReset s).gfy = 0#128 := rfl
@[simp] theorem softReset_gfz (s : State) : (softReset s).gfz = 0#128 := rfl
@[simp] theorem softReset_h (s : State) : (softReset s).h = 0#128 := rfl
@[simp] theorem softReset_y (s : State) : (softReset s).y = 0#128 := rfl
@[simp] theorem softReset_j0 (s : State) : (softReset s).j0 = 0#128 := rfl
@[simp] theorem softReset_ctr (s : State) : (softReset s).ctr = 0#128 := rfl
@[simp] theorem softReset_cmd (s : State) : (softReset s).cmd = 0x00000001#32 := rfl
@[simp] theorem softReset_err (s : State) : (softReset s).err = 0#32 := rfl
@[simp] theorem softReset_errseen (s : State) : (softReset s).errseen = 0#32 := rfl
@[simp] theorem softReset_keylen (s : State) : (softReset s).keylen = 0#32 := rfl
@[simp] theorem softReset_ivlen (s : State) : (softReset s).ivlen = 0#32 := rfl
@[simp] theorem softReset_aadlen (s : State) : (softReset s).aadlen = 0#32 := rfl
@[simp] theorem softReset_inlen (s : State) : (softReset s).inlen = 0#32 := rfl
@[simp] theorem softReset_outlen (s : State) : (softReset s).outlen = 0#32 := rfl
@[simp] theorem softReset_cfgAadMax (s : State) : (softReset s).cfgAadMax = s.cfgAadMax := rfl
@[simp] theorem softReset_cfgMsgMax (s : State) : (softReset s).cfgMsgMax = s.cfgMsgMax := rfl
@[simp] theorem softReset_done (s : State) : (softReset s).done = false := rfl
@[simp] theorem softReset_errf (s : State) : (softReset s).errf = false := rfl
@[simp] theorem softReset_ttReady (s : State) : (softReset s).ttReady = s.ttReady := rfl
@[simp] theorem softReset_rkValid (s : State) : (softReset s).rkValid = false := rfl
@[simp] theorem softReset_authOk (s : State) : (softReset s).authOk = false := rfl
@[simp] theorem softReset_phase (s : State) : (softReset s).phase = .init := rfl
@[simp] theorem softReset_rk (s : State) : (softReset s).rk = Vector.replicate 32 0#32 := rfl
@[simp] theorem softReset_tt (s : State) : (softReset s).tt = s.tt := rfl
@[simp] theorem softReset_aadbuf (s : State) : (softReset s).aadbuf = [] := rfl
@[simp] theorem softReset_inbuf (s : State) : (softReset s).inbuf = [] := rfl
@[simp] theorem softReset_outbuf (s : State) : (softReset s).outbuf = [] := rfl
@[simp] theorem softReset_pending (s : State) : (softReset s).pending = s.pending := rfl
@[simp] theorem softReset_response (s : State) : (softReset s).response = s.response := rfl
@[simp] theorem softReset_resets (s : State) : (softReset s).resets = s.resets := rfl

/-! The outcomes of the numbers of an error. -/

@[simp] theorem errWord_none : errWord none = 0#32 := rfl
@[simp] theorem errFlag_none : errFlag none = false := rfl
@[simp] theorem errFlag_some (e : ErrorKind) : errFlag (some e) = true := rfl
@[simp] theorem errSeenAfter_none (w : Word) : errSeenAfter w none = w := rfl
@[simp] theorem endPhase_none : endPhase none = .finished := rfl

/-- Taking an error answers a next state, whatever the error and the state (R220). -/
theorem raise_eq (w : Word) (e : ErrorKind) (s : State) :
    raise w e s = .next (endCommand w (some e) false s) := rfl

/-- A command that reaches its end answers a next state (R110). -/
theorem finish_eq (w : Word) (s : State) : finish w s = .next (endCommand w none false s) := rfl

/-- An accepted `AEAD_DEC` answers a next state (R110). -/
theorem finishAuthentic_eq (w : Word) (s : State) :
    finishAuthentic w s = .next (endCommand w none true s) := rfl

/-- `abort` answers a next state (R194). -/
theorem abort_eq (w : Word) (e : ErrorKind) (s : State) :
    abort w e s = .next (endCommand w (some e) false (endCall (clearOut s))) := rfl

end Sys2Proof.Laws
end

