-- ==== Sys2Proof/Laws/Cipher.lean ====
section
/-! SUPPORT. The laws of the tables, of the word transforms and of the two recurrences of the cipher. -/

namespace Sys2Proof.Laws

open Sys2Proof.Machine

/-! ## Tables -/

/-- An entry of a table file given entry by entry. -/
@[simp] theorem ttLookup_tablesOf (f : Nat → Nat → Word) (k : Fin 4) (b : Byte) :
    ttLookup (tablesOf f) k b = f k b.toNat := by
  unfold ttLookup tablesOf
  fin_cases k <;> simp [tableOf]

/-- The defined tables hold the defined entries (R130). -/
@[simp] theorem ttLookup_ttDef (k : Fin 4) (b : Byte) : ttLookup ttDef k b = ttEntry k b := by
  simp [ttDef]

/-- A table file is known by its entries. -/
theorem tables_ext {t u : Tables} (h : ∀ k b, ttLookup t k b = ttLookup u k b) : t = u := by
  apply Vector.ext
  intro k hk
  apply Vector.ext
  intro b hb
  have := h ⟨k, hk⟩ (BitVec.ofNat 8 b)
  simpa [ttLookup, Nat.mod_eq_of_lt hb] using this

@[simp] theorem initTables_ttReady (s : State) : (initTables s).ttReady = true := by
  unfold initTables
  split <;> simp_all

/-- `init_tables()` writes the tables only when they were not ready (R131). -/
theorem initTables_tt (s : State) :
    (initTables s).tt = if s.ttReady then s.tt else ttDef := by
  unfold initTables
  split <;> rfl

@[simp] theorem tablesFor_reference (s : State) : tablesFor .reference s = s := rfl

@[simp] theorem tablesFor_tableAccelerated (s : State) :
    tablesFor .tableAccelerated s = initTables s := rfl

/-- `init_tables()` changes nothing but the tables and their flag. -/
theorem initTables_eq (s : State) :
    initTables s = { s with tt := (initTables s).tt, ttReady := true } := by
  unfold initTables
  split
  · simp_all [← ‹s.ttReady = true›]
  · rfl

@[simp] theorem initTables_key (s : State) : (initTables s).key = s.key := by
  rw [initTables_eq]
@[simp] theorem initTables_iv (s : State) : (initTables s).iv = s.iv := by
  rw [initTables_eq]
@[simp] theorem initTables_blkin (s : State) : (initTables s).blkin = s.blkin := by
  rw [initTables_eq]
@[simp] theorem initTables_blkout (s : State) : (initTables s).blkout = s.blkout := by
  rw [initTables_eq]
@[simp] theorem initTables_gfx (s : State) : (initTables s).gfx = s.gfx := by
  rw [initTables_eq]
@[simp] theorem initTables_gfy (s : State) : (initTables s).gfy = s.gfy := by
  rw [initTables_eq]
@[simp] theorem initTables_gfz (s : State) : (initTables s).gfz = s.gfz := by
  rw [initTables_eq]
@[simp] theorem initTables_h (s : State) : (initTables s).h = s.h := by
  rw [initTables_eq]
@[simp] theorem initTables_y (s : State) : (initTables s).y = s.y := by
  rw [initTables_eq]
@[simp] theorem initTables_j0 (s : State) : (initTables s).j0 = s.j0 := by
  rw [initTables_eq]
@[simp] theorem initTables_ctr (s : State) : (initTables s).ctr = s.ctr := by
  rw [initTables_eq]
@[simp] theorem initTables_cmd (s : State) : (initTables s).cmd = s.cmd := by
  rw [initTables_eq]
@[simp] theorem initTables_err (s : State) : (initTables s).err = s.err := by
  rw [initTables_eq]
@[simp] theorem initTables_errseen (s : State) : (initTables s).errseen = s.errseen := by
  rw [initTables_eq]
@[simp] theorem initTables_keylen (s : State) : (initTables s).keylen = s.keylen := by
  rw [initTables_eq]
@[simp] theorem initTables_ivlen (s : State) : (initTables s).ivlen = s.ivlen := by
  rw [initTables_eq]
@[simp] theorem initTables_aadlen (s : State) : (initTables s).aadlen = s.aadlen := by
  rw [initTables_eq]
@[simp] theorem initTables_inlen (s : State) : (initTables s).inlen = s.inlen := by
  rw [initTables_eq]
@[simp] theorem initTables_outlen (s : State) : (initTables s).outlen = s.outlen := by
  rw [initTables_eq]
@[simp] theorem initTables_cfgAadMax (s : State) : (initTables s).cfgAadMax = s.cfgAadMax := by
  rw [initTables_eq]
@[simp] theorem initTables_cfgMsgMax (s : State) : (initTables s).cfgMsgMax = s.cfgMsgMax := by
  rw [initTables_eq]
@[simp] theorem initTables_done (s : State) : (initTables s).done = s.done := by
  rw [initTables_eq]
@[simp] theorem initTables_errf (s : State) : (initTables s).errf = s.errf := by
  rw [initTables_eq]
@[simp] theorem initTables_rkValid (s : State) : (initTables s).rkValid = s.rkValid := by
  rw [initTables_eq]
@[simp] theorem initTables_authOk (s : State) : (initTables s).authOk = s.authOk := by
  rw [initTables_eq]
@[simp] theorem initTables_phase (s : State) : (initTables s).phase = s.phase := by
  rw [initTables_eq]
@[simp] theorem initTables_rk (s : State) : (initTables s).rk = s.rk := by
  rw [initTables_eq]
@[simp] theorem initTables_aadbuf (s : State) : (initTables s).aadbuf = s.aadbuf := by
  rw [initTables_eq]
@[simp] theorem initTables_inbuf (s : State) : (initTables s).inbuf = s.inbuf := by
  rw [initTables_eq]
@[simp] theorem initTables_outbuf (s : State) : (initTables s).outbuf = s.outbuf := by
  rw [initTables_eq]
@[simp] theorem initTables_pending (s : State) : (initTables s).pending = s.pending := by
  rw [initTables_eq]
@[simp] theorem initTables_response (s : State) : (initTables s).response = s.response := by
  rw [initTables_eq]
@[simp] theorem initTables_resets (s : State) : (initTables s).resets = s.resets := by
  rw [initTables_eq]

/-- The first action of a command changes nothing but the tables and their flag. -/
theorem tablesFor_eq (v : Variant) (s : State) :
    tablesFor v s = { s with tt := (tablesFor v s).tt, ttReady := (tablesFor v s).ttReady } := by
  cases v
  · rfl
  · rw [tablesFor_tableAccelerated, initTables_ttReady]
    exact initTables_eq s

@[simp] theorem tablesFor_key (v : Variant) (s : State) : (tablesFor v s).key = s.key := by
  rw [tablesFor_eq]
@[simp] theorem tablesFor_iv (v : Variant) (s : State) : (tablesFor v s).iv = s.iv := by
  rw [tablesFor_eq]
@[simp] theorem tablesFor_blkin (v : Variant) (s : State) : (tablesFor v s).blkin = s.blkin := by
  rw [tablesFor_eq]
@[simp] theorem tablesFor_blkout (v : Variant) (s : State) : (tablesFor v s).blkout = s.blkout := by
  rw [tablesFor_eq]
@[simp] theorem tablesFor_gfx (v : Variant) (s : State) : (tablesFor v s).gfx = s.gfx := by
  rw [tablesFor_eq]
@[simp] theorem tablesFor_gfy (v : Variant) (s : State) : (tablesFor v s).gfy = s.gfy := by
  rw [tablesFor_eq]
@[simp] theorem tablesFor_gfz (v : Variant) (s : State) : (tablesFor v s).gfz = s.gfz := by
  rw [tablesFor_eq]
@[simp] theorem tablesFor_h (v : Variant) (s : State) : (tablesFor v s).h = s.h := by
  rw [tablesFor_eq]
@[simp] theorem tablesFor_y (v : Variant) (s : State) : (tablesFor v s).y = s.y := by
  rw [tablesFor_eq]
@[simp] theorem tablesFor_j0 (v : Variant) (s : State) : (tablesFor v s).j0 = s.j0 := by
  rw [tablesFor_eq]
@[simp] theorem tablesFor_ctr (v : Variant) (s : State) : (tablesFor v s).ctr = s.ctr := by
  rw [tablesFor_eq]
@[simp] theorem tablesFor_cmd (v : Variant) (s : State) : (tablesFor v s).cmd = s.cmd := by
  rw [tablesFor_eq]
@[simp] theorem tablesFor_err (v : Variant) (s : State) : (tablesFor v s).err = s.err := by
  rw [tablesFor_eq]
@[simp] theorem tablesFor_errseen (v : Variant) (s : State) : (tablesFor v s).errseen = s.errseen := by
  rw [tablesFor_eq]
@[simp] theorem tablesFor_keylen (v : Variant) (s : State) : (tablesFor v s).keylen = s.keylen := by
  rw [tablesFor_eq]
@[simp] theorem tablesFor_ivlen (v : Variant) (s : State) : (tablesFor v s).ivlen = s.ivlen := by
  rw [tablesFor_eq]
@[simp] theorem tablesFor_aadlen (v : Variant) (s : State) : (tablesFor v s).aadlen = s.aadlen := by
  rw [tablesFor_eq]
@[simp] theorem tablesFor_inlen (v : Variant) (s : State) : (tablesFor v s).inlen = s.inlen := by
  rw [tablesFor_eq]
@[simp] theorem tablesFor_outlen (v : Variant) (s : State) : (tablesFor v s).outlen = s.outlen := by
  rw [tablesFor_eq]
@[simp] theorem tablesFor_cfgAadMax (v : Variant) (s : State) : (tablesFor v s).cfgAadMax = s.cfgAadMax := by
  rw [tablesFor_eq]
@[simp] theorem tablesFor_cfgMsgMax (v : Variant) (s : State) : (tablesFor v s).cfgMsgMax = s.cfgMsgMax := by
  rw [tablesFor_eq]
@[simp] theorem tablesFor_done (v : Variant) (s : State) : (tablesFor v s).done = s.done := by
  rw [tablesFor_eq]
@[simp] theorem tablesFor_errf (v : Variant) (s : State) : (tablesFor v s).errf = s.errf := by
  rw [tablesFor_eq]
@[simp] theorem tablesFor_rkValid (v : Variant) (s : State) : (tablesFor v s).rkValid = s.rkValid := by
  rw [tablesFor_eq]
@[simp] theorem tablesFor_authOk (v : Variant) (s : State) : (tablesFor v s).authOk = s.authOk := by
  rw [tablesFor_eq]
@[simp] theorem tablesFor_phase (v : Variant) (s : State) : (tablesFor v s).phase = s.phase := by
  rw [tablesFor_eq]
@[simp] theorem tablesFor_rk (v : Variant) (s : State) : (tablesFor v s).rk = s.rk := by
  rw [tablesFor_eq]
@[simp] theorem tablesFor_aadbuf (v : Variant) (s : State) : (tablesFor v s).aadbuf = s.aadbuf := by
  rw [tablesFor_eq]
@[simp] theorem tablesFor_inbuf (v : Variant) (s : State) : (tablesFor v s).inbuf = s.inbuf := by
  rw [tablesFor_eq]
@[simp] theorem tablesFor_outbuf (v : Variant) (s : State) : (tablesFor v s).outbuf = s.outbuf := by
  rw [tablesFor_eq]
@[simp] theorem tablesFor_pending (v : Variant) (s : State) : (tablesFor v s).pending = s.pending := by
  rw [tablesFor_eq]
@[simp] theorem tablesFor_response (v : Variant) (s : State) : (tablesFor v s).response = s.response := by
  rw [tablesFor_eq]
@[simp] theorem tablesFor_resets (v : Variant) (s : State) : (tablesFor v s).resets = s.resets := by
  rw [tablesFor_eq]

/-! ## Word transforms -/

/-- A rotation commutes with exclusive or. -/
theorem rotl32_xor (a b : Word) (n : Nat) : rotl32 (a ^^^ b) n = rotl32 a n ^^^ rotl32 b n := by
  unfold rotl32
  apply BitVec.eq_of_getLsbD_eq
  intro k hk
  simp only [BitVec.getLsbD_or, BitVec.getLsbD_xor, BitVec.getLsbD_shiftLeft,
    BitVec.getLsbD_ushiftRight]
  by_cases h : k < n
  · simp [h]
  · have h1 : a.getLsbD (32 - n + k) = false := BitVec.getLsbD_of_ge _ _ (by omega)
    have h2 : b.getLsbD (32 - n + k) = false := BitVec.getLsbD_of_ge _ _ (by omega)
    simp [h, hk, h1, h2]

/-- `L` is linear over exclusive or (R124). -/
theorem linL_xor (a b : Word) : linL (a ^^^ b) = linL a ^^^ linL b := by
  unfold linL
  simp only [rotl32_xor]
  ac_rfl

/-- `tau(a)` is the exclusive or of its four substituted bytes, each in its place. -/
theorem tau_eq_xor (a : Word) :
    tau a = ((sbox (wordByte a 0)).setWidth 32 <<< 24) ^^^ ((sbox (wordByte a 1)).setWidth 32 <<< 16)
      ^^^ ((sbox (wordByte a 2)).setWidth 32 <<< 8) ^^^ ((sbox (wordByte a 3)).setWidth 32 <<< 0) := by
  unfold tau be32
  generalize sbox (wordByte a 0) = b0
  generalize sbox (wordByte a 1) = b1
  generalize sbox (wordByte a 2) = b2
  generalize sbox (wordByte a 3) = b3
  apply BitVec.eq_of_getLsbD_eq
  intro k hk
  simp only [BitVec.getLsbD_append, BitVec.getLsbD_xor, BitVec.getLsbD_shiftLeft,
    BitVec.getLsbD_setWidth]
  have z : ∀ (b : Byte) (j : Nat), 8 ≤ j → b.getLsbD j = false :=
    fun b j h => BitVec.getLsbD_of_ge b j h
  rcases (by omega : k < 8 ∨ (8 ≤ k ∧ k < 16) ∨ (16 ≤ k ∧ k < 24) ∨ 24 ≤ k) with h | h | h | h
  · simp [h, hk, show k < 16 by omega, show k < 24 by omega]
  · simp [hk, show ¬ k < 8 by omega, show k - 8 < 8 by omega, show k < 16 by omega,
      show k < 24 by omega, z b3 k (by omega), show k - 8 < 32 by omega]
  · simp [hk, show ¬ k < 8 by omega, show ¬ k - 8 < 8 by omega,
      show ¬ k < 16 by omega, show k < 24 by omega, z b3 k (by omega), z b2 (k - 8) (by omega),
      show k - 8 - 8 = k - 16 by omega, show k - 16 < 32 by omega, show k - 16 < 8 by omega]
  · simp [hk, show ¬ k < 8 by omega, show ¬ k - 8 < 8 by omega, show ¬ k - 8 - 8 < 8 by omega,
      show ¬ k < 16 by omega, show ¬ k < 24 by omega, z b3 k (by omega), z b2 (k - 8) (by omega),
      z b1 (k - 16) (by omega), show k - 8 - 8 - 8 = k - 24 by omega, show k - 24 < 32 by omega]

/-! ## Recurrences -/

/-- The sequence `X` that the rounds of the cipher run along, with round key `ks[i]` in round `i`. -/
theorem cipher_sequence (T : Word → Word) (ks : List Word) (w : Window) :
    ∃ X : Nat → Word,
      (X 0 = w.w0 ∧ X 1 = w.w1 ∧ X 2 = w.w2 ∧ X 3 = w.w3) ∧
      (∀ i < ks.length,
        X (i + 4) = X i ^^^ T (X (i + 1) ^^^ X (i + 2) ^^^ X (i + 3) ^^^ ks.getD i 0#32)) ∧
      ks.foldl (cipherStep T) w =
        ⟨X ks.length, X (ks.length + 1), X (ks.length + 2), X (ks.length + 3)⟩ := by
  induction ks generalizing w with
  | nil =>
    refine ⟨fun n => match n with | 0 => w.w0 | 1 => w.w1 | 2 => w.w2 | _ => w.w3, ?_, ?_, ?_⟩ <;> simp
  | cons k ks ih =>
    obtain ⟨X, ⟨h0, h1, h2, h3⟩, hr, hf⟩ := ih (cipherStep T w k)
    refine ⟨fun n => match n with | 0 => w.w0 | n + 1 => X n, ⟨rfl, ?_, ?_, ?_⟩, ?_, ?_⟩
    · exact h0
    · exact h1
    · exact h2
    · intro i hi
      cases i with
      | zero => simpa [h0, h1, h2, cipherStep] using h3
      | succ i => simpa using hr i (by simpa using hi)
    · simpa using hf

/-- The sequence `K` of the key schedule, with constant `cs[i]` in step `i`. -/
theorem key_sequence (cs : List Word) (w : Window) :
    ∃ K : Nat → Word,
      (K 0 = w.w0 ∧ K 1 = w.w1 ∧ K 2 = w.w2 ∧ K 3 = w.w3) ∧
      (∀ i < cs.length,
        K (i + 4) = K i ^^^ linLk (tau (K (i + 1) ^^^ K (i + 2) ^^^ K (i + 3) ^^^ cs.getD i 0#32))) ∧
      (∀ i < cs.length, (keyWords cs w).getD i 0#32 = K (i + 4)) := by
  induction cs generalizing w with
  | nil =>
    refine ⟨fun n => match n with | 0 => w.w0 | 1 => w.w1 | 2 => w.w2 | _ => w.w3, ?_, ?_, ?_⟩ <;> simp
  | cons c cs ih =>
    obtain ⟨K, ⟨h0, h1, h2, h3⟩, hr, hf⟩ := ih (keyStep c w)
    refine ⟨fun n => match n with | 0 => w.w0 | n + 1 => K n, ⟨rfl, ?_, ?_, ?_⟩, ?_, ?_⟩
    · exact h0
    · exact h1
    · exact h2
    · intro i hi
      cases i with
      | zero => simpa [h0, h1, h2, keyStep] using h3
      | succ i => simpa using hr i (by simpa using hi)
    · intro i hi
      cases i with
      | zero => simpa [keyWords] using h3.symm
      | succ i => simpa [keyWords] using hf i (by simpa using hi)

end Sys2Proof.Laws
end

