-- ==== Sys2Proof/Laws/Memory.lean ====
section
/-! SUPPORT. The laws of a buffer: its canonical form is kept by every operation, a read after a write
gives the written byte, every other byte is as before, and equal contents are equal data. -/

namespace Sys2Proof.Laws

open Sys2Proof.Machine

/-- The canonical form, said without recursion: addresses rise and no listed byte is 0x00. -/
theorem wf_iff (m : Memory) :
    m.wf = true ↔ m.Pairwise (fun c d => c.1 < d.1) ∧ ∀ c ∈ m, c.2 ≠ 0#8 := by
  induction m with
  | nil => simp [Memory.wf]
  | cons c m ih =>
    obtain ⟨a, b⟩ := c
    cases m with
    | nil => simp [Memory.wf]
    | cons d m =>
      obtain ⟨a', b'⟩ := d
      simp only [Memory.wf, Bool.and_eq_true, bne_iff_ne, decide_eq_true_eq, ih]
      constructor
      · rintro ⟨⟨hb, ha⟩, hp, hz⟩
        refine ⟨List.pairwise_cons.2 ⟨?_, hp⟩, ?_⟩
        · intro c hc
          rcases List.mem_cons.1 hc with rfl | hc
          · exact ha
          · exact ha.trans ((List.pairwise_cons.1 hp).1 c hc)
        · intro c hc
          rcases List.mem_cons.1 hc with rfl | hc
          · exact hb
          · exact hz c hc
      · rintro ⟨hp, hz⟩
        obtain ⟨h1, h2⟩ := List.pairwise_cons.1 hp
        exact ⟨⟨hz (a, b) (by simp), h1 (a', b') (by simp)⟩, h2, fun c hc => hz c (List.mem_cons_of_mem _ hc)⟩

theorem wf_nil : Memory.wf [] = true := rfl

/-- The rest of a canonical buffer is canonical, and lies above its first address. -/
theorem wf_cons {a : Nat} {b : Byte} {m : Memory} :
    Memory.wf ((a, b) :: m) = true ↔ b ≠ 0#8 ∧ (∀ c ∈ m, a < c.1) ∧ Memory.wf m = true := by
  rw [wf_iff, wf_iff, List.pairwise_cons]
  simp only [List.mem_cons, forall_eq_or_imp]
  tauto

@[simp] theorem read_nil (a : Nat) : Memory.read [] a = 0#8 := rfl

@[simp] theorem read_cons (k : Nat) (b : Byte) (m : Memory) (a : Nat) :
    Memory.read ((k, b) :: m) a = if k = a then b else Memory.read m a := rfl

/-- An address below every listed one reads 0x00. -/
theorem read_below {m : Memory} {a : Nat} (h : ∀ c ∈ m, a < c.1) : m.read a = 0#8 := by
  induction m with
  | nil => rfl
  | cons c m ih =>
    obtain ⟨k, b⟩ := c
    have hk : a < k := h (k, b) (by simp)
    rw [read_cons, if_neg (by omega), ih fun c hc => h c (List.mem_cons_of_mem _ hc)]

/-- The addresses of a buffer after a write: those before, and the one written. -/
theorem mem_write {m : Memory} {a : Nat} {v : Byte} {c : Host.Cell} (h : c ∈ m.write a v) :
    c ∈ m ∨ c = (a, v) := by
  induction m with
  | nil =>
    simp only [Memory.write] at h
    split at h <;> simp_all
  | cons d m ih =>
    obtain ⟨k, b⟩ := d
    simp only [Memory.write] at h
    split at h
    · split at h
      · exact .inl h
      · rcases List.mem_cons.1 h with rfl | h
        · exact .inr rfl
        · exact .inl h
    · split at h
      · split at h
        · exact .inl (List.mem_cons_of_mem _ h)
        · rcases List.mem_cons.1 h with rfl | h
          · exact .inr rfl
          · exact .inl (List.mem_cons_of_mem _ h)
      · rcases List.mem_cons.1 h with rfl | h
        · exact .inl (by simp)
        · exact (ih h).imp_left (List.mem_cons_of_mem _)

/-- A write keeps the canonical form. -/
theorem wf_write {m : Memory} (h : m.wf = true) (a : Nat) (v : Byte) : (m.write a v).wf = true := by
  induction m with
  | nil =>
    simp only [Memory.write]
    split
    · rfl
    · simpa [Memory.wf] using ‹¬v = 0#8›
  | cons d m ih =>
    obtain ⟨k, b⟩ := d
    obtain ⟨hb, hlt, hm⟩ := wf_cons.1 h
    simp only [Memory.write]
    split
    · split
      · exact h
      · refine wf_cons.2 ⟨‹_›, fun c hc => ?_, h⟩
        rcases List.mem_cons.1 hc with rfl | hc
        · assumption
        · exact lt_trans ‹a < k› (hlt c hc)
    · split
      · split
        · exact hm
        · exact wf_cons.2 ⟨‹_›, fun c hc => by have := hlt c hc; omega, hm⟩
      · refine wf_cons.2 ⟨hb, fun c hc => ?_, ih hm⟩
        rcases mem_write hc with hc | rfl
        · exact hlt c hc
        · show k < a
          omega

/-- Reading after a write: the written byte at its address, every other byte as before. -/
theorem read_write {m : Memory} (h : m.wf = true) (a : Nat) (v : Byte) (x : Nat) :
    (m.write a v).read x = if x = a then v else m.read x := by
  induction m with
  | nil =>
    simp only [Memory.write]
    by_cases hv : v = 0#8 <;> by_cases hx : a = x <;> simp [hv, hx, eq_comm]
  | cons d m ih =>
    obtain ⟨k, b⟩ := d
    obtain ⟨hb, hlt, hm⟩ := wf_cons.1 h
    simp only [Memory.write]
    split
    · split
      · subst v
        by_cases hx : x = a
        · subst hx
          rw [if_pos rfl, read_below fun c hc => ?_]
          rcases List.mem_cons.1 hc with rfl | hc
          · assumption
          · exact lt_trans ‹x < k› (hlt c hc)
        · rw [if_neg hx]
      · simp only [read_cons, eq_comm]
    · split
      · subst a
        split
        · subst v
          by_cases hx : x = k
          · subst hx
            rw [if_pos rfl, read_below hlt]
          · simp [hx, Ne.symm hx]
        · by_cases hx : x = k <;> simp [hx, eq_comm]
      · rw [read_cons, read_cons, ih hm]
        by_cases hx : x = a
        · subst hx
          simp [show ¬ k = x by omega]
        · simp [hx]

/-- Two canonical buffers with equal contents are equal data. -/
theorem ext_read {m n : Memory} (hm : m.wf = true) (hn : n.wf = true)
    (h : ∀ a, m.read a = n.read a) : m = n := by
  induction m generalizing n with
  | nil =>
    cases n with
    | nil => rfl
    | cons d n =>
      obtain ⟨k, b⟩ := d
      have := h k
      simp only [read_nil, read_cons, if_true] at this
      exact absurd this.symm (wf_cons.1 hn).1
  | cons c m ih =>
    obtain ⟨a, b⟩ := c
    obtain ⟨hb, hlt, hm'⟩ := wf_cons.1 hm
    cases n with
    | nil =>
      have := h a
      simp only [read_nil, read_cons, if_true] at this
      exact absurd this hb
    | cons d n =>
      obtain ⟨k, e⟩ := d
      obtain ⟨he, hlt', hn'⟩ := wf_cons.1 hn
      have hak : a = k := by
        rcases lt_trichotomy a k with hl | rfl | hl
        · have := h a
          rw [read_below (m := (k, e) :: n) ?_] at this
          · simp only [read_cons, if_true] at this
            exact absurd this hb
          · intro c hc
            rcases List.mem_cons.1 hc with rfl | hc
            · exact hl
            · exact hl.trans (hlt' c hc)
        · rfl
        · have := h k
          rw [read_below (m := (a, b) :: m) ?_] at this
          · simp only [read_cons, if_true] at this
            exact absurd this.symm he
          · intro c hc
            rcases List.mem_cons.1 hc with rfl | hc
            · exact hl
            · exact hl.trans (hlt c hc)
      subst hak
      have hbe : b = e := by simpa using h a
      subst hbe
      rw [ih hm' hn' fun x => ?_]
      by_cases hx : a = x
      · subst hx
        rw [read_below hlt, read_below hlt']
      · have := h x
        rwa [read_cons, if_neg hx, read_cons, if_neg hx] at this

@[simp] theorem writeBytes_nil (m : Memory) (a : Nat) : m.writeBytes a [] = m := rfl

@[simp] theorem writeBytes_cons (m : Memory) (a : Nat) (v : Byte) (vs : List Byte) :
    m.writeBytes a (v :: vs) = (m.write a v).writeBytes (a + 1) vs := rfl

/-- `MemWrite` keeps the canonical form. -/
theorem wf_writeBytes {m : Memory} (h : m.wf = true) (a : Nat) (vs : List Byte) :
    (m.writeBytes a vs).wf = true := by
  induction vs generalizing m a with
  | nil => exact h
  | cons v vs ih => exact ih (wf_write h a v) (a + 1)

/-- Reading after `MemWrite`: the sequence where it was stored, every other byte as before. -/
theorem read_writeBytes {m : Memory} (h : m.wf = true) (a : Nat) (vs : List Byte) (x : Nat) :
    (m.writeBytes a vs).read x =
      if a ≤ x ∧ x < a + vs.length then vs.getD (x - a) 0#8 else m.read x := by
  induction vs generalizing m a with
  | nil => simp
  | cons v vs ih =>
    rw [writeBytes_cons, ih (wf_write h a v), read_write h]
    rcases lt_trichotomy x a with hx | rfl | hx
    · rw [if_neg (by omega), if_neg (by omega), if_neg (by simp; omega)]
    · rw [if_neg (by omega), if_pos rfl, if_pos (by simp)]
      simp
    · by_cases hl : x < a + (v :: vs).length
      · rw [if_pos ⟨by omega, by simp at hl; omega⟩, if_pos ⟨by omega, hl⟩]
        obtain ⟨k, rfl⟩ : ∃ k, x = a + 1 + k := ⟨x - (a + 1), by omega⟩
        rw [show a + 1 + k - (a + 1) = k by omega, show a + 1 + k - a = k + 1 by omega]
        simp
      · rw [if_neg (by simp at hl; omega), if_neg (by omega), if_neg (by omega)]

@[simp] theorem readBytes_zero (m : Memory) (a : Nat) : m.readBytes a 0 = [] := rfl

theorem readBytes_succ (m : Memory) (a n : Nat) :
    m.readBytes a (n + 1) = m.read a :: m.readBytes (a + 1) n := rfl

@[simp] theorem length_readBytes (m : Memory) (a n : Nat) : (m.readBytes a n).length = n := by
  induction n generalizing a with
  | zero => rfl
  | succ n ih => simp [readBytes_succ, ih]

/-- `MemRead` byte by byte. -/
theorem getD_readBytes (m : Memory) (a n i : Nat) (h : i < n) :
    (m.readBytes a n).getD i 0#8 = m.read (a + i) := by
  induction n generalizing a i with
  | zero => omega
  | succ n ih =>
    cases i with
    | zero => rfl
    | succ i =>
      rw [readBytes_succ, List.getD_cons_succ, ih _ _ (by omega)]
      congr 1
      omega

/-- `MemRead` as a list of reads. -/
theorem readBytes_eq_map (m : Memory) (a n : Nat) :
    m.readBytes a n = (List.range n).map fun i => m.read (a + i) := by
  apply List.ext_getElem (by simp)
  intro i h1 h2
  have hi : i < n := by simpa using h1
  have := getD_readBytes m a n i hi
  rw [List.getD_eq_getElem _ _ h1] at this
  simp [this]

/-- A read of part of a range is part of the read. -/
theorem take_drop_readBytes (m : Memory) (a n i k : Nat) :
    ((m.readBytes a n).drop i).take k = m.readBytes (a + i) (min k (n - i)) := by
  apply List.ext_getElem (by simp)
  intro j h1 h2
  have hj : j < min k (n - i) := by simpa using h2
  simp only [readBytes_eq_map, List.getElem_take, List.getElem_drop, List.getElem_map,
    List.getElem_range]
  congr 1
  omega

end Sys2Proof.Laws
end

