-- ==== Sys2Proof/Laws/Streams.lean ====
section
/-! SUPPORT. The laws of the counter (R177), of counter mode (R179), of the padded blocks (R163) and
of the accumulator over a buffer (R165). -/

namespace Sys2Proof.Laws

open Sys2Proof.Machine

/-! ## Counter -/

@[simp] theorem word_inc32 (B : Block) :
    word (inc32 B) 0 = word B 0 ∧ word (inc32 B) 1 = word B 1 ∧ word (inc32 B) 2 = word B 2 ∧
    word (inc32 B) 3 = word B 3 + 1#32 := word_blockOfWords _ _ _ _

/-- The counter after `n` increments. -/
theorem inc32_iterate (n : Nat) (B : Block) :
    inc32^[n] B = blockOfWords (word B 0) (word B 1) (word B 2) (word B 3 + BitVec.ofNat 32 n) := by
  induction n generalizing B with
  | zero => simp [blockOfWords_word]
  | succ n ih =>
    obtain ⟨h0, h1, h2, h3⟩ := word_inc32 B
    rw [Function.iterate_succ_apply, ih, h0, h1, h2, h3]
    congr 1
    rw [BitVec.add_assoc, Nat.add_comm n 1, BitVec.ofNat_add]

/-! ## Counter mode -/

@[simp] theorem length_ctrLoop (E : Block → Block) (n : Nat) (c : Block) (D : List Byte) :
    (ctrLoop E n c D).1.length = min (16 * n) D.length := by
  induction n generalizing c D with
  | zero => simp [ctrLoop]
  | succ n ih =>
    simp only [ctrLoop, List.length_append, length_xorBytes, List.length_take, length_blockBytes, ih,
      List.length_drop]
    omega

/-- The counter after `n` chunks. -/
theorem ctrLoop_counter (E : Block → Block) (n : Nat) (c : Block) (D : List Byte) :
    (ctrLoop E n c D).2 = inc32^[n] c := by
  induction n generalizing c D with
  | zero => rfl
  | succ n ih => rw [ctrLoop, ih, Function.iterate_succ_apply]

/-- Counter mode byte by byte. -/
theorem getD_ctrLoop (E : Block → Block) (n : Nat) (c : Block) (D : List Byte) (p : Nat)
    (hp : p < D.length) (hn : p < 16 * n) :
    (ctrLoop E n c D).1.getD p 0#8 =
      D.getD p 0#8 ^^^ blockByte (E (inc32^[p / 16] c)) (p % 16) := by
  induction n generalizing c D p with
  | zero => omega
  | succ n ih =>
    have hlen : (xorBytes (D.take 16) (blockBytes (E c))).length = min 16 D.length := by
      simp only [length_xorBytes, List.length_take, length_blockBytes]
      omega
    by_cases h : p < 16
    · rw [ctrLoop, List.getD_append _ _ _ _ (by omega), getD_xorBytes _ _ _ (by simp; omega) (by simpa),
        getD_blockBytes _ _ h, Nat.div_eq_of_lt h, Nat.mod_eq_of_lt h]
      congr 1
      simp [List.getD_eq_getElem?_getD, h]
    · rw [ctrLoop, List.getD_append_right _ _ _ _ (by omega), hlen, show min 16 D.length = 16 by omega,
        ih _ _ _ (by simp; omega) (by omega), show (p - 16) % 16 = p % 16 by omega,
        show p / 16 = (p - 16) / 16 + 1 by omega, Function.iterate_succ_apply]
      congr 1
      simp [List.getD_eq_getElem?_getD, show 16 + (p - 16) = p by omega]

theorem le_nchunks (n : Nat) : n ≤ 16 * nchunks n := by
  unfold nchunks
  omega

/-- The output of counter mode is as long as its input (R179). -/
@[simp] theorem length_ctrStream (E : Block → Block) (J : Block) (D : List Byte) :
    (ctrStream E J D).1.length = D.length := by
  have := le_nchunks D.length
  rw [ctrStream, length_ctrLoop]
  omega

/-- Counter mode byte by byte, from `J0` (R179). -/
theorem getD_ctrStream (E : Block → Block) (J : Block) (D : List Byte) (p : Nat) (hp : p < D.length) :
    (ctrStream E J D).1.getD p 0#8 =
      D.getD p 0#8 ^^^ blockByte (E (inc32^[p / 16 + 1] J)) (p % 16) := by
  have := le_nchunks D.length
  rw [ctrStream, getD_ctrLoop _ _ _ _ _ hp (by omega), Function.iterate_succ_apply]

/-- The final counter (R179). -/
theorem ctrStream_counter (E : Block → Block) (J : Block) (D : List Byte) :
    (ctrStream E J D).2 = inc32^[nchunks D.length + 1] J := by
  rw [ctrStream, ctrLoop_counter, Function.iterate_succ_apply]

/-! ## Padded blocks -/

@[simp] theorem length_padBlocks (bs : List Byte) : (padBlocks bs).length = nchunks bs.length := by
  simp [padBlocks]

/-- A byte of a padded block: zeros beyond the end of the sequence (R163). -/
theorem blockByte_padBlocks (bs : List Byte) (i t : Nat) (hi : i < nchunks bs.length) (ht : t < 16) :
    blockByte ((padBlocks bs).getD i 0#128) t = bs.getD (16 * i + t) 0#8 := by
  have : (padBlocks bs).getD i 0#128 = blockOfBytes ((bs.drop (16 * i)).take 16) := by
    simp [padBlocks, List.getD_eq_getElem?_getD, hi]
  rw [this, blockByte_blockOfBytes _ _ ht]
  simp [List.getD_eq_getElem?_getD, ht]

/-- The chunks of a buffer are the chunks of what a read of it gives (R72). -/
theorem chunk_eq (m : Memory) (len i : Nat) :
    chunk m len i = ((m.readBytes 0 len).drop (16 * i)).take 16 := by
  rw [take_drop_readBytes, Nat.zero_add, chunk]

/-- The accumulator over a buffer is the accumulator over its padded blocks (R165). -/
theorem ghashChunks_eq (h : Block) (m : Memory) (len : Nat) (y : Block) :
    ghashChunks h m len y = (padBlocks (m.readBytes 0 len)).foldl (ghashStep h) y := by
  simp [ghashChunks, padBlocks, padblock, chunk_eq, List.foldl_map]

end Sys2Proof.Laws
end

