-- ==== Sys2Proof/Laws/Operands.lean ====
section
/-! SUPPORT. The checks on the length registers (R190, R217) and the IV operand (R175), as statements
about numbers. -/

namespace Sys2Proof.Laws

open Sys2Proof.Machine

theorem keyLenOk_iff (s : State) : keyLenOk s = true ↔ s.keylen = 16#32 := by simp [keyLenOk]

theorem ivLenOk_iff (s : State) : ivLenOk s = true ↔ s.ivlen = 12#32 ∨ s.ivlen = 16#32 := by
  simp [ivLenOk]

theorem aadTooLong_iff (s : State) : aadTooLong s = true ↔ s.cfgAadMax.toNat < s.aadlen.toNat :=
  decide_eq_true_iff

theorem inTooLong_iff (s : State) : inTooLong s = true ↔ s.cfgMsgMax.toNat + 16 < s.inlen.toNat :=
  decide_eq_true_iff

theorem plainTooLong_iff (s : State) :
    plainTooLong s = true ↔ s.cfgMsgMax.toNat < s.inlen.toNat :=
  decide_eq_true_iff

/-- `AEAD_ENC` passes its checks exactly on legal lengths (R190). -/
theorem encArgError_eq_none (s : State) : encArgError s = none ↔
    s.keylen = 16#32 ∧ (s.ivlen = 12#32 ∨ s.ivlen = 16#32) ∧
    s.aadlen.toNat ≤ s.cfgAadMax.toNat ∧ s.inlen.toNat ≤ s.cfgMsgMax.toNat := by
  rw [← keyLenOk_iff, ← ivLenOk_iff, ← Nat.not_lt, ← aadTooLong_iff, ← Nat.not_lt, ← plainTooLong_iff,
    encArgError]
  cases keyLenOk s <;> cases ivLenOk s <;> cases aadTooLong s <;> cases plainTooLong s <;> simp

/-- `AEAD_DEC` passes its checks exactly on legal lengths (R190). -/
theorem decArgError_eq_none (s : State) : decArgError s = none ↔
    s.keylen = 16#32 ∧ (s.ivlen = 12#32 ∨ s.ivlen = 16#32) ∧ 16 ≤ s.inlen.toNat ∧
    s.aadlen.toNat ≤ s.cfgAadMax.toNat ∧ s.inlen.toNat ≤ s.cfgMsgMax.toNat + 16 := by
  rw [← keyLenOk_iff, ← ivLenOk_iff, ← Nat.not_lt (b := 16), ← Nat.not_lt (b := s.aadlen.toNat),
    ← aadTooLong_iff, ← Nat.not_lt (b := s.inlen.toNat), ← inTooLong_iff, decArgError]
  by_cases h : s.inlen.toNat < 16 <;>
  cases keyLenOk s <;> cases ivLenOk s <;> cases aadTooLong s <;> cases inTooLong s <;> simp [h]

/-- The first `n` bytes of a block. -/
theorem getD_take_blockBytes (B : Block) (n i : Nat) (h : i < n) (hi : i < 16) :
    ((blockBytes B).take n).getD i 0#8 = blockByte B i := by
  rw [← getD_blockBytes B i hi]
  simp [List.getD_eq_getElem?_getD, h]

/-- The bits of a block whose last word was replaced. -/
theorem getLsbD_lastWord (B : Block) (w : Word) (q : Nat) (hq : q < 128) :
    (blockOfWords (word B 0) (word B 1) (word B 2) w).getLsbD q =
      if q < 32 then w.getLsbD q else B.getLsbD q := by
  simp only [word, blockOfWords, BitVec.getLsbD_extractLsb', BitVec.getLsbD_append]
  rcases (by omega : q < 32 ∨ (32 ≤ q ∧ q < 64) ∨ (64 ≤ q ∧ q < 96) ∨ 96 ≤ q) with h | h | h | h
  · simp [h]
  · simp [show ¬ q < 32 by omega, show q - 32 < 32 by omega, show 32 + (q - 32) = q by omega]
  · simp [show ¬ q < 32 by omega, show ¬ q - 32 < 32 by omega, show q - 32 - 32 < 32 by omega,
      show 64 + (q - 32 - 32) = q by omega]
  · simp [show ¬ q < 32 by omega, show ¬ q - 32 < 32 by omega, show ¬ q - 32 - 32 < 32 by omega,
      show q - 32 - 32 - 32 < 32 by omega, show 96 + (q - 32 - 32 - 32) = q by omega]

/-- The bytes of a block whose last word was replaced. -/
theorem blockByte_lastWord (B : Block) (w : Word) (i : Nat) (hi : i < 16) :
    blockByte (blockOfWords (word B 0) (word B 1) (word B 2) w) i =
      if i < 12 then blockByte B i else wordByte w (i - 12) := by
  apply BitVec.eq_of_getLsbD_eq
  intro k hk
  rw [getLsbD_blockByte, getLsbD_lastWord _ _ _ (by omega)]
  by_cases h : i < 12
  · rw [if_neg (by omega), if_pos h, getLsbD_blockByte]
  · rw [if_pos (by omega), if_neg h, getLsbD_wordByte, show 3 - (i - 12) = 15 - i by omega]

/-- The initial counter block of a 16-byte IV (R175). -/
theorem ivJ0_sixteen (s : State) (h : s.ivlen = 16#32) : ivJ0 s = some s.iv := by
  have ho : ivOperand s = (blockBytes s.iv).take 16 := by rw [ivOperand, h]; rfl
  have hl : ((blockBytes s.iv).take 16).length = 16 := by simp
  rw [ivJ0, if_pos ((ivLenOk_iff s).2 (.inr h)), ho, deriveJ0, hl, if_neg (by decide), if_pos rfl]
  congr 1
  apply block_ext
  intro i hi
  rw [blockByte_blockOfBytes _ _ hi, getD_take_blockBytes _ _ _ hi hi]

/-- The first twelve bytes of a block followed by 0x00000001 (R175). -/
theorem blockOfBytes_take_twelve (B : Block) :
    blockOfBytes ((blockBytes B).take 12 ++ [0x00#8, 0x00#8, 0x00#8, 0x01#8]) =
      blockOfWords (word B 0) (word B 1) (word B 2) 0x00000001#32 := by
  have hl : ((blockBytes B).take 12).length = 12 := by simp
  have key : ∀ j < 4, [0x00#8, 0x00#8, 0x00#8, 0x01#8].getD j 0#8 = wordByte 0x00000001#32 j := by
    decide
  apply block_ext
  intro i hi
  rw [blockByte_blockOfBytes _ _ hi, blockByte_lastWord _ _ _ hi]
  by_cases h : i < 12
  · rw [if_pos h, List.getD_append _ _ _ _ (by omega), getD_take_blockBytes _ _ _ h hi]
  · rw [if_neg h, List.getD_append_right _ _ _ _ (by omega), hl, key _ (by omega)]

/-- The initial counter block of a 12-byte IV (R175). -/
theorem ivJ0_twelve (s : State) (h : s.ivlen = 12#32) :
    ivJ0 s = some (blockOfWords (word s.iv 0) (word s.iv 1) (word s.iv 2) 0x00000001#32) := by
  have ho : ivOperand s = (blockBytes s.iv).take 12 := by rw [ivOperand, h]; rfl
  have hl : ((blockBytes s.iv).take 12).length = 12 := by simp
  rw [ivJ0, if_pos ((ivLenOk_iff s).2 (.inl h)), ho, deriveJ0, hl, if_pos rfl,
    blockOfBytes_take_twelve]

/-- Any other length gives no initial counter block (R176). -/
theorem ivJ0_other (s : State) (h12 : s.ivlen ≠ 12#32) (h16 : s.ivlen ≠ 16#32) : ivJ0 s = none := by
  rw [ivJ0, if_neg]
  rw [ivLenOk_iff]
  tauto

end Sys2Proof.Laws
end

