-- ==== Sys2Proof/Laws/Commands.lean ====
section
/-! SUPPORT. One lemma for each command: every outcome it has, with the state that its outcome record
is written over. They say everything a command can do, so that no proof unfolds a meaning. -/

namespace Sys2Proof.Laws

open Sys2Proof.Machine

/-- `NOP` (R111). -/
theorem exec_nop (s : State) : exec .nop s = .next (endCommand (encode .nop) none false s) := rfl

/-- `SOFT_RESET` (R112). -/
theorem exec_softReset (s : State) : exec .softReset s = .next (softReset s) := rfl

/-- `TT_INIT` (R113). -/
theorem exec_ttInit (s : State) :
    exec .ttInit s = .next (endCommand (encode .ttInit) none false (initTables s)) := rfl

/-- `KEY_EXPAND` (R127). -/
theorem exec_keyExpand (s : State) : exec .keyExpand s =
    if s.keylen = 16#32 then .next (endCommand (encode .keyExpand) none false (expandKey s))
    else .next (endCommand (encode .keyExpand) (some .invalidKeySize) false s) := by
  show execKeyExpand s = _
  by_cases h : s.keylen = 16#32 <;> simp [execKeyExpand, keyLenOk, h, finish, raise]

/-- `BLK_ENC` (R135). -/
theorem exec_blkEnc (v : Variant) (s : State) : exec (.blkEnc v) s =
    if s.rkValid then .next (endCommand (encode (.blkEnc v)) none false
      { tablesFor v s with blkout := encBlock (roundFn v (tablesFor v s).tt) s.rk s.blkin })
    else .next (endCommand (encode (.blkEnc v)) (some .keyNotExpanded) false s) := by
  show execBlkEnc v s = _
  cases h : s.rkValid <;> simp [execBlkEnc, h, finish, raise, encBlock]

/-- `BLK_DEC` (R136). -/
theorem exec_blkDec (v : Variant) (s : State) : exec (.blkDec v) s =
    if s.rkValid then .next (endCommand (encode (.blkDec v)) none false
      { tablesFor v s with blkout := decBlock (roundFn v (tablesFor v s).tt) s.rk s.blkin })
    else .next (endCommand (encode (.blkDec v)) (some .keyNotExpanded) false s) := by
  show execBlkDec v s = _
  cases h : s.rkValid <;> simp [execBlkDec, h, finish, raise, decBlock]

/-- `GF_MUL` (R152). -/
theorem exec_gfMul (s : State) : exec .gfMul s =
    .next (endCommand (encode .gfMul) none false { s with gfz := gfmul s.gfx s.gfy }) := rfl

/-- `GH_INIT` (R161). -/
theorem exec_ghInit (s : State) : exec .ghInit s =
    .next (endCommand (encode .ghInit) none false { s with y := 0#128 }) := rfl

/-- `GH_UPD` (R162). -/
theorem exec_ghUpd (s : State) : exec .ghUpd s =
    .next (endCommand (encode .ghUpd) none false { s with y := ghashStep s.h s.y s.blkin }) := rfl

/-- `GH_MSG` (R166): the buffers enter the accumulator as the AEAD block sequence (R163, R165). -/
theorem exec_ghMsg (s : State) : exec .ghMsg s =
    if aadTooLong s || inTooLong s then
      .next (endCommand (encode .ghMsg) (some .lengthError) false s)
    else .next (endCommand (encode .ghMsg) none false
      { s with y := ghashAC s.h (aadOperand s) (inOperand s s.inlen.toNat) }) := by
  have hb : ghashBufs s.h s.aadbuf s.inbuf s.aadlen.toNat s.inlen.toNat =
      ghashAC s.h (aadOperand s) (inOperand s s.inlen.toNat) := by
    simp [ghashBufs, ghashAC, ghash, aeadBlocks, ghashChunks_eq, aadOperand, inOperand]
  show execGhMsg s = _
  cases h1 : aadTooLong s <;> cases h2 : inTooLong s <;> simp [execGhMsg, h1, h2, finish, raise, hb]

/-- `H_DERIVE` (R167). -/
theorem exec_hDerive (v : Variant) (s : State) : exec (.hDerive v) s =
    if s.rkValid then .next (endCommand (encode (.hDerive v)) none false
      { tablesFor v s with h := encBlock (roundFn v (tablesFor v s).tt) s.rk 0#128 })
    else .next (endCommand (encode (.hDerive v)) (some .keyNotExpanded) false s) := by
  show execHDerive v s = _
  cases h : s.rkValid <;> simp [execHDerive, h, finish, raise, engineEnc]

/-- `J0_DERIVE` (R176). -/
theorem exec_j0Derive (s : State) : exec .j0Derive s =
    match ivJ0 s with
    | none => .next (endCommand (encode .j0Derive) (some .invalidIVSize) false s)
    | some j => .next (endCommand (encode .j0Derive) none false { s with j0 := j }) := rfl

/-- `CTR_INC` (R178). -/
theorem exec_ctrInc (s : State) : exec .ctrInc s =
    .next (endCommand (encode .ctrInc) none false { s with ctr := inc32 s.ctr }) := rfl

/-- The output of `CTR_XCRYPT` and of the AEAD commands: keystream over the first `n` input bytes. -/
def streamOut (v : Variant) (s : State) (j : Block) (n : Nat) : List Byte :=
  (ctrStream (engineEnc v s) j (inOperand s n)).1

@[simp] theorem length_streamOut (v : Variant) (s : State) (j : Block) (n : Nat) :
    (streamOut v s j n).length = n := by simp [streamOut, inOperand]

/-- The keystream output byte by byte (R179). -/
theorem getD_streamOut (v : Variant) (s : State) (j : Block) (n p : Nat) (h : p < n) :
    (streamOut v s j n).getD p 0#8 =
      s.inbuf.read p ^^^ blockByte (engineEnc v s (inc32^[p / 16 + 1] j)) (p % 16) := by
  rw [streamOut, getD_ctrStream _ _ _ _ (by simpa [inOperand]), inOperand, getD_readBytes _ _ _ _ h,
    Nat.zero_add]

/-- `CTR_XCRYPT` (R180). -/
theorem exec_ctrXcrypt (v : Variant) (s : State) : exec (.ctrXcrypt v) s =
    if s.rkValid then
      if inTooLong s then .next (endCommand (encode (.ctrXcrypt v)) (some .lengthError) false (clearOut s))
      else .next (endCommand (encode (.ctrXcrypt v)) none false
        { tablesFor v s with
            outbuf := Memory.writeBytes [] 0 (streamOut v (tablesFor v s) s.j0 s.inlen.toNat)
            outlen := s.inlen
            ctr := inc32^[nchunks s.inlen.toNat + 1] s.j0 })
    else .next (endCommand (encode (.ctrXcrypt v)) (some .keyNotExpanded) false (clearOut s)) := by
  have hc : (ctrStream (engineEnc v (tablesFor v s)) s.j0
      (inOperand (tablesFor v s) s.inlen.toNat)).2 = inc32^[nchunks s.inlen.toNat + 1] s.j0 := by
    rw [ctrStream_counter]
    simp [inOperand]
  show execCtrXcrypt v s = _
  cases h1 : s.rkValid
  · simp [execCtrXcrypt, h1, raise]
  · cases h2 : inTooLong s
    · simp [execCtrXcrypt, h1, h2, finish, hc, clearOut, streamOut]
    · simp [execCtrXcrypt, h1, h2, raise]

/-- The initial counter block of a call past its checks. -/
def callJ0 (s : State) : Block := (ivJ0 s).getD 0#128

/-- The state of an AEAD call after its key expansion (R192). -/
def callBase (v : Variant) (s : State) : State := expandKey (tablesFor v s)

/-- The state after the key expansion of a call, field by field where it differs (R192). -/
theorem callBase_eq (v : Variant) (s : State) :
    callBase v s = { tablesFor v s with rk := deriveRoundKeys s.key, rkValid := true } := by
  simp only [callBase, expandKey, tablesFor_key]

/-- The block encryption of a call (R191). -/
theorem engineEnc_callBase (v : Variant) (s : State) :
    engineEnc v (callBase v s) = encBlock (roundFn v (tablesFor v s).tt) (deriveRoundKeys s.key) := by
  rw [callBase_eq]
  rfl

@[simp] theorem callBase_inbuf (v : Variant) (s : State) : (callBase v s).inbuf = s.inbuf := by
  rw [callBase_eq]
  exact tablesFor_inbuf v s

/-- The initial counter block of a call (R175). -/
theorem callJ0_twelve (s : State) (h : s.ivlen = 12#32) :
    callJ0 s = blockOfWords (word s.iv 0) (word s.iv 1) (word s.iv 2) 0x00000001#32 := by
  rw [callJ0, ivJ0_twelve s h, Option.getD_some]

/-- The initial counter block of a call (R175). -/
theorem callJ0_sixteen (s : State) (h : s.ivlen = 16#32) : callJ0 s = s.iv := by
  rw [callJ0, ivJ0_sixteen s h, Option.getD_some]

/-- The hash and the tag of a call over ciphertext `C` (R191). -/
def callTagOf (v : Variant) (s : State) (C : List Byte) : Block :=
  engineEnc v (callBase v s) (callJ0 s) ^^^
    ghashAC (engineEnc v (callBase v s) 0#128) (aadOperand s) C

/-- `AEAD_ENC` (R192). -/
theorem exec_aeadEnc (v : Variant) (s : State) : exec (.aeadEnc v) s =
    match encArgError s with
    | some e => .next (endCommand (encode (.aeadEnc v)) (some e) false (endCall (clearOut s)))
    | none =>
      let C := streamOut v (callBase v s) (callJ0 s) s.inlen.toNat
      .next (endCommand (encode (.aeadEnc v)) none false (endCall
        { callBase v s with
            outbuf := (Memory.writeBytes [] 0 C).writeBytes s.inlen.toNat
              (blockBytes (callTagOf v s C))
            outlen := s.inlen + 16#32 })) := by
  show execAeadEnc v s = _
  cases h : encArgError s with
  | some e => simp [execAeadEnc, h, abort, raise]
  | none =>
    simp [execAeadEnc, h, finish, clearOut, startCall, hashCall, callTag, endCall, streamOut, callBase,
      callTagOf, callJ0, engineEnc, inOperand, aadOperand, expandKey]
    rfl

/-- The bytes of the received tag (R195). -/
def receivedTag (s : State) : Block := blockOfBytes (s.inbuf.readBytes (s.inlen.toNat - 16) 16)

/-- `AEAD_DEC` (R195, R196). -/
theorem exec_aeadDec (v : Variant) (s : State) : exec (.aeadDec v) s =
    match decArgError s with
    | some e => .next (endCommand (encode (.aeadDec v)) (some e) false (endCall (clearOut s)))
    | none =>
      if ctEq16 (callTagOf v s (inOperand s (s.inlen.toNat - 16))) (receivedTag s) then
        .next (endCommand (encode (.aeadDec v)) none true (endCall
          { callBase v s with
              outbuf := Memory.writeBytes [] 0
                (streamOut v (callBase v s) (callJ0 s) (s.inlen.toNat - 16))
              outlen := s.inlen - 16#32 }))
      else .next (endCommand (encode (.aeadDec v)) (some .authenticationFailure) false
        (endCall (clearOut (callBase v s)))) := by
  show execAeadDec v s = _
  cases h : decArgError s with
  | some e => simp [execAeadDec, h, abort, raise]
  | none =>
    have ht : callTag v (hashCall (aadOperand (startCall v s))
        (inOperand (startCall v s) (s.inlen.toNat - 16)) (startCall v s)) =
        callTagOf v s (inOperand s (s.inlen.toNat - 16)) := by
      simp [callTag, hashCall, startCall, callTagOf, callBase, expandKey, engineEnc, aadOperand,
        inOperand, callJ0]
      rfl
    have hg : blockOfBytes ((startCall v s).inbuf.readBytes (s.inlen.toNat - 16) 16) = receivedTag s := by
      simp [startCall, receivedTag, expandKey]
    simp only [execAeadDec, h, ht, hg]
    split
    · simp [finishAuthentic, clearOut, startCall, hashCall, endCall, streamOut, callBase, callJ0,
        engineEnc, inOperand, expandKey]
      rfl
    · simp [abort, raise, clearOut, startCall, hashCall, endCall, callBase, expandKey]

end Sys2Proof.Laws
end

