-- ==== Sys2Proof/Laws/HostPort.lean ====
section
/-! SUPPORT. The laws of the host port: the map of `REG`, `BusError`, what a host write changes and
what it leaves, reading after writing, and the cases of a step. -/

namespace Sys2Proof.Laws

open Sys2Proof.Machine

/-! ## The map of REG -/

/-- No offset beyond the space is mapped. -/
theorem locate_ge {a : Nat} (h : 0x0F0 ≤ a) : locate a = none := by
  have hf : regMap.find? (fun r => decide (r.offset ≤ a ∧ a < r.offset + r.size)) = none := by
    rw [List.find?_eq_none]
    have key : ∀ r ∈ regMap, r.offset + r.size ≤ 0x0F0 := by decide
    intro r hr
    have := key r hr
    simp
    omega
  rw [locate, hf]

/-- The offsets of `REG` that belong to no register (R61). -/
theorem locate_isNone (a : Nat) :
    (locate a).isNone = true ↔ (0x030 ≤ a ∧ a ≤ 0x03F) ∨ 0x0F0 ≤ a := by
  by_cases h : 0x0F0 ≤ a
  · simp [locate_ge h, h]
  · have key : ∀ a < 0x0F0, (locate a).isNone = true ↔ (0x030 ≤ a ∧ a ≤ 0x03F) ∨ 0x0F0 ≤ a := by
      decide +kernel
    exact key a (by omega)

/-- A register's bytes lie where the map says (R61). -/
theorem locate_offset (r : Reg) (i : Nat) (h : i < if r.offset < 0x040 then 4 else 16) :
    locate (r.offset + i) = some (r, i) := by
  have key : ∀ r : Reg, ∀ i < (if r.offset < 0x040 then 4 else 16),
      locate (r.offset + i) = some (r, i) := by
    intro r
    cases r <;> decide +kernel
  exact key r i h

/-- What the map gives for an offset is that offset's register and byte. -/
theorem offset_of_locate {a i : Nat} {r : Reg} (h : locate a = some (r, i)) :
    a = r.offset + i ∧ i < if r.offset < 0x040 then 4 else 16 := by
  unfold locate at h
  split at h
  · exact absurd h (by simp)
  · rename_i row hrow
    have hm := List.mem_of_find?_eq_some hrow
    have hp := List.find?_some hrow
    have key : ∀ row ∈ regMap, row.reg.offset = row.offset ∧
        row.size = if row.reg.offset < 0x040 then 4 else 16 := by decide
    obtain ⟨h1, h2⟩ := key row hm
    obtain ⟨rfl, rfl⟩ : row.reg = r ∧ a - row.offset = i := by simpa using h
    simp only [decide_eq_true_eq] at hp
    omega

/-! ## BusError -/

/-- Some byte of an access has a property. -/
theorem touches_iff (p : Nat → Bool) (addr n : Nat) :
    touches p addr n = true ↔ ∃ a, addr ≤ a ∧ a < addr + n ∧ p a = true := by
  simp only [touches, List.any_eq_true, List.mem_range]
  constructor
  · rintro ⟨i, hi, hp⟩
    exact ⟨addr + i, by omega, by omega, hp⟩
  · rintro ⟨a, h1, h2, hp⟩
    exact ⟨a - addr, by omega, by rwa [show addr + (a - addr) = a by omega]⟩

/-- `BusError` is exactly what R70 lists. -/
theorem busError_iff (s : State) (sp : Space) (addr n : Nat) (w : Bool) :
    busError s sp addr n w = true ↔
      ((n ≠ 1 ∧ n ≠ 2 ∧ n ≠ 4) ∨ addr % n ≠ 0 ∨ spaceSize s sp < addr + n ∨
      (sp = .reg ∧ ∃ a, addr ≤ a ∧ a < addr + n ∧
        ((0x030 ≤ a ∧ a ≤ 0x03F) ∨ (0x0F0 ≤ a ∧ a ≤ 0x0FF))) ∨
      (sp = .reg ∧ w = true ∧ n ≠ 4 ∧ ∃ a, addr ≤ a ∧ a < addr + n ∧ 0x004 ≤ a ∧ a ≤ 0x007)) := by
  have h1 := fun p => touches_iff p addr n
  simp only [busError, Bool.or_eq_true, Bool.and_eq_true, h1, locate_isNone, Bool.not_eq_true',
    Bool.or_eq_false_iff, beq_eq_false_iff_ne, bne_iff_ne, decide_eq_true_eq, beq_iff_eq]
  constructor
  · rintro ((((⟨⟨h, h'⟩, h''⟩ | h) | h) | ⟨h, a, h2, h3, h4⟩) | ⟨⟨⟨h, h'⟩, h''⟩, h4'⟩)
    · exact .inl ⟨h, h', h''⟩
    · exact .inr (.inl h)
    · exact .inr (.inr (.inl h))
    · by_cases hs : spaceSize s sp < addr + n
      · exact .inr (.inr (.inl hs))
      · subst h
        simp only [spaceSize] at hs
        exact .inr (.inr (.inr (.inl ⟨rfl, a, h2, h3, by omega⟩)))
    · exact .inr (.inr (.inr (.inr ⟨h, h', h'', h4'⟩)))
  · rintro (⟨h, h', h''⟩ | h | h | ⟨h, a, h2, h3, h4⟩ | ⟨h, h', h'', h4'⟩)
    · exact .inl (.inl (.inl (.inl ⟨⟨h, h'⟩, h''⟩)))
    · exact .inl (.inl (.inl (.inr h)))
    · exact .inl (.inl (.inr h))
    · exact .inl (.inr ⟨h, a, h2, h3, by omega⟩)
    · exact .inr ⟨⟨⟨h, h'⟩, h''⟩, h4'⟩

/-- What an accepted access satisfies: its size, its alignment and its place (R70). -/
theorem busError_bounds {s : State} {sp : Space} {addr n : Nat} {w : Bool}
    (h : busError s sp addr n w = false) :
    (n = 1 ∨ n = 2 ∨ n = 4) ∧ addr % n = 0 ∧ addr + n ≤ spaceSize s sp := by
  simp only [busError, Bool.or_eq_false_iff, Bool.not_eq_false', Bool.or_eq_true, beq_iff_eq,
    bne_eq_false_iff_eq, decide_eq_false_iff_not, Nat.not_lt] at h
  tauto

/-- No byte of an accepted access to `REG` is unmapped (R70). -/
theorem busError_mapped {s : State} {addr n : Nat} {w : Bool}
    (h : busError s .reg addr n w = false) (a : Nat) (h1 : addr ≤ a) (h2 : a < addr + n) :
    ∃ r i, locate a = some (r, i) := by
  have ht : touches (fun a => (locate a).isNone) addr n = false := by
    simp only [busError, Bool.or_eq_false_iff, beq_self_eq_true, Bool.true_and] at h
    exact h.1.2
  rcases hl : locate a with _ | ⟨r, i⟩
  · have : touches (fun a => (locate a).isNone) addr n = true :=
      (touches_iff _ _ _).2 ⟨a, h1, h2, by simp [hl]⟩
    rw [ht] at this
    exact absurd this (by simp)
  · exact ⟨r, i, rfl⟩

/-- The 4-byte write to `CMD` is accepted. -/
@[simp] theorem busError_cmd (s : State) : busError s .reg 0x004 4 true = false := rfl

/-! ## What a host write leaves -/

@[simp] theorem writeRegByte_blkout (s : State) (r : Reg) (i : Nat) (v : Byte) :
    (writeRegByte s r i v).blkout = s.blkout := by cases r <;> rfl
@[simp] theorem writeRegByte_gfz (s : State) (r : Reg) (i : Nat) (v : Byte) :
    (writeRegByte s r i v).gfz = s.gfz := by cases r <;> rfl
@[simp] theorem writeRegByte_cmd (s : State) (r : Reg) (i : Nat) (v : Byte) :
    (writeRegByte s r i v).cmd = s.cmd := by cases r <;> rfl
@[simp] theorem writeRegByte_err (s : State) (r : Reg) (i : Nat) (v : Byte) :
    (writeRegByte s r i v).err = s.err := by cases r <;> rfl
@[simp] theorem writeRegByte_errseen (s : State) (r : Reg) (i : Nat) (v : Byte) :
    (writeRegByte s r i v).errseen = s.errseen := by cases r <;> rfl
@[simp] theorem writeRegByte_outlen (s : State) (r : Reg) (i : Nat) (v : Byte) :
    (writeRegByte s r i v).outlen = s.outlen := by cases r <;> rfl
@[simp] theorem writeRegByte_cfgAadMax (s : State) (r : Reg) (i : Nat) (v : Byte) :
    (writeRegByte s r i v).cfgAadMax = s.cfgAadMax := by cases r <;> rfl
@[simp] theorem writeRegByte_cfgMsgMax (s : State) (r : Reg) (i : Nat) (v : Byte) :
    (writeRegByte s r i v).cfgMsgMax = s.cfgMsgMax := by cases r <;> rfl
@[simp] theorem writeRegByte_done (s : State) (r : Reg) (i : Nat) (v : Byte) :
    (writeRegByte s r i v).done = s.done := by cases r <;> rfl
@[simp] theorem writeRegByte_errf (s : State) (r : Reg) (i : Nat) (v : Byte) :
    (writeRegByte s r i v).errf = s.errf := by cases r <;> rfl
@[simp] theorem writeRegByte_ttReady (s : State) (r : Reg) (i : Nat) (v : Byte) :
    (writeRegByte s r i v).ttReady = s.ttReady := by cases r <;> rfl
@[simp] theorem writeRegByte_authOk (s : State) (r : Reg) (i : Nat) (v : Byte) :
    (writeRegByte s r i v).authOk = s.authOk := by cases r <;> rfl
@[simp] theorem writeRegByte_phase (s : State) (r : Reg) (i : Nat) (v : Byte) :
    (writeRegByte s r i v).phase = s.phase := by cases r <;> rfl
@[simp] theorem writeRegByte_rk (s : State) (r : Reg) (i : Nat) (v : Byte) :
    (writeRegByte s r i v).rk = s.rk := by cases r <;> rfl
@[simp] theorem writeRegByte_tt (s : State) (r : Reg) (i : Nat) (v : Byte) :
    (writeRegByte s r i v).tt = s.tt := by cases r <;> rfl
@[simp] theorem writeRegByte_outbuf (s : State) (r : Reg) (i : Nat) (v : Byte) :
    (writeRegByte s r i v).outbuf = s.outbuf := by cases r <;> rfl
@[simp] theorem writeRegByte_pending (s : State) (r : Reg) (i : Nat) (v : Byte) :
    (writeRegByte s r i v).pending = s.pending := by cases r <;> rfl
@[simp] theorem writeRegByte_response (s : State) (r : Reg) (i : Nat) (v : Byte) :
    (writeRegByte s r i v).response = s.response := by cases r <;> rfl
@[simp] theorem writeRegByte_resets (s : State) (r : Reg) (i : Nat) (v : Byte) :
    (writeRegByte s r i v).resets = s.resets := by cases r <;> rfl

@[simp] theorem writeByte_blkout (s : State) (sp : Space) (a : Nat) (v : Byte) :
    (writeByte s sp a v).blkout = s.blkout := by
  unfold writeByte; split <;> [split; rfl; rfl; rfl] <;> simp
@[simp] theorem writeByte_gfz (s : State) (sp : Space) (a : Nat) (v : Byte) :
    (writeByte s sp a v).gfz = s.gfz := by
  unfold writeByte; split <;> [split; rfl; rfl; rfl] <;> simp
@[simp] theorem writeByte_cmd (s : State) (sp : Space) (a : Nat) (v : Byte) :
    (writeByte s sp a v).cmd = s.cmd := by
  unfold writeByte; split <;> [split; rfl; rfl; rfl] <;> simp
@[simp] theorem writeByte_err (s : State) (sp : Space) (a : Nat) (v : Byte) :
    (writeByte s sp a v).err = s.err := by
  unfold writeByte; split <;> [split; rfl; rfl; rfl] <;> simp
@[simp] theorem writeByte_errseen (s : State) (sp : Space) (a : Nat) (v : Byte) :
    (writeByte s sp a v).errseen = s.errseen := by
  unfold writeByte; split <;> [split; rfl; rfl; rfl] <;> simp
@[simp] theorem writeByte_outlen (s : State) (sp : Space) (a : Nat) (v : Byte) :
    (writeByte s sp a v).outlen = s.outlen := by
  unfold writeByte; split <;> [split; rfl; rfl; rfl] <;> simp
@[simp] theorem writeByte_cfgAadMax (s : State) (sp : Space) (a : Nat) (v : Byte) :
    (writeByte s sp a v).cfgAadMax = s.cfgAadMax := by
  unfold writeByte; split <;> [split; rfl; rfl; rfl] <;> simp
@[simp] theorem writeByte_cfgMsgMax (s : State) (sp : Space) (a : Nat) (v : Byte) :
    (writeByte s sp a v).cfgMsgMax = s.cfgMsgMax := by
  unfold writeByte; split <;> [split; rfl; rfl; rfl] <;> simp
@[simp] theorem writeByte_done (s : State) (sp : Space) (a : Nat) (v : Byte) :
    (writeByte s sp a v).done = s.done := by
  unfold writeByte; split <;> [split; rfl; rfl; rfl] <;> simp
@[simp] theorem writeByte_errf (s : State) (sp : Space) (a : Nat) (v : Byte) :
    (writeByte s sp a v).errf = s.errf := by
  unfold writeByte; split <;> [split; rfl; rfl; rfl] <;> simp
@[simp] theorem writeByte_ttReady (s : State) (sp : Space) (a : Nat) (v : Byte) :
    (writeByte s sp a v).ttReady = s.ttReady := by
  unfold writeByte; split <;> [split; rfl; rfl; rfl] <;> simp
@[simp] theorem writeByte_authOk (s : State) (sp : Space) (a : Nat) (v : Byte) :
    (writeByte s sp a v).authOk = s.authOk := by
  unfold writeByte; split <;> [split; rfl; rfl; rfl] <;> simp
@[simp] theorem writeByte_phase (s : State) (sp : Space) (a : Nat) (v : Byte) :
    (writeByte s sp a v).phase = s.phase := by
  unfold writeByte; split <;> [split; rfl; rfl; rfl] <;> simp
@[simp] theorem writeByte_rk (s : State) (sp : Space) (a : Nat) (v : Byte) :
    (writeByte s sp a v).rk = s.rk := by
  unfold writeByte; split <;> [split; rfl; rfl; rfl] <;> simp
@[simp] theorem writeByte_tt (s : State) (sp : Space) (a : Nat) (v : Byte) :
    (writeByte s sp a v).tt = s.tt := by
  unfold writeByte; split <;> [split; rfl; rfl; rfl] <;> simp
@[simp] theorem writeByte_outbuf (s : State) (sp : Space) (a : Nat) (v : Byte) :
    (writeByte s sp a v).outbuf = s.outbuf := by
  unfold writeByte; split <;> [split; rfl; rfl; rfl] <;> simp
@[simp] theorem writeByte_pending (s : State) (sp : Space) (a : Nat) (v : Byte) :
    (writeByte s sp a v).pending = s.pending := by
  unfold writeByte; split <;> [split; rfl; rfl; rfl] <;> simp
@[simp] theorem writeByte_response (s : State) (sp : Space) (a : Nat) (v : Byte) :
    (writeByte s sp a v).response = s.response := by
  unfold writeByte; split <;> [split; rfl; rfl; rfl] <;> simp
@[simp] theorem writeByte_resets (s : State) (sp : Space) (a : Nat) (v : Byte) :
    (writeByte s sp a v).resets = s.resets := by
  unfold writeByte; split <;> [split; rfl; rfl; rfl] <;> simp

@[simp] theorem hostStore_blkout (s : State) (sp : Space) (a : Nat) (vs : List Byte) :
    (hostStore s sp a vs).blkout = s.blkout := by
  induction vs generalizing s a with
  | nil => rfl
  | cons v vs ih => simp [hostStore, ih]
@[simp] theorem hostStore_gfz (s : State) (sp : Space) (a : Nat) (vs : List Byte) :
    (hostStore s sp a vs).gfz = s.gfz := by
  induction vs generalizing s a with
  | nil => rfl
  | cons v vs ih => simp [hostStore, ih]
@[simp] theorem hostStore_cmd (s : State) (sp : Space) (a : Nat) (vs : List Byte) :
    (hostStore s sp a vs).cmd = s.cmd := by
  induction vs generalizing s a with
  | nil => rfl
  | cons v vs ih => simp [hostStore, ih]
@[simp] theorem hostStore_err (s : State) (sp : Space) (a : Nat) (vs : List Byte) :
    (hostStore s sp a vs).err = s.err := by
  induction vs generalizing s a with
  | nil => rfl
  | cons v vs ih => simp [hostStore, ih]
@[simp] theorem hostStore_errseen (s : State) (sp : Space) (a : Nat) (vs : List Byte) :
    (hostStore s sp a vs).errseen = s.errseen := by
  induction vs generalizing s a with
  | nil => rfl
  | cons v vs ih => simp [hostStore, ih]
@[simp] theorem hostStore_outlen (s : State) (sp : Space) (a : Nat) (vs : List Byte) :
    (hostStore s sp a vs).outlen = s.outlen := by
  induction vs generalizing s a with
  | nil => rfl
  | cons v vs ih => simp [hostStore, ih]
@[simp] theorem hostStore_cfgAadMax (s : State) (sp : Space) (a : Nat) (vs : List Byte) :
    (hostStore s sp a vs).cfgAadMax = s.cfgAadMax := by
  induction vs generalizing s a with
  | nil => rfl
  | cons v vs ih => simp [hostStore, ih]
@[simp] theorem hostStore_cfgMsgMax (s : State) (sp : Space) (a : Nat) (vs : List Byte) :
    (hostStore s sp a vs).cfgMsgMax = s.cfgMsgMax := by
  induction vs generalizing s a with
  | nil => rfl
  | cons v vs ih => simp [hostStore, ih]
@[simp] theorem hostStore_done (s : State) (sp : Space) (a : Nat) (vs : List Byte) :
    (hostStore s sp a vs).done = s.done := by
  induction vs generalizing s a with
  | nil => rfl
  | cons v vs ih => simp [hostStore, ih]
@[simp] theorem hostStore_errf (s : State) (sp : Space) (a : Nat) (vs : List Byte) :
    (hostStore s sp a vs).errf = s.errf := by
  induction vs generalizing s a with
  | nil => rfl
  | cons v vs ih => simp [hostStore, ih]
@[simp] theorem hostStore_ttReady (s : State) (sp : Space) (a : Nat) (vs : List Byte) :
    (hostStore s sp a vs).ttReady = s.ttReady := by
  induction vs generalizing s a with
  | nil => rfl
  | cons v vs ih => simp [hostStore, ih]
@[simp] theorem hostStore_authOk (s : State) (sp : Space) (a : Nat) (vs : List Byte) :
    (hostStore s sp a vs).authOk = s.authOk := by
  induction vs generalizing s a with
  | nil => rfl
  | cons v vs ih => simp [hostStore, ih]
@[simp] theorem hostStore_phase (s : State) (sp : Space) (a : Nat) (vs : List Byte) :
    (hostStore s sp a vs).phase = s.phase := by
  induction vs generalizing s a with
  | nil => rfl
  | cons v vs ih => simp [hostStore, ih]
@[simp] theorem hostStore_rk (s : State) (sp : Space) (a : Nat) (vs : List Byte) :
    (hostStore s sp a vs).rk = s.rk := by
  induction vs generalizing s a with
  | nil => rfl
  | cons v vs ih => simp [hostStore, ih]
@[simp] theorem hostStore_tt (s : State) (sp : Space) (a : Nat) (vs : List Byte) :
    (hostStore s sp a vs).tt = s.tt := by
  induction vs generalizing s a with
  | nil => rfl
  | cons v vs ih => simp [hostStore, ih]
@[simp] theorem hostStore_outbuf (s : State) (sp : Space) (a : Nat) (vs : List Byte) :
    (hostStore s sp a vs).outbuf = s.outbuf := by
  induction vs generalizing s a with
  | nil => rfl
  | cons v vs ih => simp [hostStore, ih]
@[simp] theorem hostStore_pending (s : State) (sp : Space) (a : Nat) (vs : List Byte) :
    (hostStore s sp a vs).pending = s.pending := by
  induction vs generalizing s a with
  | nil => rfl
  | cons v vs ih => simp [hostStore, ih]
@[simp] theorem hostStore_response (s : State) (sp : Space) (a : Nat) (vs : List Byte) :
    (hostStore s sp a vs).response = s.response := by
  induction vs generalizing s a with
  | nil => rfl
  | cons v vs ih => simp [hostStore, ih]
@[simp] theorem hostStore_resets (s : State) (sp : Space) (a : Nat) (vs : List Byte) :
    (hostStore s sp a vs).resets = s.resets := by
  induction vs generalizing s a with
  | nil => rfl
  | cons v vs ih => simp [hostStore, ih]

/-- A host write into a buffer (R64). -/
theorem hostStore_toAadbuf (s : State) (a : Nat) (vs : List Byte) :
    hostStore s .aadbuf a vs = { s with aadbuf := s.aadbuf.writeBytes a vs } := by
  induction vs generalizing s a with
  | nil => rfl
  | cons v vs ih => simp [hostStore, ih, writeByte]

/-- A host write into a buffer (R64). -/
theorem hostStore_toInbuf (s : State) (a : Nat) (vs : List Byte) :
    hostStore s .inbuf a vs = { s with inbuf := s.inbuf.writeBytes a vs } := by
  induction vs generalizing s a with
  | nil => rfl
  | cons v vs ih => simp [hostStore, ih, writeByte]

/-- A host write to `OUTBUF` changes nothing (R62). -/
theorem hostStore_toOutbuf (s : State) (a : Nat) (vs : List Byte) : hostStore s .outbuf a vs = s := by
  induction vs generalizing s a with
  | nil => rfl
  | cons v vs ih => simp [hostStore, ih, writeByte]

/-- A host write to `REG` leaves the buffers. -/
theorem hostStore_reg_buffers (s : State) (a : Nat) (vs : List Byte) :
    (hostStore s .reg a vs).aadbuf = s.aadbuf ∧ (hostStore s .reg a vs).inbuf = s.inbuf := by
  induction vs generalizing s a with
  | nil => exact ⟨rfl, rfl⟩
  | cons v vs ih =>
    obtain ⟨h1, h2⟩ := ih (writeByte s .reg a v) (a + 1)
    have : (writeByte s .reg a v).aadbuf = s.aadbuf ∧ (writeByte s .reg a v).inbuf = s.inbuf := by
      rcases hl : locate a with _ | ⟨r, i⟩
      · simp [writeByte, hl]
      · cases r <;> simp [writeByte, hl, writeRegByte]
    exact ⟨h1.trans this.1, h2.trans this.2⟩

/-- `RK_VALID` after a host write: kept, or cleared; and while it stays set, `KEY` and `KEYLEN` are as
before (R69). -/
theorem hostStore_keys (s : State) (sp : Space) (a : Nat) (vs : List Byte) :
    (hostStore s sp a vs).rkValid = true → s.rkValid = true ∧
      (hostStore s sp a vs).key = s.key ∧ (hostStore s sp a vs).keylen = s.keylen := by
  induction vs generalizing s a with
  | nil => exact fun h => ⟨h, rfl, rfl⟩
  | cons v vs ih =>
    intro h
    obtain ⟨h1, h2, h3⟩ := ih (writeByte s sp a v) (a + 1) h
    have : (writeByte s sp a v).rkValid = true → s.rkValid = true ∧
        (writeByte s sp a v).key = s.key ∧ (writeByte s sp a v).keylen = s.keylen := by
      unfold writeByte
      cases sp with
      | reg =>
        rcases locate a with _ | ⟨r, i⟩
        · exact fun h => ⟨h, rfl, rfl⟩
        · cases r <;> simp [writeRegByte]
      | aadbuf | inbuf | outbuf => exact fun h => ⟨h, rfl, rfl⟩
    obtain ⟨g1, g2, g3⟩ := this h1
    exact ⟨g1, h2.trans g2, h3.trans g3⟩

/-- A host write into `IV` stores its bytes. -/
theorem hostStore_toIv (s : State) (a : Nat) (vs : List Byte) (h1 : 0x050 ≤ a)
    (h2 : a + vs.length ≤ 0x060) :
    ∃ B, hostStore s .reg a vs = { s with iv := B } ∧
      ∀ i < 16, blockByte B i =
        if a ≤ 0x050 + i ∧ 0x050 + i < a + vs.length then vs.getD (0x050 + i - a) 0#8
        else blockByte s.iv i := by
  induction vs generalizing s a with
  | nil =>
    refine ⟨s.iv, ?_, fun i _ => by rw [if_neg (by simp)]⟩
    simp [hostStore]
  | cons v vs ih =>
    simp only [List.length_cons] at h2
    have ho : Reg.iv.offset = 0x050 := rfl
    have hl : locate a = some (.iv, a - 0x050) := by
      have := locate_offset .iv (a - 0x050) (by rw [ho, if_neg (by decide)]; omega)
      rwa [show Reg.iv.offset + (a - 0x050) = a by omega] at this
    have hw : writeByte s .reg a v = { s with iv := setBlockByte s.iv (a - 0x050) v } := by
      simp [writeByte, hl, writeRegByte]
    obtain ⟨B, e, hB⟩ := ih (writeByte s .reg a v) (a + 1) (by omega) (by omega)
    refine ⟨B, ?_, fun i hi => ?_⟩
    · rw [hostStore, e, hw]
    · rw [hB i hi, hw, blockByte_setBlockByte _ _ _ _ (by omega) hi]
      simp only [List.length_cons]
      rcases lt_trichotomy (0x050 + i) a with h | h | h
      · rw [if_neg (by omega), if_neg (by omega), if_neg (by omega)]
      · rw [if_neg (by omega), if_pos (by omega), if_pos (by omega), h, Nat.sub_self, List.getD_cons_zero]
      · by_cases h' : 0x050 + i < a + 1 + vs.length
        · rw [if_pos (by omega), if_pos (by omega),
            show 0x050 + i - a = (0x050 + i - (a + 1)) + 1 by omega, List.getD_cons_succ]
        · rw [if_neg (by omega), if_neg (by omega), if_neg (by omega)]

/-- A host write into `KEY` stores its bytes, and clears `RK_VALID` unless it is empty (R69). -/
theorem hostStore_toKey (s : State) (a : Nat) (vs : List Byte) (h1 : 0x040 ≤ a)
    (h2 : a + vs.length ≤ 0x050) :
    ∃ B, hostStore s .reg a vs = { s with key := B, rkValid := s.rkValid && vs.isEmpty } ∧
      ∀ i < 16, blockByte B i =
        if a ≤ 0x040 + i ∧ 0x040 + i < a + vs.length then vs.getD (0x040 + i - a) 0#8
        else blockByte s.key i := by
  induction vs generalizing s a with
  | nil =>
    refine ⟨s.key, ?_, fun i _ => by rw [if_neg (by simp)]⟩
    simp [hostStore]
  | cons v vs ih =>
    simp only [List.length_cons] at h2
    have ho : Reg.key.offset = 0x040 := rfl
    have hl : locate a = some (.key, a - 0x040) := by
      have := locate_offset .key (a - 0x040) (by rw [ho, if_neg (by decide)]; omega)
      rwa [show Reg.key.offset + (a - 0x040) = a by omega] at this
    have hw : writeByte s .reg a v = { s with key := setBlockByte s.key (a - 0x040) v, rkValid := false } := by
      simp [writeByte, hl, writeRegByte]
    obtain ⟨B, e, hB⟩ := ih (writeByte s .reg a v) (a + 1) (by omega) (by omega)
    refine ⟨B, ?_, fun i hi => ?_⟩
    · rw [hostStore, e, hw]
      simp
    · rw [hB i hi, hw, blockByte_setBlockByte _ _ _ _ (by omega) hi]
      simp only [List.length_cons]
      rcases lt_trichotomy (0x040 + i) a with h | h | h
      · rw [if_neg (by omega), if_neg (by omega), if_neg (by omega)]
      · rw [if_neg (by omega), if_pos (by omega), if_pos (by omega), h, Nat.sub_self, List.getD_cons_zero]
      · by_cases h' : 0x040 + i < a + 1 + vs.length
        · rw [if_pos (by omega), if_pos (by omega),
            show 0x040 + i - a = (0x040 + i - (a + 1)) + 1 by omega, List.getD_cons_succ]
        · rw [if_neg (by omega), if_neg (by omega), if_neg (by omega)]

/-! ## Reading after writing -/

/-- A register byte after a register byte was written, `STATUS` and `CMD` aside (R22, R35, R66). -/
theorem readRegByte_writeRegByte (s : State) (a a' i i' : Nat) (r r' : Reg) (v : Byte)
    (hl : locate a = some (r, i)) (hl' : locate a' = some (r', i')) (hs : r' ≠ .status)
    (hcmd : r ≠ .cmd) :
    readRegByte (writeRegByte s r i v) r' i' =
      if a' = a ∧ RegReadWrite a then v else readRegByte s r' i' := by
  obtain ⟨rfl, hi⟩ := offset_of_locate hl
  obtain ⟨rfl, hi'⟩ := offset_of_locate hl'
  have ho : ∀ r : Reg, r.offset = match r with
      | .id => 0x000 | .cmd => 0x004 | .status => 0x008 | .err => 0x00C | .errseen => 0x010
      | .keylen => 0x014 | .ivlen => 0x018 | .aadlen => 0x01C | .inlen => 0x020 | .outlen => 0x024
      | .cfgAadMax => 0x028 | .cfgMsgMax => 0x02C | .key => 0x040 | .iv => 0x050 | .blkin => 0x060
      | .blkout => 0x070 | .gfx => 0x080 | .gfy => 0x090 | .gfz => 0x0A0 | .h => 0x0B0
      | .y => 0x0C0 | .j0 => 0x0D0 | .ctr => 0x0E0 := by
    intro r
    cases r <;> rfl
  by_cases hr : r' = r
  · subst hr
    rw [ho] at hi hi' ⊢
    cases r' <;> simp only [RegReadWrite] <;> simp at hi hi' hs hcmd <;>
      simp only [writeRegByte, readRegByte]
    all_goals first
      | (rw [wordByte_setWordByte _ _ _ _ hi hi']; congr 1; apply propext; omega)
      | (rw [blockByte_setBlockByte _ _ _ _ hi hi']; congr 1; apply propext; omega)
      | (rw [if_neg]; omega)
  · rw [if_neg]
    · cases r <;> cases r' <;> first | rfl | exact absurd rfl hr | exact absurd rfl hs
    · rintro ⟨e, -⟩
      rw [e, hl] at hl'
      simp at hl'
      exact hr hl'.1.symm

/-- A byte after a byte was written, `STATUS` and `CMD` aside (R62, R65). -/
theorem readByte_writeByte (s : State) (sp : Space) (a : Nat) (v : Byte)
    (hw1 : s.aadbuf.wf = true) (hw2 : s.inbuf.wf = true) (hc : ¬ (sp = .reg ∧ 4 ≤ a ∧ a < 8))
    (sp' : Space) (a' : Nat) (hs : ¬ (sp' = .reg ∧ 0x008 ≤ a' ∧ a' < 0x00C)) :
    readByte (writeByte s sp a v) sp' a' =
      if sp' = sp ∧ a' = a ∧ ReadWrite sp a then v else readByte s sp' a' := by
  have ho : Reg.status.offset = 8 ∧ Reg.cmd.offset = 4 := by decide
  cases sp with
  | reg =>
    rcases hl : locate a with _ | ⟨r, i⟩
    · have hn : ¬ RegReadWrite a := by
        have := (locate_isNone a).1 (by rw [hl]; rfl)
        unfold RegReadWrite
        omega
      simp [writeByte, hl, ReadWrite, hn]
    · cases sp' with
      | reg =>
        rcases hl' : locate a' with _ | ⟨r', i'⟩
        · have hn : ¬ (a' = a) := by
            rintro rfl
            rw [hl] at hl'
            simp at hl'
          simp [readByte, hl', hn]
        · have hr : r ≠ .cmd := by
            rintro rfl
            have := offset_of_locate hl
            simp [ho] at this
            simp at hc
            omega
          have hr' : r' ≠ .status := by
            rintro rfl
            have := offset_of_locate hl'
            simp [ho] at this
            simp at hs
            omega
          have := readRegByte_writeRegByte s a a' i i' r r' v hl hl' hr' hr
          simp only [readByte, writeByte, hl, hl', this, ReadWrite]
          congr 1
          simp
      | aadbuf | inbuf | outbuf =>
        simp only [writeByte, hl, readByte]
        cases r <;> simp [writeRegByte]
  | aadbuf =>
    cases sp' with
    | aadbuf => simp [writeByte, readByte, read_write hw1, ReadWrite]
    | reg =>
      simp only [writeByte, readByte]
      rcases locate a' with _ | ⟨r, i⟩ <;> [simp; (cases r <;> simp [readRegByte, statusWord])]
    | inbuf | outbuf => simp [writeByte, readByte]
  | inbuf =>
    cases sp' with
    | inbuf => simp [writeByte, readByte, read_write hw2, ReadWrite]
    | reg =>
      simp only [writeByte, readByte]
      rcases locate a' with _ | ⟨r, i⟩ <;> [simp; (cases r <;> simp [readRegByte, statusWord])]
    | aadbuf | outbuf => simp [writeByte, readByte]
  | outbuf => simp [writeByte, ReadWrite]

/-- A host write keeps the canonical form of the buffers. -/
theorem writeByte_wf (s : State) (sp : Space) (a : Nat) (v : Byte) (hw1 : s.aadbuf.wf = true)
    (hw2 : s.inbuf.wf = true) :
    (writeByte s sp a v).aadbuf.wf = true ∧ (writeByte s sp a v).inbuf.wf = true := by
  have := hostStore_reg_buffers s a [v]
  simp only [hostStore] at this
  cases sp with
  | reg =>
    rw [this.1, this.2]
    exact ⟨hw1, hw2⟩
  | aadbuf => exact ⟨wf_write hw1 _ _, hw2⟩
  | inbuf => exact ⟨hw1, wf_write hw2 _ _⟩
  | outbuf => exact ⟨hw1, hw2⟩

/-- A byte after a host write, `STATUS` and `CMD` aside (R62, R65, R66). -/
theorem readByte_hostStore (s : State) (sp : Space) (a : Nat) (vs : List Byte)
    (hw1 : s.aadbuf.wf = true) (hw2 : s.inbuf.wf = true)
    (hc : ¬ (sp = .reg ∧ a < 8 ∧ 4 < a + vs.length))
    (sp' : Space) (a' : Nat) (hs : ¬ (sp' = .reg ∧ 0x008 ≤ a' ∧ a' < 0x00C)) :
    readByte (hostStore s sp a vs) sp' a' =
      if sp' = sp ∧ a ≤ a' ∧ a' < a + vs.length ∧ ReadWrite sp a'
      then vs.getD (a' - a) 0#8 else readByte s sp' a' := by
  induction vs generalizing s a with
  | nil =>
    simp only [hostStore, List.length_nil]
    rw [if_neg (by omega)]
  | cons v vs ih =>
    obtain ⟨w1, w2⟩ := writeByte_wf s sp a v hw1 hw2
    simp only [List.length_cons] at hc ⊢
    rw [hostStore, ih _ _ w1 w2 (fun h => hc ⟨h.1, by omega, by omega⟩),
      readByte_writeByte s sp a v hw1 hw2 (fun h => hc ⟨h.1, by omega, by omega⟩) sp' a' hs]
    rcases lt_trichotomy a' a with h | rfl | h
    · rw [if_neg (by omega), if_neg (by omega), if_neg (by omega)]
    · rw [if_neg (by omega)]
      simp
    · obtain ⟨k, rfl⟩ : ∃ k, a' = a + 1 + k := ⟨a' - (a + 1), by omega⟩
      rw [show a + 1 + k - (a + 1) = k by omega, show a + 1 + k - a = k + 1 by omega,
        List.getD_cons_succ, if_neg (c := sp' = sp ∧ a + 1 + k = a ∧ ReadWrite sp a) (by omega)]
      congr 1
      apply propext
      constructor
      · rintro ⟨h1, h2, h3, h4⟩
        exact ⟨h1, by omega, by omega, h4⟩
      · rintro ⟨h1, h2, h3, h4⟩
        exact ⟨h1, by omega, by omega, h4⟩

/-! ## The cases of a step -/

/-- The event is a hard reset (R240). -/
theorem step_hardReset {s : State} {rest : List HostEvent} (h : s.pending = .hardReset :: rest) :
    step s = .next (hardReset { s with pending := rest }) := by
  simp [step, nextAction, h]

/-- The event is a read (R65). -/
theorem step_read {s : State} {rest : List HostEvent} {sp : Space} {addr n : Nat}
    (h : s.pending = .read sp addr n :: rest) :
    step s = .next { s with pending := rest, response := hostRead s sp addr n } := by
  simp only [step, nextAction, h]

/-- The event is a write that is refused (R70). -/
theorem step_write_refused {s : State} {rest : List HostEvent} {sp : Space} {addr : Nat}
    {data : List Byte} (h : s.pending = .write sp addr data :: rest)
    (hb : busError s sp addr data.length true = true) :
    step s = .next { s with pending := rest, response := .busError } := by
  have hb' : busError { s with pending := rest } sp addr data.length true = true := hb
  simp [step, nextAction, h, hostWrite, hb']

/-- The event is the write of a word to `CMD` (R37, R110). -/
theorem step_command {s : State} {rest : List HostEvent} {w : Word}
    (h : s.pending = .write .reg 0x004 (bytes32 w) :: rest) :
    step s = runWord w { s with pending := rest, response := .accepted } := by
  have hl : (bytes32 w).length = 4 := rfl
  simp [step, nextAction, h, hostWrite, hl]

/-- An accepted write at the offset of `CMD` has four bytes (R37, R70). -/
theorem length_of_cmd_write {s : State} {data : List Byte}
    (hb : busError s .reg 0x004 data.length true = false) : data.length = 4 := by
  rcases (busError_bounds hb).1 with h | h | h
  · rw [h] at hb
    have : busError s .reg 0x004 1 true = true := rfl
    rw [hb] at this
    exact absurd this (by simp)
  · rw [h] at hb
    have : busError s .reg 0x004 2 true = true := rfl
    rw [hb] at this
    exact absurd this (by simp)
  · exact h

/-- Four bytes are the bytes of their word. -/
theorem bytes32_wordOfBytes {data : List Byte} (h : data.length = 4) :
    bytes32 (wordOfBytes data) = data := by
  match data, h with
  | [a, b, c, d], _ =>
    have key : ∀ j < 4, wordByte (wordOfBytes [a, b, c, d]) j = [a, b, c, d].getD j 0#8 := by
      intro j hj
      apply BitVec.eq_of_getLsbD_eq
      intro k hk
      rw [getLsbD_wordByte]
      simp only [wordOfBytes, be32, BitVec.getLsbD_append]
      interval_cases j <;> simp [hk, show ¬ 24 + k < 8 by omega, show ¬ 16 + k < 8 by omega,
        show ¬ 8 + k < 8 by omega, show ¬ 24 + k - 8 < 8 by omega, show ¬ 16 + k - 8 < 8 by omega,
        show 8 + k - 8 = k by omega, show 16 + k - 8 - 8 = k by omega,
        show ¬ 24 + k - 8 - 8 < 8 by omega, show 24 + k - 8 - 8 - 8 = k by omega]
    simpa [bytes32] using And.intro (key 0 (by omega)) (And.intro (key 1 (by omega))
      (And.intro (key 2 (by omega)) (key 3 (by omega))))

/-- The event is an accepted write that runs no command (R65). -/
theorem step_store {s : State} {rest : List HostEvent} {sp : Space} {addr : Nat} {data : List Byte}
    (h : s.pending = .write sp addr data :: rest)
    (hb : busError s sp addr data.length true = false) (hc : ¬ (sp = .reg ∧ addr = 0x004)) :
    step s = .next { hostStore { s with pending := rest } sp addr data with response := .accepted } := by
  have hb' : busError { s with pending := rest } sp addr data.length true = false := hb
  simp [step, nextAction, h, hostWrite, hb', hc]

/-- Everything a step can be (R20, R65, R110, R240). -/
theorem step_cases (s : State) :
    (s.pending = [] ∧ step s = .next s) ∨
    (∃ rest, s.pending = .hardReset :: rest ∧ step s = .next (hardReset { s with pending := rest })) ∨
    (∃ rest r, step s = .next { s with pending := rest, response := r }) ∨
    (∃ rest w, s.pending = .write .reg 0x004 (bytes32 w) :: rest ∧
      step s = runWord w { s with pending := rest, response := .accepted }) ∨
    (∃ rest sp addr data, s.pending = .write sp addr data :: rest ∧
      busError s sp addr data.length true = false ∧ ¬ (sp = .reg ∧ addr = 0x004) ∧
      step s = .next { hostStore { s with pending := rest } sp addr data with
        response := .accepted }) := by
  rcases h : s.pending with _ | ⟨e, rest⟩
  · exact .inl ⟨rfl, by simp [step, nextAction, h]⟩
  · cases e with
    | hardReset => exact .inr (.inl ⟨rest, rfl, step_hardReset h⟩)
    | read sp addr n => exact .inr (.inr (.inl ⟨rest, _, step_read h⟩))
    | write sp addr data =>
      cases hb : busError s sp addr data.length true with
      | true => exact .inr (.inr (.inl ⟨rest, _, step_write_refused h hb⟩))
      | false =>
        by_cases hc : sp = .reg ∧ addr = 0x004
        · obtain ⟨rfl, rfl⟩ := hc
          have hd := bytes32_wordOfBytes (length_of_cmd_write hb)
          rw [← hd] at h
          exact .inr (.inr (.inr (.inl ⟨rest, wordOfBytes data, by rw [hd], step_command h⟩)))
        · exact .inr (.inr (.inr (.inr ⟨rest, sp, addr, data, rfl, hb, hc, step_store h hb hc⟩)))

end Sys2Proof.Laws
end

