-- ==== Sys2Proof/Laws/Caller.lean ====
section
/-! SUPPORT. The laws of the caller operations: what one access does, what the accesses of a `PUT`, of a
`GET` and of a write of a length register do, and the script that an operation performs (R97 to R99). -/

namespace Sys2Proof.Laws

open Sys2Proof.Machine

@[simp] theorem andThen_next {α β : Type} (a : α) (s : State) (f : α → State → Performed β) :
    andThen (.next (a, s)) f = f a s := rfl

/-- Going on twice is going on once. -/
theorem andThen_andThen {α β γ : Type} (p : Performed α) (f : α → State → Performed β)
    (g : β → State → Performed γ) :
    andThen (andThen p f) g = andThen p fun a s => andThen (f a s) g := by
  rcases p with ⟨a, s⟩ | r | r <;> rfl

/-- A chain of accesses that ends well began well. -/
theorem andThen_eq_next {α β : Type} {p : Performed α} {f : α → State → Performed β} {b : β × State}
    (h : andThen p f = .next b) : ∃ a s, p = .next (a, s) ∧ f a s = .next b := by
  rcases p with ⟨a, s⟩ | r | r
  · exact ⟨a, s, rfl, h⟩
  · exact absurd h (by simp [andThen])
  · exact absurd h (by simp [andThen])

@[simp] theorem perform_nil (s : State) : perform [] s = .next ([], s) := rfl

theorem perform_cons (e : HostEvent) (es : List HostEvent) (s : State) :
    perform (e :: es) s =
      andThen (access e s) fun r t => andThen (perform es t) fun rs u => .next (r :: rs, u) := rfl

/-- Two scripts one after the other. -/
theorem perform_append (es fs : List HostEvent) (s : State) :
    perform (es ++ fs) s =
      andThen (perform es s) fun rs t => andThen (perform fs t) fun qs u => .next (rs ++ qs, u) := by
  induction es generalizing s with
  | nil =>
    simp only [List.nil_append, perform_nil, andThen_next]
    rcases perform fs s with ⟨qs, u⟩ | r | r <;> rfl
  | cons e es ih => simp [perform_cons, ih, andThen_andThen]

/-! ## One access -/

/-- The port's fields do not enter the answer of a read. -/
theorem hostRead_frame (s : State) (p : List HostEvent) (r : Response) (sp : Space) (addr n : Nat) :
    hostRead { s with pending := p, response := r } sp addr n = hostRead s sp addr n := by
  have h : readByte { s with pending := p, response := r } sp = readByte s sp := by
    funext a
    cases sp <;> [skip; rfl; rfl; rfl]
    unfold readByte
    rcases locate a with _ | ⟨q, i⟩ <;> [rfl; (cases q <;> rfl)]
  rw [hostRead, hostRead, h]
  rfl

/-- A read answers what the port holds and leaves the engine as it is (R65, R69). -/
theorem access_read (sp : Space) (addr n : Nat) (s : State) :
    access (.read sp addr n) s =
      .next (hostRead s sp addr n, { s with response := hostRead s sp addr n }) := by
  rw [access, step_read rfl, ← hostRead_frame s (.read sp addr n :: s.pending) s.response]

/-- The port's fields do not enter a store. -/
theorem hostStore_frame (s : State) (p : List HostEvent) (r : Response) (sp : Space) (addr : Nat)
    (data : List Byte) :
    hostStore { s with pending := p, response := r } sp addr data =
      { hostStore s sp addr data with pending := p, response := r } := by
  induction data generalizing s addr with
  | nil => rfl
  | cons v vs ih =>
    have h : writeByte { s with pending := p, response := r } sp addr v =
        { writeByte s sp addr v with pending := p, response := r } := by
      cases sp <;> [skip; rfl; rfl; rfl]
      unfold writeByte
      rcases locate addr with _ | ⟨q, i⟩ <;> [rfl; (cases q <;> rfl)]
    rw [hostStore, h, ih, hostStore]

/-- The answer of an earlier access does not enter a store. -/
theorem hostStore_answered (s : State) (r : Response) (sp : Space) (addr : Nat) (data : List Byte) :
    hostStore { s with response := r } sp addr data = { hostStore s sp addr data with response := r } :=
  (hostStore_frame s s.pending r sp addr data).trans (by rw [← hostStore_pending s sp addr data])

/-- An accepted write that runs no command stores its bytes (R65). -/
theorem access_store {sp : Space} {addr : Nat} {data : List Byte} {s : State}
    (hb : busError s sp addr data.length true = false) (hc : ¬ (sp = .reg ∧ addr = 0x004)) :
    access (.write sp addr data) s =
      .next (.accepted, { hostStore s sp addr data with response := .accepted }) := by
  have e : step { s with pending := .write sp addr data :: s.pending } =
      .next { hostStore s sp addr data with pending := s.pending, response := .accepted } := by
    have hb' : busError { s with pending := .write sp addr data :: s.pending } sp addr data.length true =
        false := hb
    rw [step_store rfl hb' hc]
    exact congrArg (fun t : State => (.next { t with response := .accepted } : Result))
      (hostStore_frame s s.pending s.response sp addr data)
  rw [access, e, ← hostStore_pending s sp addr data]

/-- A write of a command's word runs the command (R37, R110). -/
theorem access_cmdLine (i : Instr) (s : State) {u : State} (h : decode (encode i) = .ok i)
    (he : exec i { s with response := .accepted } = .next u) :
    access (cmdLine i) s = .next (u.response, u) := by
  have hs : step { s with pending := cmdLine i :: s.pending } = .next u := by
    rw [step_command rfl, runWord, h]
    exact he
  rw [access, hs]

/-! ## The accesses of a PUT and of a GET -/

/-- A naturally aligned write that fits is accepted, in a buffer or among the data registers (R70). -/
theorem busError_data {s : State} {sp : Space} {addr n : Nat} {w : Bool} (hn : n = 1 ∨ n = 2 ∨ n = 4)
    (ha : addr % n = 0) (hs : addr + n ≤ spaceSize s sp)
    (hr : sp = .reg → 0x040 ≤ addr ∧ addr + n ≤ 0x0F0) : busError s sp addr n w = false := by
  rw [← Bool.not_eq_true, busError_iff]
  rintro (h | h | h | ⟨h, a, h1, h2, h3⟩ | ⟨h, -, -, a, h1, h2, h3⟩)
  · omega
  · exact h ha
  · omega
  · have := hr h
    omega
  · have := hr h
    omega

/-- The accesses of a `PUT` store the sequence (R98): at a 4-byte aligned place, in a buffer or among
the data registers, where it fits. -/
theorem perform_put (sp : Space) (addr : Nat) (data : List Byte) (s : State) (ha : addr % 4 = 0)
    (hs : addr + data.length ≤ spaceSize s sp)
    (hr : sp = .reg → 0x040 ≤ addr ∧ addr + data.length ≤ 0x0F0) :
    ∃ rs r, perform (put ⟨sp, addr⟩ data) s = .next (rs, { hostStore s sp addr data with response := r }) := by
  have one : ∀ (s : State) (addr : Nat) (data : List Byte),
      data.length = 1 ∨ data.length = 2 ∨ data.length = 4 → addr % data.length = 0 →
      addr + data.length ≤ spaceSize s sp → (sp = .reg → 0x040 ≤ addr ∧ addr + data.length ≤ 0x0F0) →
      access (.write sp addr data) s =
        .next (.accepted, { hostStore s sp addr data with response := .accepted }) :=
    fun s addr data h1 h2 h3 h4 => access_store (busError_data h1 h2 h3 h4) fun h => by
      have := h4 h.1
      omega
  have size : ∀ (s : State) (a : Nat) (vs : List Byte),
      spaceSize (hostStore s sp a vs) sp = spaceSize s sp := by
    intro s a vs
    cases sp <;> simp [spaceSize, bufSize]
  match data, hs, hr with
  | [], _, _ => exact ⟨_, _, rfl⟩
  | [a], hs, hr =>
    refine ⟨[.accepted], .accepted, ?_⟩
    rw [put, perform_cons, one s addr [a] (by simp) (by simp; omega) hs hr]
    rfl
  | [a, b], hs, hr =>
    refine ⟨[.accepted], .accepted, ?_⟩
    rw [put, perform_cons, one s addr [a, b] (by simp) (by simp; omega) hs hr]
    rfl
  | [a, b, c], hs, hr =>
    simp only [List.length_cons, List.length_nil] at hs hr
    have e : hostStore (hostStore s sp addr [a, b]) sp (addr + 2) [c] =
        hostStore s sp addr [a, b, c] := rfl
    refine ⟨[.accepted, .accepted], .accepted, ?_⟩
    rw [put, perform_cons, one s addr [a, b] (by simp) (by simp; omega) (by simp; omega)
      (fun h => by have := hr h; simp; omega), andThen_next, perform_cons,
      one _ (addr + 2) [c] (by simp) (by simp; omega)
        (by show _ ≤ spaceSize (hostStore s sp addr [a, b]) sp; rw [size]; simp; omega)
        (fun h => by have := hr h; simp; omega), hostStore_answered, e]
    rfl
  | a :: b :: c :: d :: bs, hs, hr =>
    simp only [List.length_cons] at hs hr
    obtain ⟨rs, r, ih⟩ := perform_put sp (addr + 4) bs
      { hostStore s sp addr [a, b, c, d] with response := .accepted } (by omega)
      (by show _ ≤ spaceSize (hostStore s sp addr [a, b, c, d]) sp; rw [size]; omega)
      (fun h => by have := hr h; omega)
    have e : hostStore (hostStore s sp addr [a, b, c, d]) sp (addr + 4) bs =
        hostStore s sp addr (a :: b :: c :: d :: bs) := rfl
    refine ⟨.accepted :: rs, r, ?_⟩
    rw [put, perform_cons, one s addr [a, b, c, d] (by simp) (by simp; omega) (by simp; omega)
      (fun h => by have := hr h; simp; omega), andThen_next]
    show andThen (perform (put ⟨sp, addr + 4⟩ bs) _) _ = _
    rw [ih, hostStore_answered, e]
    rfl

/-- The accesses of a `GET` read the bytes of `OUTBUF` and leave the engine as it is (R98). -/
theorem perform_get (addr n : Nat) (s : State) (ha : addr % 4 = 0) (hs : addr + n ≤ bufSize s) :
    ∃ rs r, perform (Machine.get ⟨.outbuf, addr⟩ n) s = .next (rs, { s with response := r }) ∧
      rs.flatMap Response.bytes = s.outbuf.readBytes addr n := by
  have one : ∀ (s : State) (addr n : Nat), n = 1 ∨ n = 2 ∨ n = 4 → addr % n = 0 →
      addr + n ≤ bufSize s → access (.read .outbuf addr n) s =
        .next (.data (s.outbuf.readBytes addr n),
          { s with response := .data (s.outbuf.readBytes addr n) }) := by
    intro s addr n h1 h2 h3
    have hb : busError s .outbuf addr n false = false :=
      busError_data (sp := .outbuf) h1 h2 h3 fun h => absurd h (by decide)
    rw [access_read, hostRead, hb, readBytes_eq_map]
    rfl
  match n, hs with
  | 0, _ => exact ⟨[], s.response, rfl, rfl⟩
  | 1, hs =>
    refine ⟨[.data (s.outbuf.readBytes addr 1)], .data (s.outbuf.readBytes addr 1), ?_, ?_⟩
    · rw [Machine.get, perform_cons, one s addr 1 (by simp) (by omega) hs]
      rfl
    · simp [Response.bytes]
  | 2, hs =>
    refine ⟨[.data (s.outbuf.readBytes addr 2)], .data (s.outbuf.readBytes addr 2), ?_, ?_⟩
    · rw [Machine.get, perform_cons, one s addr 2 (by simp) (by omega) hs]
      rfl
    · simp [Response.bytes]
  | 3, hs =>
    refine ⟨[.data (s.outbuf.readBytes addr 2), .data (s.outbuf.readBytes (addr + 2) 1)],
      .data (s.outbuf.readBytes (addr + 2) 1), ?_, ?_⟩
    · rw [Machine.get, perform_cons, one s addr 2 (by simp) (by omega) (by omega), andThen_next, perform_cons]
      dsimp only
      rw [one { s with response := .data (s.outbuf.readBytes addr 2) } (addr + 2) 1 (by simp) (by omega) hs]
      rfl
    · simp [Response.bytes, readBytes_succ]
  | n + 4, hs =>
    obtain ⟨rs, r, h1, h2⟩ := perform_get (addr + 4) n
      { s with response := .data (s.outbuf.readBytes addr 4) } (by omega) (by show _ ≤ bufSize s; omega)
    refine ⟨.data (s.outbuf.readBytes addr 4) :: rs, r, ?_, ?_⟩
    · rw [Machine.get, perform_cons, one s addr 4 (by simp) (by omega) (by omega), andThen_next]
      show andThen (perform (Machine.get ⟨.outbuf, addr + 4⟩ n) _) _ = _
      rw [h1]
      rfl
    · rw [List.flatMap_cons, h2]
      simp [Response.bytes, readBytes_succ, Nat.add_assoc]

/-! ## The length registers -/

/-- A word replaced byte by byte. -/
theorem setWordByte_all (v w : Word) :
    setWordByte (setWordByte (setWordByte (setWordByte v 0 (wordByte w 0)) 1 (wordByte w 1)) 2
      (wordByte w 2)) 3 (wordByte w 3) = w := by
  apply word_ext
  intro j hj
  rw [wordByte_setWordByte _ _ _ _ (by omega) hj, wordByte_setWordByte _ _ _ _ (by omega) hj,
    wordByte_setWordByte _ _ _ _ (by omega) hj, wordByte_setWordByte _ _ _ _ (by omega) hj]
  interval_cases j <;> rfl

/-- `WR4 KEYLEN` (R40, R69). -/
theorem access_keylen (w : Word) (s : State) : access (wr4 (Reg.keylen.at 0) w) s =
    .next (.accepted, { s with keylen := w, rkValid := false, response := .accepted }) := by
  have hb : busError s .reg 0x014 4 true = false := rfl
  refine (access_store (data := bytes32 w) hb (by decide)).trans ?_
  simp only [bytes32, hostStore, writeByte, show locate 0x014 = some (.keylen, 0) from rfl,
    show locate (0x014 + 1) = some (.keylen, 1) from rfl,
    show locate (0x014 + 1 + 1) = some (.keylen, 2) from rfl,
    show locate (0x014 + 1 + 1 + 1) = some (.keylen, 3) from rfl, writeRegByte, setWordByte_all]

/-- `WR4 IVLEN` (R41). -/
theorem access_ivlen (w : Word) (s : State) : access (wr4 (Reg.ivlen.at 0) w) s =
    .next (.accepted, { s with ivlen := w, response := .accepted }) := by
  have hb : busError s .reg 0x018 4 true = false := rfl
  refine (access_store (data := bytes32 w) hb (by decide)).trans ?_
  simp only [bytes32, hostStore, writeByte, show locate 0x018 = some (.ivlen, 0) from rfl,
    show locate (0x018 + 1) = some (.ivlen, 1) from rfl,
    show locate (0x018 + 1 + 1) = some (.ivlen, 2) from rfl,
    show locate (0x018 + 1 + 1 + 1) = some (.ivlen, 3) from rfl, writeRegByte, setWordByte_all]

/-- `WR4 AADLEN` (R42). -/
theorem access_aadlen (w : Word) (s : State) : access (wr4 (Reg.aadlen.at 0) w) s =
    .next (.accepted, { s with aadlen := w, response := .accepted }) := by
  have hb : busError s .reg 0x01C 4 true = false := rfl
  refine (access_store (data := bytes32 w) hb (by decide)).trans ?_
  simp only [bytes32, hostStore, writeByte, show locate 0x01C = some (.aadlen, 0) from rfl,
    show locate (0x01C + 1) = some (.aadlen, 1) from rfl,
    show locate (0x01C + 1 + 1) = some (.aadlen, 2) from rfl,
    show locate (0x01C + 1 + 1 + 1) = some (.aadlen, 3) from rfl, writeRegByte, setWordByte_all]

/-- `WR4 INLEN` (R43). -/
theorem access_inlen (w : Word) (s : State) : access (wr4 (Reg.inlen.at 0) w) s =
    .next (.accepted, { s with inlen := w, response := .accepted }) := by
  have hb : busError s .reg 0x020 4 true = false := rfl
  refine (access_store (data := bytes32 w) hb (by decide)).trans ?_
  simp only [bytes32, hostStore, writeByte, show locate 0x020 = some (.inlen, 0) from rfl,
    show locate (0x020 + 1) = some (.inlen, 1) from rfl,
    show locate (0x020 + 1 + 1) = some (.inlen, 2) from rfl,
    show locate (0x020 + 1 + 1 + 1) = some (.inlen, 3) from rfl, writeRegByte, setWordByte_all]

/-- `RD4 ERR` (R38). -/
theorem access_err (s : State) : access (rd4 (Reg.err.at 0)) s =
    .next (.data (bytes32 s.err), { s with response := .data (bytes32 s.err) }) :=
  access_read .reg 0x00C 4 s

/-- `RD4 OUTLEN` (R44). -/
theorem access_outlen (s : State) : access (rd4 (Reg.outlen.at 0)) s =
    .next (.data (bytes32 s.outlen), { s with response := .data (bytes32 s.outlen) }) :=
  access_read .reg 0x024 4 s

/-! ## The operands of an operation -/

/-- A length register holds the length of a sequence that it can say. -/
theorem lengthWord_eq {bs : List Byte} (h : bs.length < 2 ^ 32) :
    lengthWord bs = BitVec.ofNat 32 bs.length := by
  rw [lengthWord, Nat.min_eq_left (by omega)]

/-- The first sixteen bytes of a sequence, one by one. -/
theorem getD_take_sixteen (bs : List Byte) (i : Nat) (h : i < 16) :
    (bs.take 16).getD i 0#8 = bs.getD i 0#8 := by
  simp [List.getD_eq_getElem?_getD, h]

/-- A script that ends with one more access. -/
theorem perform_concat {es : List HostEvent} {e : HostEvent} {s t u : State} {rs : List Response}
    {r : Response} (h1 : perform es s = .next (rs, t)) (h2 : access e t = .next (r, u)) :
    perform (es ++ [e]) s = .next (rs ++ [r], u) := by
  rw [perform_append, h1, andThen_next, perform_cons, h2]
  rfl

/-- `SETKEY` for a key of any length (R98, R99). -/
theorem perform_setKey (key : List Byte) (s : State) : ∃ (K : Block) (rs : List Response),
    perform (setKey key) s = .next (rs,
      { s with key := K, keylen := lengthWord key, rkValid := false, response := .accepted }) ∧
    ∀ i < 16, blockByte K i = if i < key.length then key.getD i 0#8 else blockByte s.key i := by
  have hl : (key.take 16).length ≤ 16 := by simp
  obtain ⟨rs, r, h⟩ := perform_put .reg 0x040 (key.take 16) s rfl
    (by show _ ≤ 256; omega) (fun _ => by omega)
  obtain ⟨K, hK, hb⟩ := hostStore_toKey s 0x040 (key.take 16) le_rfl (by omega)
  rw [hK] at h
  refine ⟨K, _, perform_concat h (access_keylen _ _), fun i hi => ?_⟩
  rw [hb i hi, show 0x040 + i - 0x040 = i by omega, getD_take_sixteen _ _ hi, List.length_take]
  exact if_congr (by omega) rfl rfl

/-- `SETIV` for an IV of any length (R98, R99). -/
theorem perform_setIv (iv : List Byte) (s : State) : ∃ (I : Block) (rs : List Response),
    perform (setIv iv) s = .next (rs,
      { s with iv := I, ivlen := lengthWord iv, response := .accepted }) ∧
    ∀ i < 16, blockByte I i = if i < iv.length then iv.getD i 0#8 else blockByte s.iv i := by
  have hl : (iv.take 16).length ≤ 16 := by simp
  obtain ⟨rs, r, h⟩ := perform_put .reg 0x050 (iv.take 16) s rfl
    (by show _ ≤ 256; omega) (fun _ => by omega)
  obtain ⟨I, hI, hb⟩ := hostStore_toIv s 0x050 (iv.take 16) le_rfl (by omega)
  rw [hI] at h
  refine ⟨I, _, perform_concat h (access_ivlen _ _), fun i hi => ?_⟩
  rw [hb i hi, show 0x050 + i - 0x050 = i by omega, getD_take_sixteen _ _ hi, List.length_take]
  exact if_congr (by omega) rfl rfl

/-- `SETAAD` for AAD that fits (R98). -/
theorem perform_setAad (aad : List Byte) (s : State) (h : aad.length ≤ s.cfgAadMax.toNat) :
    ∃ rs, perform (setAad aad) s = .next (rs,
      { s with
          aadbuf := s.aadbuf.writeBytes 0 aad
          aadlen := lengthWord aad
          response := .accepted }) := by
  obtain ⟨rs, r, hp⟩ := perform_put .aadbuf 0 aad s rfl (by show _ ≤ s.cfgAadMax.toNat; omega) (by simp)
  rw [hostStore_toAadbuf] at hp
  exact ⟨_, perform_concat hp (access_aadlen _ _)⟩

/-- `SETIN` for an input that fits (R98). -/
theorem perform_setIn (data : List Byte) (s : State) (h : data.length ≤ bufSize s) :
    ∃ rs, perform (setIn data) s = .next (rs,
      { s with
          inbuf := s.inbuf.writeBytes 0 data
          inlen := lengthWord data
          response := .accepted }) := by
  obtain ⟨rs, r, hp⟩ := perform_put .inbuf 0 data s rfl (by show _ ≤ bufSize s; omega) (by simp)
  rw [hostStore_toInbuf] at hp
  exact ⟨_, perform_concat hp (access_inlen _ _)⟩

/-- The lines of an operation up to its command present its operands (R99). -/
theorem perform_operandScript (key iv input aad : List Byte) (s : State)
    (ha : aad.length ≤ s.cfgAadMax.toNat) (hi : input.length ≤ bufSize s) :
    ∃ (K I : Block) (rs : List Response),
      perform (operandScript key iv input aad) s = .next (rs,
        { s with
            key := K
            keylen := lengthWord key
            rkValid := false
            iv := I
            ivlen := lengthWord iv
            aadbuf := s.aadbuf.writeBytes 0 aad
            aadlen := lengthWord aad
            inbuf := s.inbuf.writeBytes 0 input
            inlen := lengthWord input
            response := .accepted }) ∧
      (∀ i < 16, blockByte K i = if i < key.length then key.getD i 0#8 else blockByte s.key i) ∧
      (∀ i < 16, blockByte I i = if i < iv.length then iv.getD i 0#8 else blockByte s.iv i) := by
  obtain ⟨K, rs1, h1, hK⟩ := perform_setKey key s
  obtain ⟨I, rs2, h2, hI⟩ := perform_setIv iv
    { s with key := K, keylen := lengthWord key, rkValid := false, response := .accepted }
  obtain ⟨rs3, h3⟩ := perform_setAad aad
    { s with
        key := K
        keylen := lengthWord key
        rkValid := false
        iv := I
        ivlen := lengthWord iv
        response := .accepted } ha
  obtain ⟨rs4, h4⟩ := perform_setIn input
    { s with
        key := K
        keylen := lengthWord key
        rkValid := false
        iv := I
        ivlen := lengthWord iv
        aadbuf := s.aadbuf.writeBytes 0 aad
        aadlen := lengthWord aad
        response := .accepted } hi
  refine ⟨K, I, ((rs1 ++ rs2) ++ rs3) ++ rs4, ?_, hK, hI⟩
  rw [operandScript, perform_append, perform_append, perform_append, h1, andThen_next]
  simp only [h2, h3, h4, andThen_next]

/-! ## The script of an operation -/

/-- A caller operation whose operands are presented and whose command ends, with no more output than
`OUTBUF` holds, gives back the command's error code and output (R99). -/
theorem call_eq {i : Instr} {key iv input aad : List Byte} {s t u : State} {rs : List Response}
    (hp : perform (operandScript key iv input aad) s = .next (rs, t)) (hd : decode (encode i) = .ok i)
    (he : exec i { t with response := .accepted } = .next u) (ho : u.outlen.toNat ≤ bufSize u) :
    ∃ r, call i key iv input aad s =
      .next (⟨u.err, u.outbuf.readBytes 0 u.outlen.toNat⟩, { u with response := r }) := by
  obtain ⟨qs, r, hg, hq⟩ := perform_get 0 u.outlen.toNat
    { u with response := .data (bytes32 u.outlen) } rfl (by show 0 + _ ≤ bufSize u; omega)
  refine ⟨r, ?_⟩
  rw [call, perform_concat hp (access_cmdLine i t hd he), andThen_next, access_err, andThen_next,
    access_outlen, andThen_next]
  simp only [Response.bytes, wordOfBytes_bytes32]
  rw [hg, andThen_next, hq]

/-- A caller operation is the performance of its script, with the number that `RD4 OUTLEN` answered
as the number of bytes that `GET` reads (R99). -/
theorem call_performs_script {i : Instr} {key iv input aad : List Byte} {s u : State} {r : CallResult}
    (h : call i key iv input aad s = .next (r, u)) :
    ∃ n rs, perform (callScript i key iv input aad n) s = .next (rs, u) := by
  obtain ⟨rs1, s1, h1, h⟩ := andThen_eq_next h
  obtain ⟨err, s2, h2, h⟩ := andThen_eq_next h
  obtain ⟨outlen, s3, h3, h⟩ := andThen_eq_next h
  obtain ⟨out, s4, h4, h⟩ := andThen_eq_next h
  obtain ⟨-, rfl⟩ : _ ∧ s4 = u := by simpa using h
  refine ⟨(wordOfBytes outlen.bytes).toNat, rs1 ++ (err :: outlen :: out), ?_⟩
  have hs : callScript i key iv input aad (wordOfBytes outlen.bytes).toNat =
      (operandScript key iv input aad ++ [cmdLine i]) ++ ([rd4 (Reg.err.at 0)] ++
        ([rd4 (Reg.outlen.at 0)] ++ Machine.get ⟨.outbuf, 0⟩ (wordOfBytes outlen.bytes).toNat)) := by
    simp [callScript]
  rw [hs, perform_append, h1, andThen_next, perform_append, perform_cons, h2, andThen_next, perform_nil,
    andThen_next, andThen_next, perform_append, perform_cons, h3, andThen_next, perform_nil,
    andThen_next, andThen_next, h4]
  rfl

end Sys2Proof.Laws
end

