-- ==== Sys2Proof/Laws/PerInstr.lean ====
section
/-! SUPPORT. Statements made instruction by instruction. `EncodesWellFormed`: the word of a command is a
well-formed command word and decodes to it, also as the four bytes that travel on the port (R90 to R96). -/

namespace Sys2Proof.Laws

/-- The word of `i` is well formed, and it decodes to `i`, as a word and as bytes. -/
def EncodesWellFormed.Statement (i : Instr) : Prop :=
  (commandFields (encode i)).wellFormed = true ∧ decode (encode i) = .ok i ∧
    decodeBytes (Machine.bytes32 (encode i)) = .ok i

theorem EncodesWellFormed.nop : EncodesWellFormed.Statement .nop := ⟨rfl, rfl, rfl⟩

theorem EncodesWellFormed.softReset : EncodesWellFormed.Statement .softReset := ⟨rfl, rfl, rfl⟩

theorem EncodesWellFormed.ttInit : EncodesWellFormed.Statement .ttInit := ⟨rfl, rfl, rfl⟩

theorem EncodesWellFormed.keyExpand : EncodesWellFormed.Statement .keyExpand := ⟨rfl, rfl, rfl⟩

theorem EncodesWellFormed.blkEnc (v : Variant) : EncodesWellFormed.Statement (.blkEnc v) := by
  cases v <;> exact ⟨rfl, rfl, rfl⟩

theorem EncodesWellFormed.blkDec (v : Variant) : EncodesWellFormed.Statement (.blkDec v) := by
  cases v <;> exact ⟨rfl, rfl, rfl⟩

theorem EncodesWellFormed.gfMul : EncodesWellFormed.Statement .gfMul := ⟨rfl, rfl, rfl⟩

theorem EncodesWellFormed.ghInit : EncodesWellFormed.Statement .ghInit := ⟨rfl, rfl, rfl⟩

theorem EncodesWellFormed.ghUpd : EncodesWellFormed.Statement .ghUpd := ⟨rfl, rfl, rfl⟩

theorem EncodesWellFormed.ghMsg : EncodesWellFormed.Statement .ghMsg := ⟨rfl, rfl, rfl⟩

theorem EncodesWellFormed.hDerive (v : Variant) : EncodesWellFormed.Statement (.hDerive v) := by
  cases v <;> exact ⟨rfl, rfl, rfl⟩

theorem EncodesWellFormed.j0Derive : EncodesWellFormed.Statement .j0Derive := ⟨rfl, rfl, rfl⟩

theorem EncodesWellFormed.ctrInc : EncodesWellFormed.Statement .ctrInc := ⟨rfl, rfl, rfl⟩

theorem EncodesWellFormed.ctrXcrypt (v : Variant) : EncodesWellFormed.Statement (.ctrXcrypt v) := by
  cases v <;> exact ⟨rfl, rfl, rfl⟩

theorem EncodesWellFormed.aeadEnc (v : Variant) : EncodesWellFormed.Statement (.aeadEnc v) := by
  cases v <;> exact ⟨rfl, rfl, rfl⟩

theorem EncodesWellFormed.aeadDec (v : Variant) : EncodesWellFormed.Statement (.aeadDec v) := by
  cases v <;> exact ⟨rfl, rfl, rfl⟩

end Sys2Proof.Laws
end

