-- ==== Sys2Proof/Laws/Records.lean ====
section
/-! SUPPORT. The outcome record that the shared operations write is the one that claims name (R110,
R180, R194, R220), and what the first action of a command does to the tables (R131). -/

namespace Sys2Proof.Laws

open Sys2Proof.Machine

/-- The record of a success. -/
theorem endCommand_none (w : Word) (s : State) : endCommand w none false s = s.succeeded w := rfl

/-- The record of an `AEAD_DEC` that succeeded. -/
theorem endCommand_authentic (w : Word) (s : State) :
    endCommand w none true s = { s.succeeded w with authOk := true } := rfl

/-- The record of an error. -/
theorem endCommand_some (w : Word) (e : ErrorKind) (s : State) :
    endCommand w (some e) false s = s.failed w e.code := by cases e <;> rfl

theorem clearOut_eq (s : State) : clearOut s = s.outCleared := rfl

theorem endCall_eq (s : State) : endCall s = s.callCleared := rfl

/-- A word that is no command leaves the record of `IllegalCommand` (R218). -/
theorem illegalCommand_eq (w : Word) (s : State) : illegalCommand w s = .next (s.failed w 6) := rfl

/-- The first action of a command leaves the tables as claims name it (R131). -/
theorem tablesFor_after (v : Variant) (s : State) :
    TablesAfter v s (tablesFor v s).tt (tablesFor v s).ttReady := by
  refine ⟨fun h => ?_, fun h => ?_⟩ <;> subst h
  · exact ⟨rfl, rfl⟩
  · rw [tablesFor_tableAccelerated, initTables_tt]
    refine ⟨initTables_ttReady s, fun h => if_pos h, fun h k b => ?_⟩
    rw [h]
    exact ttLookup_ttDef k b

end Sys2Proof.Laws
end

