-- ==== Sys2Proof/Tests/Slice0.lean ====
section
/-! SUPPORT. The model's own tests: ill-formed words refused, words written out bit by bit from the
opcode map, one-step tests against `95_test_vectors.md` (the vector is named in each comment), and for
every obligation with hypotheses a witness that meets them. -/

namespace Sys2Proof.Tests

open Sys2Proof Sys2Proof.Machine

/-! ## Ill-formed terms -/

/-- `RSV` is not zero. -/
theorem test_illFormed_rsv : (CommandWord.mk 1#23 0#1 0x00#8).wellFormed = false ∧
    (CommandWord.mk 1#23 0#1 0x00#8).rsvZero = false := by decide

/-- `OP` is not listed. -/
theorem test_illFormed_op : (CommandWord.mk 0#23 0#1 0x03#8).wellFormed = false ∧
    (CommandWord.mk 0#23 0#1 0x03#8).opListed = false := by decide

/-- `V = 1` where the row says 0. -/
theorem test_illFormed_v : (CommandWord.mk 0#23 1#1 0x20#8).wellFormed = false ∧
    (CommandWord.mk 0#23 1#1 0x20#8).variantOffered = false := by decide

/-- A well-formed word. -/
theorem test_wellFormed : (CommandWord.mk 0#23 1#1 0x41#8).wellFormed = true := by decide

/-! ## Decoding: the words of R93 and R94 written out, `RSV`, `V`, `OP` from bit 31 down -/

theorem test_decode_control :
    decode 0b00000000000000000000000_0_00000000#32 = .ok .nop ∧
    decode 0b00000000000000000000000_0_00000001#32 = .ok .softReset ∧
    decode 0b00000000000000000000000_0_00000010#32 = .ok .ttInit := ⟨rfl, rfl, rfl⟩

theorem test_decode_cipher :
    decode 0b00000000000000000000000_0_00010000#32 = .ok .keyExpand ∧
    decode 0b00000000000000000000000_0_00010001#32 = .ok (.blkEnc .reference) ∧
    decode 0b00000000000000000000000_1_00010001#32 = .ok (.blkEnc .tableAccelerated) ∧
    decode 0b00000000000000000000000_0_00010010#32 = .ok (.blkDec .reference) ∧
    decode 0b00000000000000000000000_1_00010010#32 = .ok (.blkDec .tableAccelerated) :=
  ⟨rfl, rfl, rfl, rfl, rfl⟩

theorem test_decode_hash :
    decode 0b00000000000000000000000_0_00100000#32 = .ok .gfMul ∧
    decode 0b00000000000000000000000_0_00100001#32 = .ok .ghInit ∧
    decode 0b00000000000000000000000_0_00100010#32 = .ok .ghUpd ∧
    decode 0b00000000000000000000000_0_00100011#32 = .ok .ghMsg ∧
    decode 0b00000000000000000000000_0_00100100#32 = .ok (.hDerive .reference) ∧
    decode 0b00000000000000000000000_1_00100100#32 = .ok (.hDerive .tableAccelerated) :=
  ⟨rfl, rfl, rfl, rfl, rfl, rfl⟩

theorem test_decode_counter :
    decode 0b00000000000000000000000_0_00110000#32 = .ok .j0Derive ∧
    decode 0b00000000000000000000000_0_00110001#32 = .ok .ctrInc ∧
    decode 0b00000000000000000000000_0_00110010#32 = .ok (.ctrXcrypt .reference) ∧
    decode 0b00000000000000000000000_1_00110010#32 = .ok (.ctrXcrypt .tableAccelerated) :=
  ⟨rfl, rfl, rfl, rfl⟩

theorem test_decode_aead :
    decode 0b00000000000000000000000_0_01000000#32 = .ok (.aeadEnc .reference) ∧
    decode 0b00000000000000000000000_1_01000000#32 = .ok (.aeadEnc .tableAccelerated) ∧
    decode 0b00000000000000000000000_0_01000001#32 = .ok (.aeadDec .reference) ∧
    decode 0b00000000000000000000000_1_01000001#32 = .ok (.aeadDec .tableAccelerated) :=
  ⟨rfl, rfl, rfl, rfl⟩

/-- V42: words that are no command, with the reason. -/
theorem test_decode_rejects :
    decode 0x00000003#32 = .error .unknownOp ∧ decode 0x000000FF#32 = .error .unknownOp ∧
    decode 0x00000042#32 = .error .unknownOp ∧ decode 0x00000110#32 = .error .variantNotOffered ∧
    decode 0x00000101#32 = .error .variantNotOffered ∧
    decode 0x00000200#32 = .error .reservedNonzero ∧ decode 0x80000040#32 = .error .reservedNonzero ∧
    decode 0x00010011#32 = .error .reservedNonzero := ⟨rfl, rfl, rfl, rfl, rfl, rfl, rfl, rfl⟩

/-- R96: bytes that are not one word. -/
theorem test_decodeBytes_length : decodeBytes [0x00#8, 0x00#8, 0x00#8] = .error .notOneWord := rfl

/-- The first byte on the port is the most significant (R66, R90). -/
theorem test_decodeBytes_order :
    decodeBytes [0x00#8, 0x00#8, 0x01#8, 0x41#8] = .ok (.aeadDec .tableAccelerated) := rfl

/-! ## Helpers -/

/-- The next state of a result. -/
def after (r : Result) : State :=
  match r with
  | .next s => s
  | .fault _ | .refused _ => State.reset

/-- One step in which the host writes a command's word. -/
def issue (i : Instr) (s : State) : State := after (step (s.withFetchWord 32 (encode i).toNat))

/-- One step with one event at the port. -/
def event (e : HostEvent) (s : State) : State := after (step { s with pending := [e] })

/-- The standard key of the vectors. -/
def stdKey : Block := 0x0123456789abcdeffedcba9876543210#128

/-- Reset, with the standard key expanded. -/
def keyed : State :=
  { State.reset with key := stdKey, keylen := 16#32, rk := deriveRoundKeys stdKey, rkValid := true }

/-- Reset, with the standard key and the 12-byte IV 000102030405060708090a0b written. -/
def called : State :=
  { State.reset with
    key := stdKey
    keylen := 16#32
    iv := 0x000102030405060708090a0b00000000#128
    ivlen := 12#32 }

/-! ## One-step tests -/

/-- V52: `NOP` from reset. -/
theorem test_nop : statusWord (issue .nop State.reset) = 0x00000601#32 := by decide

/-- V52: `SOFT_RESET` keeps `TT_READY` alone and reads back as the command. -/
theorem test_softReset :
    statusWord (issue .softReset { keyed with ttReady := true, errseen := 0x20#32 }) = 0x00000004#32 ∧
    (issue .softReset { keyed with errseen := 0x20#32 }).errseen = 0#32 ∧
    (issue .softReset keyed).cmd = 0x00000001#32 := by decide

/-- V9: a key length of 15. -/
theorem test_keyExpand_length :
    let t := issue .keyExpand { State.reset with key := stdKey, keylen := 15#32 }
    t.err = 1#32 ∧ statusWord t = 0x00000703#32 ∧ t.rk = State.reset.rk := by decide

/-- V48: no round keys. -/
theorem test_blkEnc_noKey : (issue (.blkEnc .reference) State.reset).err = 7#32 ∧
    statusWord (issue (.blkEnc .reference) State.reset) = 0x00000703#32 := by decide

/-- R161. -/
theorem test_ghInit : (issue .ghInit { State.reset with y := stdKey }).y = 0#128 := by decide

/-- V46: the boundary of `INLEN`. -/
theorem test_ghMsg_length : (issue .ghMsg { State.reset with inlen := 81#32 }).err = 8#32 ∧
    (issue .ghMsg { State.reset with aadlen := 65#32 }).err = 8#32 := by decide

/-- V26: a 12-byte IV; the last four bytes of `IV` do not matter. -/
theorem test_j0Derive :
    (issue .j0Derive
      { State.reset with iv := 0x000102030405060708090a0bdeadbeef#128, ivlen := 12#32 }).j0 =
      0x000102030405060708090a0b00000001#128 := by decide

/-- V27: a 16-byte IV as it is; a length of 13 refused. -/
theorem test_j0Derive_lengths :
    (issue .j0Derive
      { State.reset with iv := 0x000102030405060708090a0bfffffffe#128, ivlen := 16#32 }).j0 =
      0x000102030405060708090a0bfffffffe#128 ∧
    (issue .j0Derive { State.reset with ivlen := 13#32 }).err = 2#32 := by decide

/-- V28: the wrap does not touch bytes 0 to 11. -/
theorem test_ctrInc :
    (issue .ctrInc { State.reset with ctr := 0x00112233445566778899aabbffffffff#128 }).ctr =
      0x00112233445566778899aabb00000000#128 := by decide

/-- V30: an empty input clears the output. -/
theorem test_ctrXcrypt_empty :
    let t := issue (.ctrXcrypt .reference)
      { keyed with
        j0 := 0x000102030405060708090a0bfffffffe#128
        outbuf := [(3, 0x55#8)]
        outlen := 4#32 }
    t.outbuf = [] ∧ t.outlen = 0#32 ∧ t.ctr = 0x000102030405060708090a0bffffffff#128 := by
  decide

/-- V33's operands: the plaintext 61. -/
def oneByte : State := { called with inbuf := [(0, 0x61#8)], inlen := 1#32 }

/-- V45, V49: too short, and the order of the checks. -/
theorem test_aeadDec_order :
    (issue (.aeadDec .reference) { called with inlen := 15#32, aadlen := 65#32 }).err = 4#32 ∧
    (issue (.aeadDec .reference) { called with inlen := 16#32, aadlen := 65#32 }).err = 8#32 := by
  decide

/-- V33's output as input of `AEAD_DEC`. -/
def received : State :=
  { called with
    inbuf := Memory.writeBytes [] 0 ([0x34#8] ++ blockBytes 0x3b8264dbb317e8ec642c9725364fb147#128)
    inlen := 17#32 }

/-- V50: refused accesses. -/
theorem test_busError :
    [busError State.reset .reg 0x030 4 false, busError State.reset .reg 0x03C 4 true,
      busError State.reset .reg 0x0F0 1 false, busError State.reset .reg 0x100 1 false,
      busError State.reset .reg 0x041 2 false, busError State.reset .reg 0x02E 4 false,
      busError State.reset .reg 0x006 2 true, busError State.reset .reg 0x007 1 true,
      busError State.reset .aadbuf 64 1 false, busError State.reset .inbuf 78 4 false,
      busError State.reset .inbuf 80 4 false, busError State.reset .outbuf 80 1 false,
      busError State.reset .reg 0x040 3 false, busError State.reset .reg 0x040 8 false] =
      List.replicate 14 true := by decide

/-- V50: accepted accesses. -/
theorem test_busError_accepted :
    [busError State.reset .reg 0x006 2 false, busError State.reset .reg 0x00B 1 false,
      busError State.reset .reg 0x004 4 false, busError State.reset .reg 0x0EC 4 false,
      busError State.reset .inbuf 76 4 false, busError State.reset .inbuf 79 1 true,
      busError State.reset .aadbuf 60 4 true] = List.replicate 7 false := by decide

/-- V51: a narrow write, and an ignored one. -/
theorem test_hostWrite :
    (event (wr2 (Reg.aadlen.at 2) 0x1234#16) State.reset).aadlen = 0x00001234#32 ∧
    (event (wr4 (Reg.cfgMsgMax.at 0) 0#32) State.reset).cfgMsgMax = 64#32 ∧
    (event (wr4 (Reg.cfgMsgMax.at 0) 0#32) State.reset).response = .accepted := by decide

/-- V51: `ID` and `KEY` as the host reads them. -/
theorem test_hostRead :
    (event (rd1 (Reg.id.at 0)) keyed).response = .data [0x53#8] ∧
    (event (rd4 (Reg.key.at 0)) keyed).response = .data [0x00#8, 0x00#8, 0x00#8, 0x00#8] := by
  decide

/-- V48: the write of an equal key byte clears `RK_VALID`. -/
theorem test_keyWrite : statusWord (event (wr1 (Reg.key.at 15) 0x10#8) keyed) = 0x00000000#32 ∧
    (event (wr1 (Reg.key.at 15) 0x10#8) keyed).key = stdKey := by decide

/-- V42: an illegal word from reset. -/
theorem test_illegalWord :
    let t := event (wr4 (Reg.cmd.at 0) 0x80000040#32) State.reset
    t.err = 6#32 ∧ statusWord t = 0x00000703#32 ∧ t.errseen = 0x00000040#32 ∧
      t.cmd = 0x80000040#32 := by decide

/-! ## The caller operations (R99), from the state right after reset -/

/-- What a caller operation gives back. -/
def givenBack (p : Performed CallResult) : Option CallResult :=
  match p with
  | .next (r, _) => some r
  | .fault _ | .refused _ => none

/-- V33's IV. -/
def ivBytes : List Byte :=
  [0x00#8, 0x01#8, 0x02#8, 0x03#8, 0x04#8, 0x05#8, 0x06#8, 0x07#8, 0x08#8, 0x09#8, 0x0a#8, 0x0b#8]

/-- V33's ciphertext and tag. -/
def sealedByte : List Byte := [0x34#8] ++ blockBytes 0x3b8264dbb317e8ec642c9725364fb147#128

/-- R99: the script of an encryption, for 17 bytes read back; its accesses from the command on. -/
theorem test_encryptScript :
    (encryptScript .reference (blockBytes stdKey) ivBytes [0x61#8] [] 17).drop 12 =
      [.write .reg 0x004 [0x00#8, 0x00#8, 0x00#8, 0x40#8], .read .reg 0x00C 4, .read .reg 0x024 4,
        .read .outbuf 0 4, .read .outbuf 4 4, .read .outbuf 8 4, .read .outbuf 12 4,
        .read .outbuf 16 1] := by decide

/-- The buffers of the reset state are canonical, and a read of them gives 0x00 (R51). -/
theorem test_reset_buffers : State.reset.aadbuf.wf = true ∧ State.reset.inbuf.wf = true ∧
    State.reset.outbuf.wf = true ∧ State.reset.inbuf.read 7 = 0x00#8 := by decide

/-! ## Witnesses: states and operands that meet the hypotheses of the obligations -/

/-- A state whose next event is the write of a word to `CMD`. -/
def commanded (w : Word) : State := { State.reset with pending := [.write .reg 0x004 (bytes32 w)] }

theorem witness_IllegalWordRaisesIllegalCommand :
    (commanded 0x00000200#32).pending = .write .reg 0x004 (bytes32 0x00000200#32) :: [] ∧
    (0x00000200#32).extractLsb' 9 23 ≠ 0#23 ∧ (0x80000000#32).extractLsb' 9 23 ≠ 0#23 ∧
    (0x00000003#32).extractLsb' 0 8 ∉ [0x00#8, 0x01#8, 0x02#8, 0x10#8, 0x11#8, 0x12#8, 0x20#8, 0x21#8,
      0x22#8, 0x23#8, 0x24#8, 0x30#8, 0x31#8, 0x32#8, 0x40#8, 0x41#8] ∧
    ((0x00000110#32).getLsbD 8 = true ∧
      (0x00000110#32).extractLsb' 0 8 ∉ [0x11#8, 0x12#8, 0x24#8, 0x32#8, 0x40#8, 0x41#8]) :=
  ⟨rfl, by decide, by decide, by decide, by decide⟩

theorem witness_StepRunsDecodedCommand :
    (commanded 0x00000020#32).pending = .write .reg 0x004 (bytes32 0x00000020#32) :: [] ∧
    decode 0x00000020#32 = .ok .gfMul := ⟨rfl, rfl⟩

theorem witness_EveryCommandRecordsItsOutcome : Instr.keyExpand ≠ .softReset := by decide

theorem witness_TtInitFillsTablesOnce :
    State.reset.ttReady = false ∧ (initTables State.reset).ttReady = true := ⟨rfl, rfl⟩

theorem witness_KeyExpandFollowsSchedule :
    called.keylen = 16#32 ∧ State.reset.keylen ≠ 16#32 ∧ { called with keylen := 17#32 }.keylen ≠ 16#32 :=
  by decide

/-- Both cases of a command with `V = 1`, and the tables it then leaves (R131). -/
theorem witness_TablesAfter :
    keyed.ttReady = false ∧ TablesAfter .tableAccelerated keyed ttDef true ∧
    ({ keyed with ttReady := true } : State).ttReady = true ∧
    TablesAfter .tableAccelerated { keyed with ttReady := true } keyed.tt true ∧
    TablesAfter .reference keyed keyed.tt false :=
  ⟨rfl, Laws.tablesFor_after .tableAccelerated keyed, rfl,
    Laws.tablesFor_after .tableAccelerated { keyed with ttReady := true },
    Laws.tablesFor_after .reference keyed⟩

theorem witness_BlkEncFollowsRecurrence : keyed.rkValid = true ∧ State.reset.rkValid = false := ⟨rfl, rfl⟩

theorem witness_BlkDecFollowsRecurrence : keyed.rkValid = true ∧ State.reset.rkValid = false := ⟨rfl, rfl⟩

theorem witness_TableLookupEqualsReference (k : Fin 4) (b : Byte) :
    ttDef[k][b.toNat] = linL ((sbox b).setWidth 32 <<< (24 - 8 * k.val)) := Laws.ttLookup_ttDef k b

/-- The tables are complete when they are not ready, as at reset. -/
theorem reset_tablesComplete : State.reset.TablesComplete := by
  intro h
  exact absurd h (by decide)

/-- The tables are complete after they were filled. -/
theorem initTables_tablesComplete : (initTables State.reset).TablesComplete :=
  fun _ k b => Laws.ttLookup_ttDef k b

theorem witness_VariantsGiveSameResults :
    Instr.aeadDec ∈ [Instr.blkEnc, Instr.blkDec, Instr.hDerive, Instr.ctrXcrypt, Instr.aeadEnc,
      Instr.aeadDec] ∧ State.reset.TablesComplete ∧ (initTables State.reset).TablesComplete :=
  ⟨by simp, reset_tablesComplete, initTables_tablesComplete⟩

theorem witness_GfMulShiftsAndAccumulates : (127 : Nat) < 128 := by decide

theorem witness_AeadBlockSequence :
    let A := List.replicate 17 0xA5#8
    let C := List.replicate 16 0x5A#8
    (1 < (A.length + 15) / 16 ∧ 0 < (C.length + 15) / 16) ∧
    blockByte ((aeadBlocks A C).getD 1 0#128) 0 = 0xA5#8 ∧
    blockByte ((aeadBlocks A C).getD 1 0#128) 1 = 0x00#8 ∧
    blockByte ((aeadBlocks A C).getD 2 0#128) 15 = 0x5A#8 := by decide

/-- V22: the last row. -/
theorem witness_LengthBlockHoldsBitLengths : 0xFFFFFFF0 < 2 ^ 32 ∧
    lenblock 0xFFFFFFF0 0xFFFFFFF0 = 0x00000007ffffff8000000007ffffff80#128 := by decide

theorem witness_GhMsgHashesTheBuffers :
    let s := { State.reset with aadlen := 64#32, inlen := 80#32 }
    (s.aadlen.toNat ≤ s.cfgAadMax.toNat ∧ s.inlen.toNat ≤ s.cfgMsgMax.toNat + 16) ∧
    s.cfgAadMax.toNat < ({ s with aadlen := 65#32 } : State).aadlen.toNat ∧
    s.cfgMsgMax.toNat + 16 < ({ s with inlen := 81#32 } : State).inlen.toNat := by decide

theorem witness_HDeriveEncryptsZeroBlock : keyed.rkValid = true ∧ State.reset.rkValid = false := ⟨rfl, rfl⟩

theorem witness_J0DeriveFollowsIvLength :
    ({ State.reset with ivlen := 12#32 } : State).ivlen = 12#32 ∧
    ({ State.reset with ivlen := 16#32 } : State).ivlen = 16#32 ∧
    (State.reset.ivlen ≠ 12#32 ∧ State.reset.ivlen ≠ 16#32) := by decide

theorem witness_Inc32CountsInTheLastWord :
    (11 : Nat) < 12 ∧ blockByte (inc32 0x00112233445566778899aabbffffffff#128) 11 = 0xbb#8 := by decide

/-- The capacities of the vectors and the extreme ones are legal (R11). -/
theorem capacities_legal : CapacityLegal 64#32 64#32 ∧ CapacityLegal 16#32 16#32 ∧
    CapacityLegal 0xFFFFFFF0#32 0xFFFFFFE0#32 := by decide

theorem witness_CounterBlocksDoNotRepeat :
    (0 < 2 ^ 32 - 1 ∧ 2 ^ 32 - 1 < 2 ^ 32) ∧ CapacityLegal 0xFFFFFFF0#32 0xFFFFFFE0#32 ∧
    0xFFFFFFF0 ≤ (0xFFFFFFE0#32).toNat + 16 := by decide

theorem witness_CtrXcryptStreams :
    let s := { keyed with inlen := 80#32 }
    (s.rkValid = true ∧ s.inlen.toNat ≤ s.cfgMsgMax.toNat + 16) ∧ State.reset.rkValid = false ∧
    s.cfgMsgMax.toNat + 16 < ({ s with inlen := 81#32 } : State).inlen.toNat := by decide

theorem witness_CounterModeLaws : [0x01#8, 0x02#8].length = [0xFF#8, 0x80#8].length := rfl

/-- Operands of a call at the largest lengths. -/
def fullCall : State := { called with aadlen := 64#32, inlen := 64#32 }

theorem witness_AeadEncComputesCiphertextAndTag :
    fullCall.keylen = 16#32 ∧ (fullCall.ivlen = 12#32 ∨ fullCall.ivlen = 16#32) ∧
    fullCall.aadlen.toNat ≤ fullCall.cfgAadMax.toNat ∧
    fullCall.inlen.toNat ≤ fullCall.cfgMsgMax.toNat := by decide

/-- The hypotheses on the operands of `AEAD_DEC`. -/
abbrev DecOperands (s : State) : Prop :=
  s.keylen = 16#32 ∧ (s.ivlen = 12#32 ∨ s.ivlen = 16#32) ∧ 16 ≤ s.inlen.toNat ∧
    s.aadlen.toNat ≤ s.cfgAadMax.toNat ∧ s.inlen.toNat ≤ s.cfgMsgMax.toNat + 16

/-- Both ends of the range of `INLEN`. The clause of equal tags is met by `received`, whose tag
`test_aeadDec` accepts, the other by a changed tag (`witness_ChangedTagIsRejected`). -/
theorem witness_AeadDecChecksTagBeforePlaintext :
    DecOperands received ∧ DecOperands { called with inlen := 16#32, ivlen := 16#32 } ∧
    DecOperands { called with inlen := 80#32, aadlen := 64#32 } := by decide

/-- Each clause at a boundary of its range; V49. -/
theorem witness_AeadArgumentErrorsInOrder :
    ({ called with keylen := 15#32 } : State).keylen ≠ 16#32 ∧
    (called.keylen = 16#32 ∧ ({ called with ivlen := 13#32 } : State).ivlen ≠ 12#32 ∧
      ({ called with ivlen := 13#32 } : State).ivlen ≠ 16#32) ∧
    ({ called with inlen := 15#32 } : State).inlen.toNat < 16 ∧
    (called.cfgAadMax.toNat < ({ called with aadlen := 65#32 } : State).aadlen.toNat) ∧
    (called.cfgMsgMax.toNat < ({ called with inlen := 65#32 } : State).inlen.toNat) ∧
    (called.cfgMsgMax.toNat + 16 < ({ called with inlen := 81#32 } : State).inlen.toNat) := by decide

theorem witness_AeadLeavesNoCallLocalState :
    (exec (.aeadEnc .reference) State.reset = .next (after (exec (.aeadEnc .reference) State.reset))) ∧
    (after (exec (.aeadEnc .reference) State.reset)).err ≠ 0#32 := ⟨rfl, by decide⟩

/-- Two states that agree on the operands and differ in the working registers. -/
theorem witness_AeadIgnoresEarlierWorkingState :
    let u := { called with y := 1#128, h := 2#128, blkout := 3#128, outbuf := [(5, 0x07#8)] }
    u ≠ called ∧ called.key = u.key ∧ called.keylen = u.keylen ∧ called.iv = u.iv ∧
      called.ivlen = u.ivlen ∧ called.aadlen = u.aadlen ∧ called.inlen = u.inlen ∧
      called.aadbuf = u.aadbuf ∧ called.inbuf = u.inbuf ∧ called.cfgAadMax = u.cfgAadMax ∧
      called.cfgMsgMax = u.cfgMsgMax ∧ called.tt = u.tt ∧ called.ttReady = u.ttReady :=
  ⟨fun h => absurd (congrArg State.y h) (by decide), rfl, rfl, rfl, rfl, rfl, rfl, rfl, rfl, rfl, rfl,
    rfl, rfl⟩

/-- What the encryption of `oneByte` leaves. -/
def sent : State := after (exec (.aeadEnc .reference) oneByte)

/-- The same operands, with that output as input. -/
def returned : State := { oneByte with inbuf := sent.outbuf, inlen := sent.outlen }

theorem witness_AeadRoundTrip_first :
    CapacityLegal oneByte.cfgAadMax oneByte.cfgMsgMax ∧ oneByte.TablesComplete ∧
    oneByte.keylen = 16#32 ∧ (oneByte.ivlen = 12#32 ∨ oneByte.ivlen = 16#32) ∧
    oneByte.aadlen.toNat ≤ oneByte.cfgAadMax.toNat ∧ oneByte.inlen.toNat ≤ oneByte.cfgMsgMax.toNat :=
  ⟨by decide, reset_tablesComplete, by decide, by decide, by decide, by decide⟩

theorem witness_AeadRoundTrip :
    returned.TablesComplete ∧ returned.key = oneByte.key ∧ returned.keylen = oneByte.keylen ∧
    returned.ivlen = oneByte.ivlen ∧ returned.iv = oneByte.iv ∧ returned.aadlen = oneByte.aadlen ∧
    returned.aadbuf = oneByte.aadbuf ∧ returned.inlen = sent.outlen ∧
    (∀ p < sent.outlen.toNat, returned.inbuf.read p = sent.outbuf.read p) := by
  unfold returned
  generalize sent = t
  exact ⟨fun h => absurd (show oneByte.ttReady = true from h) (by decide), rfl, rfl, rfl, rfl, rfl, rfl, rfl, fun _ _ => rfl⟩

theorem witness_ResetMeetsInvariant : CapacityLegal 64#32 64#32 := capacities_legal.1

/-- The reset state of `Config` meets the invariant. -/
theorem reset_inv : State.reset.Inv where
  capacity := capacities_legal.1
  keysFresh := fun h => absurd h (by decide)
  tablesComplete := reset_tablesComplete
  outTail := fun _ _ => rfl
  outLength := by decide
  errFlagged := by decide
  authClean := by decide
  phaseRejected := by decide
  phaseAborted := by decide
  phaseInit := by decide
  phaseObservable := by decide
  errCode := by decide
  errseenReserved := by decide
  buffersCanonical := by decide
  aadInside := fun _ _ => rfl
  inInside := fun _ _ => rfl

theorem witness_EveryStepKeepsInvariant :
    State.reset.Inv ∧ step State.reset = .next State.reset := ⟨reset_inv, rfl⟩

theorem witness_HardResetGivesResetValues :
    ({ keyed with pending := [.hardReset] } : State).pending = .hardReset :: [] := rfl

/-- A state that has recorded an error, with an illegal word as its next command. -/
theorem witness_ErrseenIsSticky :
    let s := { commanded 0x00000003#32 with errseen := 0x20#32 }
    step s = .next (after (step s)) ∧ s.errseen.getLsbD 5 = true ∧
    (∀ rest, s.pending ≠ .hardReset :: rest) ∧
    (∀ rest, s.pending ≠ .write .reg 0x004 [0x00#8, 0x00#8, 0x00#8, 0x01#8] :: rest) :=
  ⟨rfl, by decide, fun _ h => by simp [commanded] at h, fun _ h => absurd (List.cons.inj h).1 (by decide)⟩

theorem witness_TablesAreWrittenOnce :
    let s := { commanded 0x00000002#32 with ttReady := true }
    step s = .next (after (step s)) ∧ s.ttReady = true ∧ (∀ rest, s.pending ≠ .hardReset :: rest) :=
  ⟨rfl, rfl, fun _ h => by simp [commanded] at h⟩

theorem witness_CommandsWriteOnlyTheirRegisters :
    exec .ctrInc keyed = .next (after (exec .ctrInc keyed)) ∧ Instr.ctrInc ≠ .softReset ∧
    Instr.ctrInc ≠ .gfMul ∧ Instr.ctrInc ≠ .keyExpand ∧ (∀ v, Instr.ctrInc ≠ .ctrXcrypt v) :=
  ⟨rfl, by decide, by decide, by decide, fun _ => by simp⟩

/-- A command for each clause about the tables: one that has no variant, and one with `V = 1`. -/
theorem witness_CommandsWriteOnlyTheirRegisters_tables :
    (∀ f ∈ [Instr.blkEnc, Instr.blkDec, Instr.hDerive, Instr.ctrXcrypt, Instr.aeadEnc, Instr.aeadDec],
      Instr.ctrInc ≠ f .tableAccelerated) ∧ Instr.ctrInc ≠ .ttInit ∧
    (∃ f ∈ [Instr.blkEnc, Instr.blkDec, Instr.hDerive, Instr.ctrXcrypt, Instr.aeadEnc, Instr.aeadDec],
      Instr.aeadDec .tableAccelerated = f .tableAccelerated) :=
  ⟨by simp, by decide, ⟨Instr.aeadDec, by simp, rfl⟩⟩

theorem witness_BadAccessesAreRefused :
    [0x01#8, 0x02#8, 0x03#8, 0x04#8].length = 4 ∧
    ({ State.reset with pending := [.write .aadbuf 60 [0x01#8, 0x02#8, 0x03#8, 0x04#8]] } :
      State).pending =
      (if true then HostEvent.write .aadbuf 60 [0x01#8, 0x02#8, 0x03#8, 0x04#8]
        else .read .aadbuf 60 4) :: [] := ⟨rfl, rfl⟩

theorem witness_HostReadsReturnRegisters :
    ({ State.reset with pending := [.read .reg 0x02C 4] } : State).pending = .read .reg 0x02C 4 :: [] ∧
    ({ State.reset with pending := [.read .reg (0x0E0 + 15) 1] } : State).pending =
      .read .reg (0x0E0 + 15) 1 :: [] := ⟨rfl, rfl⟩

/-- An accepted read at the end of each space, of each width. -/
theorem witness_HostReadsReturnRegisters_accepted :
    busError State.reset .aadbuf 60 4 false = false ∧ busError State.reset .inbuf 78 2 false = false ∧
    busError State.reset .outbuf 79 1 false = false ∧ busError State.reset .reg 0x0EE 2 false = false ∧
    busError State.reset .reg 0x02F 1 false = false ∧ busError State.reset .reg 0x040 4 false = false :=
  ⟨rfl, rfl, rfl, rfl, rfl, rfl⟩

theorem witness_HostWriteStoresItsBytes :
    let s := { State.reset with pending := [.write .reg 0x020 [0x00#8, 0x00#8, 0x00#8, 0x05#8]] }
    s.pending = .write .reg 0x020 [0x00#8, 0x00#8, 0x00#8, 0x05#8] :: [] ∧
    busError s .reg 0x020 4 true = false ∧ ¬ (Space.reg = .reg ∧ 0x020 = 0x004) ∧
    s.aadbuf.wf = true ∧ s.inbuf.wf = true := ⟨rfl, rfl, by decide, rfl, rfl⟩

/-- Accepted writes that change nothing, to `OUTBUF` and to `ERR`, and the neighbours of `KEYLEN` and of
`KEY`, which touch neither. -/
theorem witness_HostWriteStoresItsBytes_ignored :
    busError keyed .outbuf 79 1 true = false ∧ busError keyed .reg 0x00C 4 true = false ∧
    busError keyed .reg 0x018 4 true = false ∧ busError keyed .reg 0x050 4 true = false ∧
    (event (.write .outbuf 79 [0xFF#8]) keyed).rkValid = true ∧
    (event (.write .outbuf 79 [0xFF#8]) keyed).outbuf = [] ∧
    (event (wr4 (Reg.iv.at 0) 0#32) keyed).rkValid = true := by decide

/-- Both ends of `KEY` and of `KEYLEN`. -/
theorem witness_KeyWritesInvalidateRoundKeys :
    busError keyed .reg 0x040 4 true = false ∧ busError keyed .reg 0x04F 1 true = false ∧
    busError keyed .reg 0x014 4 true = false ∧ busError keyed .reg 0x017 1 true = false :=
  ⟨rfl, rfl, rfl, rfl⟩

theorem witness_ReadsRevealNoKeyMaterial :
    let s := { State.reset with pending := [.read .reg 0x040 4] }
    let u := { s with key := stdKey }
    u = { s with key := u.key, rk := u.rk, tt := u.tt } ∧ s.pending = .read .reg 0x040 4 :: [] ∧
    s.key ≠ u.key := ⟨rfl, rfl, by decide⟩

/-- Seven bytes at the end of `INBUF`: a 4-byte, a 2-byte and a 1-byte access. -/
theorem witness_PutStoresTheSequence :
    let data := [0x01#8, 0x02#8, 0x03#8, 0x04#8, 0x05#8, 0x06#8, 0x07#8]
    let s := { State.reset with pending := put ⟨.inbuf, 72⟩ data }
    s.inbuf.wf = true ∧ 72 % 4 = 0 ∧ 72 + data.length ≤ s.cfgMsgMax.toNat + 16 ∧
    s.pending = put ⟨.inbuf, 72⟩ data ∧ (put ⟨.inbuf, 72⟩ data).length = 3 := by
  exact ⟨rfl, rfl, by decide, rfl, rfl⟩

/-- Operands at the largest lengths, an empty key, and an IV longer than its register. -/
theorem witness_CallerOperationsRunTheirCommand :
    CapacityLegal State.reset.cfgAadMax State.reset.cfgMsgMax ∧ State.reset.aadbuf.wf = true ∧
    State.reset.inbuf.wf = true ∧ ([] : List Byte).length < 2 ^ 32 ∧
    (List.replicate 17 0xFF#8).length < 2 ^ 32 ∧
    (List.replicate 64 0xFF#8).length ≤ State.reset.cfgAadMax.toNat ∧
    (List.replicate 80 0xFF#8).length ≤ State.reset.cfgMsgMax.toNat + 16 :=
  ⟨capacities_legal.1, rfl, rfl, by decide, by decide, by decide, by decide⟩

/-- V33's operands on two engines, one of them with its tables ready. -/
theorem witness_CallerRoundTrip :
    (blockBytes stdKey).length = 16 ∧ (ivBytes.length = 12 ∨ ivBytes.length = 16) ∧
    (∀ x ∈ [State.reset, initTables State.reset], CapacityLegal x.cfgAadMax x.cfgMsgMax ∧
      x.TablesComplete ∧ x.aadbuf.wf = true ∧ x.inbuf.wf = true ∧
      ([] : List Byte).length ≤ x.cfgAadMax.toNat ∧ [0x61#8].length ≤ x.cfgMsgMax.toNat) := by
  refine ⟨by simp, .inl rfl, fun x hx => ?_⟩
  rcases List.mem_pair.1 hx with rfl | rfl
  · exact ⟨capacities_legal.1, reset_tablesComplete, rfl, rfl, by decide, by decide⟩
  · exact ⟨capacities_legal.1, initTables_tablesComplete, rfl, rfl, by decide, by decide⟩

/-! ## Tests that run the cipher or the multiplier -/

/-- V6: two entries, and V52: the status. -/
theorem test_ttInit :
    ttLookup (issue .ttInit State.reset).tt 0 0xF0#8 = 0x78186060#32 ∧
    ttLookup (issue .ttInit State.reset).tt 3 0x9E#8 = 0xB3C6C675#32 ∧
    statusWord (issue .ttInit State.reset) = 0x00000605#32 := by decide

/-- V1: the first, second and last round key. -/
theorem test_keyExpand :
    let t := issue .keyExpand { State.reset with key := stdKey, keylen := 16#32 }
    t.rk[0] = 0xF12186F9#32 ∧ t.rk[1] = 0x41662B61#32 ∧ t.rk[31] = 0x9124A012#32 ∧
      statusWord t = 0x00000609#32 := by decide

/-- V1 with the reference round function. -/
theorem test_blkEnc : (issue (.blkEnc .reference) { keyed with blkin := stdKey }).blkout =
    0x681edf34d206965e86b3e94f536e4246#128 := by decide

/-- V2 with the tables, which the command fills first. -/
theorem test_blkDec :
    (issue (.blkDec .tableAccelerated)
      { keyed with blkin := 0x681edf34d206965e86b3e94f536e4246#128 }).blkout = stdKey := by
  decide

/-- V15. -/
theorem test_gfMul :
    (issue .gfMul { State.reset with gfx := stdKey, gfy := 0x00112233445566778899aabbccddeeff#128 }).gfz =
      0x24d54fb01d1e73fb113b0207cac38dff#128 := by decide +kernel

/-- V12: the reduction. -/
theorem test_gfMul_reduction :
    (issue .gfMul { State.reset with gfx := 0x40000000000000000000000000000000#128, gfy := 1#128 }).gfz =
      0xe1000000000000000000000000000000#128 := by decide +kernel

/-- V20, the first block. -/
theorem test_ghUpd :
    (issue .ghUpd { State.reset with h := 0x2677f46b09c122cc975533105bd4a22a#128, blkin := stdKey }).y =
      0x6ded580461308b747cf146b29e828560#128 := by decide

/-- V24: AAD only; the bytes of `AADBUF` from `AADLEN` do not matter. -/
theorem test_ghMsg :
    (issue .ghMsg
      { State.reset with
        h := 0x2677f46b09c122cc975533105bd4a22a#128
        aadbuf := Memory.writeBytes [] 0 [0xa1#8, 0xa2#8, 0xa3#8, 0xa4#8, 0xa5#8, 0xff#8]
        aadlen := 5#32 }).y = 0x85582a5ce8a0aa6d17e738460bfc8402#128 := by decide +kernel

/-- V25. -/
theorem test_hDerive : (issue (.hDerive .reference) keyed).h =
    0x2677f46b09c122cc975533105bd4a22a#128 := by decide

/-- V29, its first chunk alone: the keystream starts at the incremented `J0`. -/
theorem test_ctrXcrypt :
    let t := issue (.ctrXcrypt .reference)
      { keyed with
        j0 := 0x000102030405060708090a0bfffffffe#128
        inbuf := Memory.writeBytes [] 0 (blockBytes 0x00112233445566778899aabbccddeeff#128)
        inlen := 16#32 }
    t.outbuf.readBytes 0 17 = blockBytes 0x83d83d76dc28519429154637520da54c#128 ++ [0x00#8] ∧
      t.ctr = 0x000102030405060708090a0b00000000#128 := by decide

/-- V33: the ciphertext and tag of one byte, and the state the call leaves. -/
theorem test_aeadEnc :
    let t := issue (.aeadEnc .reference) oneByte
    t.outbuf.readBytes 0 18 =
      [0x34#8] ++ blockBytes 0x3b8264dbb317e8ec642c9725364fb147#128 ++ [0x00#8] ∧
      t.outlen = 17#32 ∧ t.j0 = 0#128 ∧ statusWord t = 0x00000609#32 := by decide +kernel

/-- V33 decrypted with the tables. -/
theorem test_aeadDec :
    let t := issue (.aeadDec .tableAccelerated) received
    t.outbuf = [(0, 0x61#8)] ∧ t.outlen = 1#32 ∧ statusWord t = 0x0000061D#32 := by decide +kernel

/-- V33 through the port. -/
theorem test_encrypt : givenBack (encrypt .reference (blockBytes stdKey) ivBytes [0x61#8] [] State.reset) =
    some ⟨0#32, sealedByte⟩ := by decide +kernel

/-- R99: a key of 17 bytes and an IV of 13 are presented, and fail on the length alone (R190). -/
theorem test_encrypt_lengths :
    givenBack (encrypt .reference (blockBytes stdKey ++ [0x00#8]) ivBytes [0x61#8] [] State.reset) =
      some ⟨1#32, []⟩ ∧
    givenBack (encrypt .reference (blockBytes stdKey) (ivBytes ++ [0x00#8]) [0x61#8] [] State.reset) =
      some ⟨2#32, []⟩ := by decide

/-- V33 decrypted through the port, with the tables. -/
theorem test_decrypt :
    givenBack (decrypt .tableAccelerated (blockBytes stdKey) ivBytes sealedByte [] State.reset) =
      some ⟨0#32, [0x61#8]⟩ := by decide +kernel

/-- The three ends of a command with `V = 1`: a success and a rejected tag have the tables ready (V47),
an earlier error leaves them. -/
theorem witness_VariantsGiveSameResults_ends :
    ((after (exec (.blkEnc .tableAccelerated) keyed)).err = 0#32 ∧
      (after (exec (.blkEnc .tableAccelerated) keyed)).ttReady = true) ∧
    ((after (exec (.aeadDec .tableAccelerated) { received with inbuf := [] })).err = 5#32 ∧
      (after (exec (.aeadDec .tableAccelerated) { received with inbuf := [] })).ttReady = true) ∧
    ((after (exec (.blkEnc .tableAccelerated) State.reset)).err = 7#32 ∧
      (after (exec (.blkEnc .tableAccelerated) State.reset)).ttReady = false) := by decide +kernel

/-- The tag of `received` with its last bit changed. -/
theorem witness_ChangedTagIsRejected :
    let m := received.inbuf.write 16 0x46#8
    (after (exec (.aeadDec .reference) received)).authOk = true ∧ 15 < 16 ∧
    (∀ p < 1, m.read p = received.inbuf.read p) ∧
    m.read (received.inlen.toNat - 16 + 15) ≠ received.inbuf.read (received.inlen.toNat - 16 + 15) := by
  decide +kernel

end Sys2Proof.Tests
end

