-- ==== Sys2Proof/Proofs/Invariant.lean ====
section
/-! PROOFS. Reset meets the invariant of R50 and every step keeps it. Each shared update of the state keeps
the invariant in full, the outcome record included; a command is a chain of such updates. -/

namespace Sys2Proof.Invariant

open Sys2Proof.Machine Sys2Proof.Laws

/-! ## The resets -/

/-- Settles O43: of the reset values only the capacities are free, and they are legal; the tables are
not ready, whatever they hold. -/
theorem resetMeetsInvariant : Obligations.ResetMeetsInvariant := by
  intro aadMax msgMax draw hcap
  exact
    { capacity := hcap
      keysFresh := nofun
      tablesComplete := nofun
      outTail := fun _ _ => rfl
      outLength := Nat.zero_le _
      errFlagged := by simp [State.resetWith]
      authClean := nofun
      phaseRejected := by simp [State.resetWith]
      phaseAborted := by simp [State.resetWith]
      phaseInit := by simp [State.resetWith]
      phaseObservable := .inl rfl
      errCode := by simp [State.resetWith]
      errseenReserved := BitVec.zero_and
      buffersCanonical := ⟨rfl, rfl, rfl⟩
      aadInside := fun _ _ => rfl
      inInside := fun _ _ => rfl }

section
variable {s : State}

/-- Hard reset differs from the reset state in the host's events only (R240). -/
theorem inv_hardReset (h : s.Inv) : (hardReset s).Inv :=
  { resetMeetsInvariant s.cfgAadMax s.cfgMsgMax (s.resets + 1) h.capacity with }

/-- `SOFT_RESET` leaves the tables and `TT_READY`, which met the invariant before (R112). -/
theorem inv_softReset (h : s.Inv) : (softReset s).Inv :=
  { resetMeetsInvariant s.cfgAadMax s.cfgMsgMax s.resets h.capacity with
    tablesComplete := h.tablesComplete }

/-! ## What the invariant does not mention -/

/-- The model's own fields of the port. -/
theorem inv_port (h : s.Inv) (events : List HostEvent) (answer : Response) :
    State.Inv { s with pending := events, response := answer } := { h with }

/-- The registers that commands leave their results in (R26). -/
theorem inv_results (h : s.Inv) (blkout gfz hk y j0 ctr : Block) :
    State.Inv { s with blkout := blkout, gfz := gfz, h := hk, y := y, j0 := j0, ctr := ctr } :=
  { h with }

theorem inv_endCall (h : s.Inv) : (endCall s).Inv := inv_results h _ _ _ _ _ _

/-! ## Tables, round keys and output -/

/-- I2: tables that become ready have the defined content (R131). -/
theorem inv_initTables (h : s.Inv) : (initTables s).Inv := by
  rw [initTables_eq]
  refine { h with tablesComplete := fun _ k b => ?_ }
  show ttLookup (initTables s).tt k b = _
  rw [initTables_tt]
  split
  case isTrue hready => exact h.tablesComplete hready k b
  case isFalse => exact ttLookup_ttDef k b

theorem inv_tablesFor (v : Variant) (h : s.Inv) : (tablesFor v s).Inv :=
  match v with
  | .reference => h
  | .tableAccelerated => inv_initTables h

/-- I1: the key expansion runs with `KEYLEN = 16` only (R127). -/
theorem inv_expandKey (h : s.Inv) (hlen : s.keylen = 16#32) : (expandKey s).Inv :=
  { h with keysFresh := fun _ => ⟨hlen, rfl⟩ }

theorem inv_callBase (v : Variant) (h : s.Inv) (hlen : s.keylen = 16#32) : (callBase v s).Inv :=
  inv_expandKey (inv_tablesFor v h) (by simpa using hlen)

/-- I3: an output that fits `OUTBUF` and is zero beyond its length. -/
theorem inv_output (h : s.Inv) {m : Memory} {n : Word} (hwf : m.wf = true)
    (htail : ∀ a, n.toNat ≤ a → m.read a = 0#8) (hfits : n.toNat ≤ s.cfgMsgMax.toNat + 16) :
    State.Inv { s with outbuf := m, outlen := n } :=
  { h with
    outTail := htail
    outLength := hfits
    buffersCanonical := ⟨h.buffersCanonical.1, h.buffersCanonical.2.1, hwf⟩ }

theorem inv_clearOut (h : s.Inv) : (clearOut s).Inv :=
  inv_output h rfl (fun _ _ => rfl) (Nat.zero_le _)

/-- A buffer that reads 0x00 from `n` on still does after bytes were stored below `n`. -/
theorem read_writeBytes_above {m : Memory} (hwf : m.wf = true) {n a : Nat} {bs : List Byte}
    (hfits : a + bs.length ≤ n) (htail : ∀ x, n ≤ x → m.read x = 0#8) (x : Nat) (hx : n ≤ x) :
    (m.writeBytes a bs).read x = 0#8 := by
  rw [read_writeBytes hwf, if_neg (by omega), htail x hx]

/-- I3 for an output sequence whose length is `OUTLEN`. -/
theorem inv_writeOut (h : s.Inv) {n : Word} {bs : List Byte} (hlen : bs.length = n.toNat)
    (hfits : n.toNat ≤ s.cfgMsgMax.toNat + 16) :
    State.Inv { s with outbuf := Memory.writeBytes [] 0 bs, outlen := n } :=
  inv_output h (wf_writeBytes rfl 0 bs)
    (read_writeBytes_above rfl (by omega) fun _ _ => rfl) hfits

/-! ## The outcome record -/

/-- R39: only the bits of the errors that are raised enter `ERRSEEN` (R224). -/
theorem errSeenAfter_reserved {seen : Word} (hseen : seen &&& ~~~0x000001F6#32 = 0#32)
    {o : Option ErrorKind} (ho : o ≠ some .invalidHexEncoding) :
    errSeenAfter seen o &&& ~~~0x000001F6#32 = 0#32 := by
  cases o with
  | none => exact hseen
  | some e =>
    have hbit : (1#32 <<< e.code) &&& ~~~0x000001F6#32 = 0#32 := by
      cases e
      case invalidHexEncoding => exact absurd rfl ho
      all_goals decide
    simp only [errSeenAfter, BitVec.and_or_distrib_right, hseen, hbit, BitVec.or_self]

/-- I4, R34, R38 for the record itself: what `ERR`, `ERRF` and `PHASE` are after one outcome (R110). -/
theorem outcome_consistent (o : Option ErrorKind) :
    (errFlag o = true ↔ errWord o ≠ 0#32) ∧
    (endPhase o = .authenticationFailed ↔ errWord o = 5#32) ∧
    (endPhase o = .aborted ↔ errWord o ≠ 0#32 ∧ errWord o ≠ 5#32) ∧
    (endPhase o = .authenticationFailed ∨ endPhase o = .finished ∨ endPhase o = .aborted) ∧
    (errWord o).toNat ≤ 8 ∧ (errWord o = 3#32 → o = some .invalidHexEncoding) := by
  cases o with
  | none => decide
  | some e => cases e <;> decide

/-- The outcome record keeps the invariant for every outcome that a command has: no command raises the
reserved error (R224), and none that fails is authentic (R110). -/
theorem inv_endCommand (h : s.Inv) (w : Word) {o : Option ErrorKind} {authentic : Bool}
    (ho : o ≠ some .invalidHexEncoding) (hauth : authentic = true → o = none) :
    (endCommand w o authentic s).Inv := by
  obtain ⟨hflag, hrejected, haborted, hphase, hcode, hreserved⟩ := outcome_consistent o
  exact
    { h with
      errFlagged := hflag
      authClean := fun ha => by obtain rfl := hauth ha; exact ⟨rfl, rfl⟩
      phaseRejected := hrejected
      phaseAborted := haborted
      phaseInit := by rcases hphase with hp | hp | hp <;> simp [hp]
      phaseObservable := .inr hphase
      errCode := ⟨hcode, fun h3 => ho (hreserved h3)⟩
      errseenReserved := errSeenAfter_reserved h.errseenReserved ho }

theorem inv_success (h : s.Inv) (w : Word) : (endCommand w none false s).Inv :=
  inv_endCommand h w nofun nofun

theorem inv_error (h : s.Inv) (w : Word) {e : ErrorKind} (he : e ≠ .invalidHexEncoding) :
    (endCommand w (some e) false s).Inv :=
  inv_endCommand h w (by simpa using he) nofun

/-- `abort` of an AEAD command (R194). -/
theorem inv_abort (h : s.Inv) (w : Word) {e : ErrorKind} (he : e ≠ .invalidHexEncoding) :
    (endCommand w (some e) false (endCall (clearOut s))).Inv :=
  inv_error (inv_endCall (inv_clearOut h)) w he

/-! ## The commands -/

/-- The errors of the argument checks of `AEAD_ENC` (R190). -/
theorem encArgError_ne_reserved {e : ErrorKind} (h : encArgError s = some e) :
    e ≠ .invalidHexEncoding := by
  rintro rfl
  simp only [encArgError] at h
  repeat' split at h
  all_goals simp at h

/-- The errors of the argument checks of `AEAD_DEC` (R190). -/
theorem decArgError_ne_reserved {e : ErrorKind} (h : decArgError s = some e) :
    e ≠ .invalidHexEncoding := by
  rintro rfl
  simp only [decArgError] at h
  repeat' split at h
  all_goals simp at h

/-- `CTR_XCRYPT` writes as many bytes as it has read (R180). -/
theorem inv_exec_ctrXcrypt (h : s.Inv) (v : Variant) :
    ∃ t, exec (.ctrXcrypt v) s = .next t ∧ t.Inv := by
  rw [exec_ctrXcrypt]
  split
  case isFalse => exact ⟨_, rfl, inv_error (inv_clearOut h) _ nofun⟩
  split
  case isTrue => exact ⟨_, rfl, inv_error (inv_clearOut h) _ nofun⟩
  case isFalse hlen =>
    rw [inTooLong_iff, Nat.not_lt] at hlen
    have hout := inv_writeOut (inv_tablesFor v h) (length_streamOut v (tablesFor v s) s.j0 s.inlen.toNat)
      (by simpa using hlen)
    exact ⟨_, rfl, inv_success (inv_results hout _ _ _ _ _ _) _⟩

/-- The ciphertext and the tag of `AEAD_ENC` fill `OUTBUF` up to `INLEN + 16`, and the sum does not
wrap for a legal capacity (R11, R192). -/
theorem inv_sealed (h : s.Inv) {n : Word} {C : List Byte} (hC : C.length = n.toNat) (tag : Block)
    (hfits : n.toNat ≤ s.cfgMsgMax.toNat) :
    State.Inv { s with
      outbuf := (Memory.writeBytes [] 0 C).writeBytes n.toNat (blockBytes tag)
      outlen := n + 16#32 } := by
  obtain ⟨-, -, -, -, -, hmax⟩ := h.capacity
  have hsum : (n + 16#32).toNat = n.toNat + 16 := by
    rw [BitVec.toNat_add]
    exact Nat.mod_eq_of_lt (by simp; omega)
  have hwf : (Memory.writeBytes [] 0 C).wf = true := wf_writeBytes rfl 0 C
  refine inv_output h (wf_writeBytes hwf _ _) (read_writeBytes_above hwf ?_ ?_) (by omega)
  · simp [hsum]
  · exact read_writeBytes_above rfl (by omega) fun _ _ => rfl

theorem inv_exec_aeadEnc (h : s.Inv) (v : Variant) :
    ∃ t, exec (.aeadEnc v) s = .next t ∧ t.Inv := by
  rw [exec_aeadEnc]
  split
  next e he => exact ⟨_, rfl, inv_abort h _ (encArgError_ne_reserved he)⟩
  next hargs =>
    obtain ⟨hkey, -, -, hlen⟩ := (encArgError_eq_none s).1 hargs
    have hsealed := inv_sealed (inv_callBase v h hkey)
      (length_streamOut v (callBase v s) (callJ0 s) s.inlen.toNat)
      (callTagOf v s (streamOut v (callBase v s) (callJ0 s) s.inlen.toNat))
      (by simpa [callBase] using hlen)
    exact ⟨_, rfl, inv_success (inv_endCall hsealed) _⟩

/-- An accepted `AEAD_DEC` writes `INLEN - 16` bytes, a rejected one none (R195). -/
theorem inv_exec_aeadDec (h : s.Inv) (v : Variant) :
    ∃ t, exec (.aeadDec v) s = .next t ∧ t.Inv := by
  rw [exec_aeadDec]
  split
  next e he => exact ⟨_, rfl, inv_abort h _ (decArgError_ne_reserved he)⟩
  next hargs =>
    obtain ⟨hkey, -, hmin, -, hlen⟩ := (decArgError_eq_none s).1 hargs
    have hbase := inv_callBase v h hkey
    split
    case isFalse => exact ⟨_, rfl, inv_abort hbase _ nofun⟩
    case isTrue =>
      have hdiff : (s.inlen - 16#32).toNat = s.inlen.toNat - 16 :=
        BitVec.toNat_sub_of_le (by simpa [BitVec.le_def] using hmin)
      have hopened := inv_writeOut hbase (n := s.inlen - 16#32)
        ((length_streamOut v (callBase v s) (callJ0 s) _).trans hdiff.symm)
        (by simp only [callBase, expandKey_cfgMsgMax, tablesFor_cfgMsgMax]; omega)
      exact ⟨_, rfl, inv_endCommand (inv_endCall hopened) _ nofun fun _ => rfl⟩

/-- Every command answers a next state that meets the invariant. -/
theorem inv_exec (h : s.Inv) (i : Instr) : ∃ t, exec i s = .next t ∧ t.Inv := by
  cases i with
  | nop => exact ⟨_, exec_nop s, inv_success h _⟩
  | softReset => exact ⟨_, exec_softReset s, inv_softReset h⟩
  | ttInit => exact ⟨_, exec_ttInit s, inv_success (inv_initTables h) _⟩
  | keyExpand =>
    rw [exec_keyExpand]
    split
    case isTrue hlen => exact ⟨_, rfl, inv_success (inv_expandKey h hlen) _⟩
    case isFalse => exact ⟨_, rfl, inv_error h _ nofun⟩
  | blkEnc v =>
    rw [exec_blkEnc]
    split
    · exact ⟨_, rfl, inv_success (inv_results (inv_tablesFor v h) _ _ _ _ _ _) _⟩
    · exact ⟨_, rfl, inv_error h _ nofun⟩
  | blkDec v =>
    rw [exec_blkDec]
    split
    · exact ⟨_, rfl, inv_success (inv_results (inv_tablesFor v h) _ _ _ _ _ _) _⟩
    · exact ⟨_, rfl, inv_error h _ nofun⟩
  | gfMul => exact ⟨_, exec_gfMul s, inv_success (inv_results h _ _ _ _ _ _) _⟩
  | ghInit => exact ⟨_, exec_ghInit s, inv_success (inv_results h _ _ _ _ _ _) _⟩
  | ghUpd => exact ⟨_, exec_ghUpd s, inv_success (inv_results h _ _ _ _ _ _) _⟩
  | ghMsg =>
    rw [exec_ghMsg]
    split
    · exact ⟨_, rfl, inv_error h _ nofun⟩
    · exact ⟨_, rfl, inv_success (inv_results h _ _ _ _ _ _) _⟩
  | hDerive v =>
    rw [exec_hDerive]
    split
    · exact ⟨_, rfl, inv_success (inv_results (inv_tablesFor v h) _ _ _ _ _ _) _⟩
    · exact ⟨_, rfl, inv_error h _ nofun⟩
  | j0Derive =>
    rw [exec_j0Derive]
    split
    · exact ⟨_, rfl, inv_error h _ nofun⟩
    · exact ⟨_, rfl, inv_success (inv_results h _ _ _ _ _ _) _⟩
  | ctrInc => exact ⟨_, exec_ctrInc s, inv_success (inv_results h _ _ _ _ _ _) _⟩
  | ctrXcrypt v => exact inv_exec_ctrXcrypt h v
  | aeadEnc v => exact inv_exec_aeadEnc h v
  | aeadDec v => exact inv_exec_aeadDec h v

/-- A written word runs its command, or is an illegal one (R110, R218). -/
theorem inv_runWord (h : s.Inv) (w : Word) : ∃ t, runWord w s = .next t ∧ t.Inv := by
  unfold runWord
  split
  next i _ => exact inv_exec h i
  · exact ⟨_, rfl, inv_error h w nofun⟩

/-! ## The host port -/

/-- A store into `REG` leaves all that the invariant speaks of, but for `KEY`, `KEYLEN` and `RK_VALID`;
I1 holds as the first two change only when the last is cleared (R69). -/
theorem inv_hostStore_reg (h : s.Inv) (addr : Nat) (data : List Byte) :
    (hostStore s .reg addr data).Inv := by
  obtain ⟨haad, hin⟩ := hostStore_reg_buffers s addr data
  constructor
  case keysFresh =>
    intro hvalid
    obtain ⟨hvalid', hkey, hlen⟩ := hostStore_keys s .reg addr data hvalid
    simpa [hkey, hlen] using h.keysFresh hvalid'
  all_goals
    simp only [State.TablesComplete, haad, hin, hostStore_cfgAadMax, hostStore_cfgMsgMax,
      hostStore_ttReady, hostStore_tt, hostStore_outlen, hostStore_outbuf, hostStore_errf,
      hostStore_err, hostStore_authOk, hostStore_phase, hostStore_done, hostStore_errseen]
  exacts [h.capacity, h.tablesComplete, h.outTail, h.outLength, h.errFlagged, h.authClean,
    h.phaseRejected, h.phaseAborted, h.phaseInit, h.phaseObservable, h.errCode, h.errseenReserved,
    h.buffersCanonical, h.aadInside, h.inInside]

/-- An accepted store keeps the invariant: in a buffer its bytes lie inside (R60, R70). -/
theorem inv_hostStore (h : s.Inv) {sp : Space} {addr : Nat} {data : List Byte}
    (hfits : addr + data.length ≤ spaceSize s sp) : (hostStore s sp addr data).Inv := by
  obtain ⟨haad, hin, hout⟩ := h.buffersCanonical
  cases sp with
  | reg => exact inv_hostStore_reg h addr data
  | aadbuf =>
    rw [hostStore_toAadbuf]
    exact { h with
      buffersCanonical := ⟨wf_writeBytes haad _ _, hin, hout⟩
      aadInside := read_writeBytes_above haad hfits h.aadInside }
  | inbuf =>
    rw [hostStore_toInbuf]
    exact { h with
      buffersCanonical := ⟨haad, wf_writeBytes hin _ _, hout⟩
      inInside := read_writeBytes_above hin hfits h.inInside }
  | outbuf =>
    rw [hostStore_toOutbuf]
    exact h

/-! ## The step -/

/-- Every step answers a next state that meets the invariant. -/
theorem inv_step (h : s.Inv) : ∃ t, step s = .next t ∧ t.Inv := by
  rcases step_cases s with ⟨-, hs⟩ | ⟨rest, -, hs⟩ | ⟨rest, r, hs⟩ | ⟨rest, w, -, hs⟩ |
    ⟨rest, sp, addr, data, -, hbus, -, hs⟩
  · exact ⟨s, hs, h⟩
  · exact ⟨_, hs, inv_hardReset (inv_port h rest s.response)⟩
  · exact ⟨_, hs, inv_port h rest r⟩
  · rw [hs]
    exact inv_runWord (inv_port h rest .accepted) w
  · obtain ⟨-, -, hfits⟩ := busError_bounds hbus
    have hstored := inv_hostStore (inv_port h rest s.response) (sp := sp) hfits
    exact ⟨_, hs, inv_port hstored _ .accepted⟩

end

/-- Settles O44: a step has one answer, and it meets the invariant. -/
theorem everyStepKeepsInvariant : Obligations.EveryStepKeepsInvariant := by
  intro s t h hstep
  obtain ⟨u, hu, hinv⟩ := inv_step h
  obtain rfl : u = t := Host.Outcome.next.inj (hu.symm.trans hstep)
  exact hinv

end Sys2Proof.Invariant
end

section
/-! PROOFS. The state of the engine: the two resets, the step that runs a command, the view `STATUS`, what the
commands write and what they leave. -/

namespace Sys2Proof.EngineState

open Sys2Proof.Machine Sys2Proof.Laws

/-! ## The resets and the step of a command -/

/-- Settles O8: the equation of `SOFT_RESET`, its state written out (R52, R112). -/
theorem softResetKeepsOnlyTables : Obligations.SoftResetKeepsOnlyTables :=
  ⟨rfl, exec_softReset⟩

/-- Settles O45: the step on a hard reset; the tables are those that the reset draws (R51, R240). -/
theorem hardResetGivesResetValues : Obligations.HardResetGivesResetValues :=
  fun s _ h => ⟨uninitTables (s.resets + 1), step_hardReset h⟩

/-- A word that decodes runs its command (R110). -/
theorem runWord_of_decode {w : Word} {i : Instr} (h : decode w = .ok i) (s : State) :
    runWord w s = exec i s := by
  rw [runWord, h]

/-- Settles O5: the write to `CMD` runs its word, and the word its command. -/
theorem stepRunsDecodedCommand : Obligations.StepRunsDecodedCommand := by
  intro s rest w i hpending hdecode
  rw [step_command hpending, runWord_of_decode hdecode]

/-! ## The view STATUS (R33) -/

/-- A flag stands in its own bit. -/
theorem getLsbD_flagBit (f : Bool) {i k : Nat} (hk : k < 32) :
    (flagBit f i).getLsbD k = (f && decide (k = i)) := by
  cases f with
  | false => simp [flagBit]
  | true =>
    rw [flagBit, if_pos rfl, BitVec.getLsbD_shiftLeft, BitVec.getLsbD_one]
    by_cases h : k = i
    · simp [h, show i < 32 by omega]
    · simp [h]
      omega

/-- Every bit of `STATUS`. -/
theorem getLsbD_statusWord (s : State) {k : Nat} (hk : k < 32) :
    (statusWord s).getLsbD k =
      (s.done && decide (k = 0) || s.errf && decide (k = 1) || s.ttReady && decide (k = 2) ||
        s.rkValid && decide (k = 3) || s.authOk && decide (k = 4) ||
        !decide (k < 8) && s.phase.code.getLsbD (k - 8)) := by
  simp only [statusWord, BitVec.getLsbD_or, getLsbD_flagBit _ hk, BitVec.getLsbD_shiftLeft,
    BitVec.getLsbD_setWidth, hk, show k - 8 < 32 by omega, decide_true, Bool.true_and]

/-- Above the flags `STATUS` shows `PHASE` only. -/
theorem getLsbD_statusWord_of_ge (s : State) {k : Nat} (h5 : 5 ≤ k) (hk : k < 32) :
    (statusWord s).getLsbD k = (!decide (k < 8) && s.phase.code.getLsbD (k - 8)) := by
  rw [getLsbD_statusWord s hk]
  simp [show k ≠ 0 by omega, show k ≠ 1 by omega, show k ≠ 2 by omega, show k ≠ 3 by omega,
    show k ≠ 4 by omega]

/-- A field of `STATUS` above the flags. -/
theorem extractLsb'_statusWord {lo len : Nat} {f : BitVec len} (s : State) (h5 : 5 ≤ lo)
    (hlen : lo + len ≤ 32)
    (h : ∀ k < len, f.getLsbD k = (!decide (lo + k < 8) && s.phase.code.getLsbD (lo + k - 8))) :
    (statusWord s).extractLsb' lo len = f := by
  apply BitVec.eq_of_getLsbD_eq
  intro k hk
  rw [BitVec.getLsbD_extractLsb', getLsbD_statusWord_of_ge s (by omega) (by omega), h k hk]
  simp [hk]

/-- Settles O49: each field of `STATUS` is read off its bits. -/
theorem statusShowsFlagsAndPhase : Obligations.StatusShowsFlagsAndPhase := by
  refine ⟨⟨rfl, rfl, rfl, rfl, rfl, rfl, rfl, rfl⟩, fun s => ⟨?_, ?_, ?_, ?_, ?_, ?_, ?_, ?_⟩⟩
  case refine_6 =>
    refine extractLsb'_statusWord s (by decide) (by decide) fun k hk => ?_
    simp [show 5 + k < 8 by omega]
  case refine_7 =>
    refine extractLsb'_statusWord s (by decide) (by decide) fun k _ => ?_
    simp [show ¬ 8 + k < 8 by omega]
  case refine_8 =>
    refine extractLsb'_statusWord s (by decide) (by decide) fun k _ => ?_
    simp [BitVec.getLsbD_of_ge s.phase.code (11 + k - 8) (by omega)]
  all_goals
    rw [getLsbD_statusWord s (by decide)]
    simp

/-! ## What the commands write (R26, R62) -/

/-- A command with this outcome has passed its checks and run its first action: it succeeds, or is an
`AEAD_DEC` that rejects its tag (R131, R195). -/
def reached : Option ErrorKind → Bool
  | none => true
  | some e => e == .authenticationFailure

/-- The variant whose first action a command with this outcome has run on the tables: that of `TT_INIT` is
that of `V = 1`, and a command that has not passed its checks leaves the tables as `V = 0` does (R113,
R131). -/
def tablesVariant (i : Instr) (o : Option ErrorKind) : Variant :=
  match i with
  | .ttInit => .tableAccelerated
  | .blkEnc v | .blkDec v | .hDerive v | .ctrXcrypt v | .aeadEnc v | .aeadDec v =>
    if reached o then v else .reference
  | _ => .reference

/-- `x`, over which command `i` with outcome `o` writes its record, differs from `s` in the registers that
`i` writes only (R26, R62). -/
structure Writes (i : Instr) (o : Option ErrorKind) (s x : State) : Prop where
  operands : x.key = s.key ∧ x.iv = s.iv ∧ x.blkin = s.blkin ∧ x.gfx = s.gfx ∧ x.gfy = s.gfy ∧
    x.keylen = s.keylen ∧ x.ivlen = s.ivlen ∧ x.aadlen = s.aadlen ∧ x.inlen = s.inlen ∧
    x.aadbuf = s.aadbuf ∧ x.inbuf = s.inbuf ∧ x.cfgAadMax = s.cfgAadMax ∧ x.cfgMsgMax = s.cfgMsgMax ∧
    x.pending = s.pending ∧ x.response = s.response ∧ x.resets = s.resets
  errseen : x.errseen = s.errseen
  tables : x.tt = (tablesFor (tablesVariant i o) s).tt ∧
    x.ttReady = (tablesFor (tablesVariant i o) s).ttReady
  blkout : (∀ v, i ≠ .blkEnc v ∧ i ≠ .blkDec v) → x.blkout = s.blkout
  gfz : i ≠ .gfMul → x.gfz = s.gfz
  roundKeys : (∀ v, i ≠ .aeadEnc v ∧ i ≠ .aeadDec v) → i ≠ .keyExpand →
    x.rk = s.rk ∧ x.rkValid = s.rkValid
  hashKey : (∀ v, i ≠ .aeadEnc v ∧ i ≠ .aeadDec v) → (∀ v, i ≠ .hDerive v) → x.h = s.h
  accumulator : (∀ v, i ≠ .aeadEnc v ∧ i ≠ .aeadDec v) → i ≠ .ghInit → i ≠ .ghUpd → i ≠ .ghMsg →
    x.y = s.y
  initialCounter : (∀ v, i ≠ .aeadEnc v ∧ i ≠ .aeadDec v) → i ≠ .j0Derive → x.j0 = s.j0
  counter : (∀ v, i ≠ .aeadEnc v ∧ i ≠ .aeadDec v) → i ≠ .ctrInc → (∀ v, i ≠ .ctrXcrypt v) →
    x.ctr = s.ctr
  output : (∀ v, i ≠ .aeadEnc v ∧ i ≠ .aeadDec v) → (∀ v, i ≠ .ctrXcrypt v) →
    x.outbuf = s.outbuf ∧ x.outlen = s.outlen

/-- An argument check never ends with `AuthenticationFailure` (R190). -/
theorem reached_encArgError {s : State} {e : ErrorKind} (h : encArgError s = some e) :
    reached (some e) = false := by
  unfold encArgError at h
  repeat' split at h
  all_goals cases h
  all_goals rfl

/-- An argument check never ends with `AuthenticationFailure` (R190). -/
theorem reached_decArgError {s : State} {e : ErrorKind} (h : decArgError s = some e) :
    reached (some e) = false := by
  unfold decArgError at h
  repeat' split at h
  all_goals cases h
  all_goals rfl

/-- Everything a command but `SOFT_RESET` can do: it writes its record over a state that differs from the
one before in its own registers only. The cases are the equations of the commands with their branches; in
each the fields of `Writes` are the laws of the updates that the branch makes. -/
theorem exec_writes (i : Instr) (s : State) (hi : i ≠ .softReset) :
    ∃ o a x, exec i s = .next (endCommand (encode i) o a x) ∧ Writes i o s x := by
  cases i with
  | softReset => exact absurd rfl hi
  | nop => exact ⟨_, _, _, exec_nop s, by constructor <;> simp [tablesVariant]⟩
  | ttInit => exact ⟨_, _, _, exec_ttInit s, by constructor <;> simp [tablesVariant]⟩
  | keyExpand =>
    rw [exec_keyExpand]
    split <;> exact ⟨_, _, _, rfl, by constructor <;> simp [tablesVariant]⟩
  | blkEnc v =>
    rw [exec_blkEnc]
    split <;> exact ⟨_, _, _, rfl, by constructor <;> simp [tablesVariant, reached]⟩
  | blkDec v =>
    rw [exec_blkDec]
    split <;> exact ⟨_, _, _, rfl, by constructor <;> simp [tablesVariant, reached]⟩
  | gfMul => exact ⟨_, _, _, exec_gfMul s, by constructor <;> simp [tablesVariant]⟩
  | ghInit => exact ⟨_, _, _, exec_ghInit s, by constructor <;> simp [tablesVariant]⟩
  | ghUpd => exact ⟨_, _, _, exec_ghUpd s, by constructor <;> simp [tablesVariant]⟩
  | ghMsg =>
    rw [exec_ghMsg]
    split <;> exact ⟨_, _, _, rfl, by constructor <;> simp [tablesVariant]⟩
  | hDerive v =>
    rw [exec_hDerive]
    split <;> exact ⟨_, _, _, rfl, by constructor <;> simp [tablesVariant, reached]⟩
  | j0Derive =>
    rw [exec_j0Derive]
    split <;> exact ⟨_, _, _, rfl, by constructor <;> simp [tablesVariant]⟩
  | ctrInc => exact ⟨_, _, _, exec_ctrInc s, by constructor <;> simp [tablesVariant]⟩
  | ctrXcrypt v =>
    rw [exec_ctrXcrypt]
    split
    · split <;> exact ⟨_, _, _, rfl, by constructor <;> simp [tablesVariant, reached]⟩
    · exact ⟨_, _, _, rfl, by constructor <;> simp [tablesVariant, reached]⟩
  | aeadEnc v =>
    rw [exec_aeadEnc]
    split
    next e he =>
      exact ⟨_, _, _, rfl, by constructor <;> simp [tablesVariant, reached_encArgError he]⟩
    next => exact ⟨_, _, _, rfl, by constructor <;> simp [tablesVariant, reached, callBase]⟩
  | aeadDec v =>
    rw [exec_aeadDec]
    split
    next e he =>
      exact ⟨_, _, _, rfl, by constructor <;> simp [tablesVariant, reached_decArgError he]⟩
    next => split <;> exact ⟨_, _, _, rfl, by constructor <;> simp [tablesVariant, reached, callBase]⟩

/-- `ERR` says whether a command has passed its checks (R38, R131). -/
theorem reached_iff (o : Option ErrorKind) : reached o = true ↔ errWord o = 0#32 ∨ errWord o = 5#32 := by
  rcases o with _ | e
  · decide
  · cases e <;> decide

/-- Tables that are ready stay as they are under the first action of a command (R131). -/
theorem tablesFor_of_ready (v : Variant) {s : State} (h : s.ttReady = true) :
    (tablesFor v s).tt = s.tt ∧ (tablesFor v s).ttReady = true := by
  cases v with
  | reference => exact ⟨rfl, h⟩
  | tableAccelerated => exact ⟨by simp [initTables_tt, h], by simp⟩

/-- The commands that offer both variants (R94). -/
def variantCommands : List (Variant → Instr) :=
  [.blkEnc, .blkDec, .hDerive, .ctrXcrypt, .aeadEnc, .aeadDec]

theorem forall_variantCommands {P : (Variant → Instr) → Prop} : (∀ f ∈ variantCommands, P f) ↔
    P .blkEnc ∧ P .blkDec ∧ P .hDerive ∧ P .ctrXcrypt ∧ P .aeadEnc ∧ P .aeadDec := by
  simp [variantCommands]

/-- A command with a variant that has passed its checks has run the first action of its variant. -/
theorem tablesVariant_apply (v : Variant) (o : Option ErrorKind) :
    ∀ f ∈ variantCommands, tablesVariant (f v) o = if reached o then v else .reference :=
  forall_variantCommands.2 ⟨rfl, rfl, rfl, rfl, rfl, rfl⟩

/-- Every other command leaves the tables as `V = 0` does. -/
theorem tablesVariant_other {i : Instr} (hv : ∀ f ∈ variantCommands, i ≠ f .tableAccelerated)
    (hi : i ≠ .ttInit) (o : Option ErrorKind) : tablesVariant i o = .reference := by
  have hcases : (∃ f ∈ variantCommands, ∃ v, i = f v) ∨ tablesVariant i o = .reference := by
    cases i <;> simp_all [variantCommands, tablesVariant]
  rcases hcases with ⟨f, hf, v, rfl⟩ | h
  · cases v with
    | reference => rw [tablesVariant_apply _ _ f hf, ite_self]
    | tableAccelerated => exact absurd rfl (hv f hf)
  · exact h

section
variable {i : Instr} {o : Option ErrorKind} {s x : State}

/-- The tables of a command that has run the first action of variant `v`. -/
theorem Writes.tablesAfter (w : Writes i o s x) {v : Variant} (hv : tablesVariant i o = v) :
    TablesAfter v s x.tt x.ttReady := by
  obtain ⟨htt, hready⟩ := w.tables
  rw [htt, hready, hv]
  exact tablesFor_after v s

/-- The tables of a command that has left them. -/
theorem Writes.tablesKept (w : Writes i o s x) (hv : tablesVariant i o = .reference) :
    x.tt = s.tt ∧ x.ttReady = s.ttReady :=
  (w.tablesAfter hv).1 rfl

end

/-- Settles O48: the clauses are those of `Writes`, as the outcome record holds none of these registers;
the tables are read off the variant that ran on them. -/
theorem commandsWriteOnlyTheirRegisters : Obligations.CommandsWriteOnlyTheirRegisters := by
  intro i s t hexec hi
  obtain ⟨o, a, x, hx, w⟩ := exec_writes i s hi
  obtain rfl : endCommand (encode i) o a x = t := Host.Outcome.next.inj (hx.symm.trans hexec)
  refine ⟨w.operands, ?_, fun hv hi => w.tablesKept (tablesVariant_other hv hi o), ?_, w.blkout, w.gfz,
    fun hc => ⟨w.roundKeys hc, w.hashKey hc, w.accumulator hc, w.initialCounter hc, w.counter hc, ?_⟩⟩
  · rintro rfl
    exact w.tablesAfter rfl
  · rintro ⟨f, hf, rfl⟩
    have hv := tablesVariant_apply .tableAccelerated o f hf
    refine ⟨fun herr => w.tablesAfter (hv.trans (if_pos ((reached_iff o).2 herr))), fun h0 h5 => ?_⟩
    exact w.tablesKept (hv.trans (if_neg fun hr => ((reached_iff o).1 hr).elim h0 h5))
  · intro hx
    obtain ⟨hbuf, hlen⟩ := w.output hc hx
    exact ⟨hlen, fun p => congrArg (Memory.read · p) hbuf⟩

/-! ## What a step keeps -/

/-- The word of `SOFT_RESET` is 0x00000001 (R93). -/
theorem eq_one_of_decode_softReset {w : Word} (h : decode w = .ok .softReset) : w = 0x00000001#32 := by
  have hrows : ∀ r ∈ opcodeMap, (r.plain = .softReset → r.op = 0x01#8) ∧ r.variant1 ≠ some .softReset := by
    decide
  unfold decode at h
  split at h
  · cases h
  next hrsv =>
    split at h
    · cases h
    next r hr =>
      obtain ⟨hplain, hvariant⟩ := hrows r (List.mem_of_find?_eq_some hr)
      have hop : r.op = (commandFields w).op := by simpa using List.find?_some hr
      split at h
      next hv =>
        have h1 := congrArg BitVec.toNat (not_not.1 hrsv)
        have h2 := congrArg BitVec.toNat hv
        have h3 := congrArg BitVec.toNat (hop.symm.trans (hplain (Except.ok.inj h)))
        simp only [commandFields, BitVec.extractLsb'_toNat, Nat.shiftRight_eq_div_pow] at h1 h2 h3
        apply BitVec.eq_of_toNat_eq
        simp at h1 h2 h3 ⊢
        omega
      · split at h
        · cases h
        next hi => exact absurd (hi.trans (congrArg some (Except.ok.inj h))) hvariant

/-- The outcome record clears no bit of `ERRSEEN` (R39). -/
theorem getLsbD_errSeenAfter {w : Word} {k : Nat} (h : w.getLsbD k = true) (o : Option ErrorKind) :
    (errSeenAfter w o).getLsbD k = true := by
  cases o <;> simp [errSeenAfter, h]

/-- A command but `SOFT_RESET` clears no bit of `ERRSEEN` (R39). -/
theorem exec_errseen {i : Instr} {s t : State} {k : Nat} (hexec : exec i s = .next t)
    (hi : i ≠ .softReset) (h : s.errseen.getLsbD k = true) : t.errseen.getLsbD k = true := by
  obtain ⟨o, a, x, hx, w⟩ := exec_writes i s hi
  obtain rfl := Host.Outcome.next.inj (hx.symm.trans hexec)
  rw [endCommand_errseen, w.errseen]
  exact getLsbD_errSeenAfter h o

/-- A written word but that of `SOFT_RESET` clears no bit of `ERRSEEN` (R39, R218). -/
theorem runWord_errseen {w : Word} {s t : State} {k : Nat} (hrun : runWord w s = .next t)
    (hw : w ≠ 0x00000001#32) (h : s.errseen.getLsbD k = true) : t.errseen.getLsbD k = true := by
  unfold runWord at hrun
  split at hrun
  next i hi =>
    exact exec_errseen hrun (fun hr => hw (eq_one_of_decode_softReset (hr ▸ hi))) h
  · obtain rfl := Host.Outcome.next.inj hrun
    exact getLsbD_errSeenAfter h _

/-- Settles O46: of everything a step can be, only the two resets clear a bit. -/
theorem errseenIsSticky : Obligations.ErrseenIsSticky := by
  intro s t k hstep hk hhard hsoft
  rcases step_cases s with ⟨-, hs⟩ | ⟨rest, hp, -⟩ | ⟨rest, r, hs⟩ | ⟨rest, w, hp, hs⟩ |
    ⟨rest, sp, addr, data, -, -, -, hs⟩
  · exact Host.Outcome.next.inj (hs.symm.trans hstep) ▸ hk
  · exact absurd hp (hhard rest)
  · exact Host.Outcome.next.inj (hs.symm.trans hstep) ▸ hk
  · exact runWord_errseen (hs.symm.trans hstep) (fun hw => hsoft rest (by rw [hp, hw]; rfl)) hk
  · obtain rfl := Host.Outcome.next.inj (hs.symm.trans hstep)
    simpa using hk

/-- No command writes tables that are ready (R47, R131). -/
theorem exec_tables_of_ready {i : Instr} {s t : State} (hexec : exec i s = .next t)
    (h : s.ttReady = true) : t.ttReady = true ∧ t.tt = s.tt := by
  by_cases hi : i = .softReset
  · subst hi
    obtain rfl := Host.Outcome.next.inj hexec
    exact ⟨h, rfl⟩
  · obtain ⟨o, a, x, hx, w⟩ := exec_writes i s hi
    obtain rfl := Host.Outcome.next.inj (hx.symm.trans hexec)
    obtain ⟨htt, hready⟩ := w.tables
    obtain ⟨ktt, kready⟩ := tablesFor_of_ready (tablesVariant i o) h
    exact ⟨hready.trans kready, htt.trans ktt⟩

/-- No written word writes tables that are ready (R47, R218). -/
theorem runWord_tables_of_ready {w : Word} {s t : State} (hrun : runWord w s = .next t)
    (h : s.ttReady = true) : t.ttReady = true ∧ t.tt = s.tt := by
  unfold runWord at hrun
  split at hrun
  · exact exec_tables_of_ready hrun h
  · obtain rfl := Host.Outcome.next.inj hrun
    exact ⟨h, rfl⟩

/-- Settles O47: of everything a step can be, only a hard reset writes tables that are ready. -/
theorem tablesAreWrittenOnce : Obligations.TablesAreWrittenOnce := by
  intro s t hstep h hhard
  rcases step_cases s with ⟨-, hs⟩ | ⟨rest, hp, -⟩ | ⟨rest, r, hs⟩ | ⟨rest, w, -, hs⟩ |
    ⟨rest, sp, addr, data, -, -, -, hs⟩
  · obtain rfl := Host.Outcome.next.inj (hs.symm.trans hstep)
    exact ⟨h, rfl⟩
  · exact absurd hp (hhard rest)
  · obtain rfl := Host.Outcome.next.inj (hs.symm.trans hstep)
    exact ⟨h, rfl⟩
  · exact runWord_tables_of_ready (s := { s with pending := rest, response := .accepted })
      (hs.symm.trans hstep) h
  · obtain rfl := Host.Outcome.next.inj (hs.symm.trans hstep)
    simp [h]

/-! ## What the AEAD commands read (R192, R195) -/

/-- Two calls with the same operands and the same block encryption, each in its own state and variant. -/
structure SameCall (v v' : Variant) (s u : State) : Prop where
  keylen : s.keylen = u.keylen
  iv : s.iv = u.iv
  ivlen : s.ivlen = u.ivlen
  aadlen : s.aadlen = u.aadlen
  inlen : s.inlen = u.inlen
  aadbuf : s.aadbuf = u.aadbuf
  inbuf : s.inbuf = u.inbuf
  cfgAadMax : s.cfgAadMax = u.cfgAadMax
  cfgMsgMax : s.cfgMsgMax = u.cfgMsgMax
  cipher : engineEnc v (callBase v s) = engineEnc v' (callBase v' u)

namespace SameCall
variable {v v' : Variant} {s u : State}

theorem encArgError (c : SameCall v v' s u) : encArgError s = Machine.encArgError u := by
  unfold Machine.encArgError keyLenOk ivLenOk aadTooLong plainTooLong
  rw [c.keylen, c.ivlen, c.aadlen, c.inlen, c.cfgAadMax, c.cfgMsgMax]

theorem decArgError (c : SameCall v v' s u) : decArgError s = Machine.decArgError u := by
  unfold Machine.decArgError keyLenOk ivLenOk aadTooLong inTooLong bufSize
  rw [c.keylen, c.ivlen, c.aadlen, c.inlen, c.cfgAadMax, c.cfgMsgMax]

theorem inOperand (c : SameCall v v' s u) (n : Nat) : inOperand s n = Machine.inOperand u n := by
  rw [Machine.inOperand, Machine.inOperand, c.inbuf]

theorem callJ0 (c : SameCall v v' s u) : callJ0 s = Laws.callJ0 u := by
  unfold Laws.callJ0 ivJ0 ivLenOk ivOperand
  rw [c.iv, c.ivlen]

theorem receivedTag (c : SameCall v v' s u) : receivedTag s = Laws.receivedTag u := by
  rw [Laws.receivedTag, Laws.receivedTag, c.inbuf, c.inlen]

theorem callTagOf (c : SameCall v v' s u) (C : List Byte) : callTagOf v s C = Laws.callTagOf v' u C := by
  simp only [Laws.callTagOf, aadOperand, c.cipher, c.callJ0, c.aadbuf, c.aadlen]

theorem streamOut (c : SameCall v v' s u) (n : Nat) :
    streamOut v (callBase v s) (Laws.callJ0 s) n = Laws.streamOut v' (callBase v' u) (Laws.callJ0 u) n := by
  simp only [Laws.streamOut, Machine.inOperand, callBase_inbuf, c.cipher, c.callJ0, c.inbuf]

end SameCall

/-- The tables that a command uses are those that were ready, or the defined ones (R131). -/
theorem tablesFor_congr (v : Variant) {s u : State} (htt : s.tt = u.tt) (hready : s.ttReady = u.ttReady) :
    (tablesFor v s).tt = (tablesFor v u).tt ∧ (tablesFor v s).ttReady = (tablesFor v u).ttReady := by
  cases v with
  | reference => exact ⟨htt, hready⟩
  | tableAccelerated => simp [initTables_tt, htt, hready]

@[simp] theorem callBase_tt (v : Variant) (s : State) : (callBase v s).tt = (tablesFor v s).tt := rfl

@[simp] theorem callBase_ttReady (v : Variant) (s : State) :
    (callBase v s).ttReady = (tablesFor v s).ttReady := rfl

/-- Settles O40: both calls have the same operands and, the key and the tables being equal, the same block
encryption; every other register that the clauses name is written by the command. -/
theorem aeadIgnoresEarlierWorkingState : Obligations.AeadIgnoresEarlierWorkingState := by
  intro v c s u hc hkey hkeylen hiv hivlen haadlen hinlen haad hin haadMax hmsgMax htt hready
  obtain ⟨htt', hready'⟩ := tablesFor_congr v htt hready
  have call : SameCall v v s u := ⟨hkeylen, hiv, hivlen, haadlen, hinlen, haad, hin, haadMax, hmsgMax,
    by rw [engineEnc_callBase, engineEnc_callBase, htt', hkey]⟩
  rcases hc with rfl | rfl
  · rw [exec_aeadEnc, exec_aeadEnc, call.encArgError]
    split
    · exact ⟨_, _, rfl, rfl, by simp [htt, hready]⟩
    · refine ⟨_, _, rfl, rfl, ?_⟩
      simp [call.streamOut, call.callTagOf, hinlen, htt', hready']
  · rw [exec_aeadDec, exec_aeadDec, call.decArgError]
    split
    · exact ⟨_, _, rfl, rfl, by simp [htt, hready]⟩
    · rw [call.callTagOf, call.inOperand, call.receivedTag, hinlen]
      split
      · refine ⟨_, _, rfl, rfl, ?_⟩
        simp [call.streamOut, htt', hready']
      · exact ⟨_, _, rfl, rfl, by simp [htt', hready']⟩

/-! ## The two variants of a command (R133) -/

/-- The table path computes the reference round function from the defined tables: `L` is linear over the
substituted bytes (R132). -/
theorem tTab_eq_tRef {tt : Tables} (h : ∀ k b, ttLookup tt k b = ttEntry k b) : tTab tt = tRef := by
  funext a
  simp [tTab, h, ttEntry, tRef, tau_eq_xor, linL_xor]

/-- The round function of a command, whatever its variant (R133). -/
theorem roundFn_tablesFor {s : State} (hs : s.TablesComplete) (v : Variant) :
    roundFn v (tablesFor v s).tt = tRef := by
  cases v with
  | reference => rfl
  | tableAccelerated =>
    refine tTab_eq_tRef fun k b => ?_
    rw [tablesFor_tableAccelerated, initTables_tt]
    split
    next hready => exact hs hready k b
    next => exact ttLookup_ttDef k b

/-- Two variants of a call have the same operands and the same block encryption. -/
theorem sameCall_variants {s : State} (hs : s.TablesComplete) (v v' : Variant) : SameCall v v' s s :=
  ⟨rfl, rfl, rfl, rfl, rfl, rfl, rfl, rfl, rfl,
    by simp only [engineEnc_callBase, roundFn_tablesFor hs]⟩

/-- `x` with other tables. -/
def withTables (x : State) (tt : Tables) (ready : Bool) : State := { x with tt := tt, ttReady := ready }

theorem tablesFor_eq_withTables (v : Variant) (s : State) :
    tablesFor v s = withTables s (tablesFor v s).tt (tablesFor v s).ttReady :=
  tablesFor_eq v s

/-- The block encryption of a command that uses the round keys as they are (R134). -/
theorem engineEnc_tablesFor {s : State} (hs : s.TablesComplete) (v : Variant) :
    engineEnc v (tablesFor v s) = encBlock tRef s.rk := by
  funext B
  rw [engineEnc, roundFn_tablesFor hs, tablesFor_rk]

/-- The end of an AEAD call that has output: `m` with length `n`, and the call-local registers zero. -/
def callEnded (m : Memory) (n : Word) (x : State) : State :=
  endCall { expandKey x with outbuf := m, outlen := n }

theorem callEnded_withTables (m : Memory) (n : Word) (x : State) (tt : Tables) (ready : Bool) :
    callEnded m n (withTables x tt ready) = withTables (callEnded m n x) tt ready := rfl

/-- The command has one outcome and leaves one state, whatever its variant, apart from the tables and the
command word. -/
def VariantsAgree (f : Variant → Instr) (s : State) : Prop :=
  ∃ (o : Option ErrorKind) (a : Bool) (x : State), ∀ v, ∃ (tt : Tables) (ready : Bool),
    exec (f v) s = .next (endCommand (encode (f v)) o a (withTables x tt ready))

section
variable {f : Variant → Instr} {s : State} {o : Option ErrorKind} {a : Bool}

/-- A command that stops before its first action. -/
theorem variantsAgree_of_unreached {x : State}
    (h : ∀ v, exec (f v) s = .next (endCommand (encode (f v)) o a x)) : VariantsAgree f s :=
  ⟨o, a, x, fun v => ⟨x.tt, x.ttReady, h v⟩⟩

/-- A command whose update `g` of the state, after its first action, does not touch the tables. -/
theorem variantsAgree_of_reached {g : State → State}
    (h : ∀ v, exec (f v) s = .next (endCommand (encode (f v)) o a (g (tablesFor v s))))
    (hg : ∀ tt ready, g (withTables s tt ready) = withTables (g s) tt ready) : VariantsAgree f s :=
  ⟨o, a, g s, fun v => ⟨(tablesFor v s).tt, (tablesFor v s).ttReady, by
    rw [h, tablesFor_eq_withTables, hg]
    rfl⟩⟩

end

section
variable {s : State} (hs : s.TablesComplete)
include hs

theorem variantsAgree_blkEnc : VariantsAgree .blkEnc s := by
  by_cases hrk : s.rkValid = true
  · exact variantsAgree_of_reached (g := fun x => { x with blkout := encBlock tRef s.rk s.blkin })
      (fun v => by rw [exec_blkEnc, if_pos hrk, roundFn_tablesFor hs]) fun _ _ => rfl
  · exact variantsAgree_of_unreached fun v => (exec_blkEnc v s).trans (if_neg hrk)

theorem variantsAgree_blkDec : VariantsAgree .blkDec s := by
  by_cases hrk : s.rkValid = true
  · exact variantsAgree_of_reached (g := fun x => { x with blkout := decBlock tRef s.rk s.blkin })
      (fun v => by rw [exec_blkDec, if_pos hrk, roundFn_tablesFor hs]) fun _ _ => rfl
  · exact variantsAgree_of_unreached fun v => (exec_blkDec v s).trans (if_neg hrk)

theorem variantsAgree_hDerive : VariantsAgree .hDerive s := by
  by_cases hrk : s.rkValid = true
  · exact variantsAgree_of_reached (g := fun x => { x with h := encBlock tRef s.rk 0#128 })
      (fun v => by rw [exec_hDerive, if_pos hrk, roundFn_tablesFor hs]) fun _ _ => rfl
  · exact variantsAgree_of_unreached fun v => (exec_hDerive v s).trans (if_neg hrk)

theorem variantsAgree_ctrXcrypt : VariantsAgree .ctrXcrypt s := by
  by_cases hrk : s.rkValid = true
  · by_cases hlen : inTooLong s = true
    · exact variantsAgree_of_unreached fun v =>
        (exec_ctrXcrypt v s).trans ((if_pos hrk).trans (if_pos hlen))
    · have hout (v : Variant) : streamOut v (tablesFor v s) s.j0 s.inlen.toNat =
          (ctrStream (encBlock tRef s.rk) s.j0 (inOperand s s.inlen.toNat)).1 := by
        rw [streamOut, engineEnc_tablesFor hs, inOperand, inOperand, tablesFor_inbuf]
      exact variantsAgree_of_reached (g := fun x => { x with
          outbuf := Memory.writeBytes [] 0
            (ctrStream (encBlock tRef s.rk) s.j0 (inOperand s s.inlen.toNat)).1
          outlen := s.inlen
          ctr := inc32^[nchunks s.inlen.toNat + 1] s.j0 })
        (fun v => by rw [exec_ctrXcrypt, if_pos hrk, if_neg hlen, hout]) fun _ _ => rfl
  · exact variantsAgree_of_unreached fun v => (exec_ctrXcrypt v s).trans (if_neg hrk)

theorem variantsAgree_aeadEnc : VariantsAgree .aeadEnc s := by
  cases hargs : encArgError s with
  | some e => exact variantsAgree_of_unreached fun v => by rw [exec_aeadEnc, hargs]
  | none =>
    have hC (v : Variant) := (sameCall_variants hs v .reference).streamOut s.inlen.toNat
    generalize streamOut .reference (callBase .reference s) (callJ0 s) s.inlen.toNat = C at hC
    have htag (v : Variant) := (sameCall_variants hs v .reference).callTagOf C
    refine variantsAgree_of_reached (o := none) (a := false)
      (g := callEnded ((Memory.writeBytes [] 0 C).writeBytes s.inlen.toNat
        (blockBytes (callTagOf .reference s C))) (s.inlen + 16#32))
      (fun v => ?_) (callEnded_withTables _ _ s)
    rw [exec_aeadEnc, hargs]
    simp only [hC, htag]
    rfl

theorem variantsAgree_aeadDec : VariantsAgree .aeadDec s := by
  cases hargs : decArgError s with
  | some e => exact variantsAgree_of_unreached fun v => by rw [exec_aeadDec, hargs]
  | none =>
    have hP (v : Variant) := (sameCall_variants hs v .reference).streamOut (s.inlen.toNat - 16)
    generalize streamOut .reference (callBase .reference s) (callJ0 s) (s.inlen.toNat - 16) = P at hP
    have htag (v : Variant) :=
      (sameCall_variants hs v .reference).callTagOf (inOperand s (s.inlen.toNat - 16))
    by_cases heq : ctEq16 (callTagOf .reference s (inOperand s (s.inlen.toNat - 16))) (receivedTag s) = true
    · refine variantsAgree_of_reached (o := none) (a := true)
        (g := callEnded (Memory.writeBytes [] 0 P) (s.inlen - 16#32)) (fun v => ?_)
        (callEnded_withTables _ _ s)
      rw [exec_aeadDec, hargs, hP, htag]
      exact if_pos heq
    · refine variantsAgree_of_reached (o := some .authenticationFailure) (a := false)
        (g := fun x => endCall (clearOut (expandKey x))) (fun v => ?_) fun _ _ => rfl
      rw [exec_aeadDec, hargs, htag]
      exact if_neg heq

theorem variantsAgree : ∀ f ∈ variantCommands, VariantsAgree f s :=
  forall_variantCommands.2 ⟨variantsAgree_blkEnc hs, variantsAgree_blkDec hs, variantsAgree_hDerive hs,
    variantsAgree_ctrXcrypt hs, variantsAgree_aeadEnc hs, variantsAgree_aeadDec hs⟩

end

/-- A command with a variant is none of the control commands that the frame of the commands excepts. -/
theorem apply_ne_control (v : Variant) : ∀ f ∈ variantCommands, f v ≠ .softReset ∧ f v ≠ .ttInit :=
  forall_variantCommands.2 ⟨⟨nofun, nofun⟩, ⟨nofun, nofun⟩, ⟨nofun, nofun⟩, ⟨nofun, nofun⟩, ⟨nofun, nofun⟩,
    ⟨nofun, nofun⟩⟩

/-- Commands of different variants differ. -/
theorem reference_ne_tableAccelerated {f g : Variant → Instr} (hf : f ∈ variantCommands)
    (hg : g ∈ variantCommands) : f .reference ≠ g .tableAccelerated := by
  intro h
  have hv := congrArg (tablesVariant · none) h
  simp only [tablesVariant_apply _ _ f hf, tablesVariant_apply _ _ g hg] at hv
  exact absurd hv (by decide)

/-- Settles O15: the two states agree as the command's outcome and results do not depend on its variant, and
the tables are those that the frame of the commands says. -/
theorem variantsGiveSameResults : Obligations.VariantsGiveSameResults := by
  intro s f hf hs
  obtain ⟨o, a, x, hx⟩ := variantsAgree hs f hf
  obtain ⟨tt, ready, ht⟩ := hx .reference
  obtain ⟨tt', ready', hu⟩ := hx .tableAccelerated
  refine ⟨_, _, ht, hu, rfl, rfl, rfl, ?_⟩
  obtain ⟨-, -, hkept, -⟩ := commandsWriteOnlyTheirRegisters _ _ _ ht (apply_ne_control _ f hf).1
  obtain ⟨-, -, -, htables, -⟩ := commandsWriteOnlyTheirRegisters _ _ _ hu (apply_ne_control _ f hf).1
  exact ⟨hkept (fun _ hg => reference_ne_tableAccelerated hf hg) (apply_ne_control _ f hf).2,
    htables ⟨f, hf, rfl⟩⟩

end Sys2Proof.EngineState
end

section
/-! PROOFS. The host's accesses: what an accepted read answers, what an accepted write stores, and that no read
reveals a key. -/

namespace Sys2Proof.HostAccess

open Sys2Proof.Machine Sys2Proof.Laws

/-! ## What a read sees -/

/-- Neither `KEY`, `RK` and `TT` nor the port's own fields enter what the host reads (R23, R46, R47). -/
theorem readByte_hidden (s : State) (key : Block) (rk : Vector Word 32) (tt : Tables)
    (events : List HostEvent) (answer : Response) (sp : Space) (a : Nat) :
    readByte { s with key := key, rk := rk, tt := tt, pending := events, response := answer } sp a =
      readByte s sp a := by
  cases sp with
  | reg =>
    unfold readByte
    rcases locate a with _ | ⟨r, i⟩
    · rfl
    · cases r <;> rfl
  | aadbuf | inbuf | outbuf => rfl

/-- Settles O54: the answer is made of bytes that the three files do not enter, and whether the read is
refused depends on the capacities only. -/
theorem readsRevealNoKeyMaterial : Obligations.ReadsRevealNoKeyMaterial := by
  intro s u rest sp addr n hu hpending
  have hpending' : u.pending = .read sp addr n :: rest := by rw [hu]; exact hpending
  have hanswer : hostRead u sp addr n = hostRead s sp addr n := by
    have hbyte : readByte u sp = readByte s sp := by
      funext a
      rw [hu]
      exact readByte_hidden s u.key u.rk u.tt s.pending s.response sp a
    have hbus : busError u sp addr n false = busError s sp addr n false := by rw [hu]; rfl
    rw [hostRead, hostRead, hbus, hbyte]
  refine ⟨_, _, step_read hpending, step_read hpending', hanswer.symm, ?_⟩
  show ∃ bytes, hostRead s sp addr n = .data bytes ∨ hostRead s sp addr n = .busError
  unfold hostRead
  split
  · exact ⟨[], .inr rfl⟩
  · exact ⟨_, .inl rfl⟩

/-- An accepted read answers the bytes at its offsets (R65). -/
theorem step_read_accepted {s : State} {rest : List HostEvent} {sp : Space} {addr n : Nat}
    (h : s.pending = .read sp addr n :: rest) (hb : busError s sp addr n false = false) :
    step s = .next { s with
      pending := rest
      response := .data ((List.range n).map fun i => readByte s sp (addr + i)) } := by
  rw [step_read h, hostRead, hb]
  rfl

/-- The control registers with their offsets (R35, R61). -/
def wordRegs (s : State) : List (Nat × Word) :=
  [(Reg.id.offset, Config.idValue), (Reg.cmd.offset, s.cmd), (Reg.status.offset, statusWord s),
    (Reg.err.offset, s.err), (Reg.errseen.offset, s.errseen), (Reg.keylen.offset, s.keylen),
    (Reg.ivlen.offset, s.ivlen), (Reg.aadlen.offset, s.aadlen), (Reg.inlen.offset, s.inlen),
    (Reg.outlen.offset, s.outlen), (Reg.cfgAadMax.offset, s.cfgAadMax),
    (Reg.cfgMsgMax.offset, s.cfgMsgMax)]

/-- The data registers with their offsets, `KEY` as it reads (R22, R23, R61). -/
def blockRegs (s : State) : List (Nat × Block) :=
  [(Reg.key.offset, 0#128), (Reg.iv.offset, s.iv), (Reg.blkin.offset, s.blkin),
    (Reg.blkout.offset, s.blkout), (Reg.gfx.offset, s.gfx), (Reg.gfy.offset, s.gfy),
    (Reg.gfz.offset, s.gfz), (Reg.h.offset, s.h), (Reg.y.offset, s.y), (Reg.j0.offset, s.j0),
    (Reg.ctr.offset, s.ctr)]

/-- A listed control register reads as its word (R66). -/
theorem readReg_of_mem_wordRegs {s : State} {a : Nat} {w : Word} (h : (a, w) ∈ wordRegs s) :
    ∃ r : Reg, a = r.offset ∧ a < 0x030 ∧ a % 4 = 0 ∧ readRegByte s r = wordByte w := by
  simp only [wordRegs, List.mem_cons, List.not_mem_nil, or_false, Prod.mk.injEq] at h
  rcases h with ⟨rfl, rfl⟩ | ⟨rfl, rfl⟩ | ⟨rfl, rfl⟩ | ⟨rfl, rfl⟩ | ⟨rfl, rfl⟩ | ⟨rfl, rfl⟩ |
    ⟨rfl, rfl⟩ | ⟨rfl, rfl⟩ | ⟨rfl, rfl⟩ | ⟨rfl, rfl⟩ | ⟨rfl, rfl⟩ | ⟨rfl, rfl⟩ <;>
    exact ⟨_, rfl, by decide, by decide, rfl⟩

theorem blockByte_zero (i : Nat) : blockByte 0#128 i = 0#8 := by simp [blockByte]

/-- A listed data register reads as its block (R66). -/
theorem readReg_of_mem_blockRegs {s : State} {a : Nat} {B : Block} (h : (a, B) ∈ blockRegs s) :
    ∃ r : Reg, a = r.offset ∧ 0x040 ≤ a ∧ a < 0x0F0 ∧ a % 16 = 0 ∧ readRegByte s r = blockByte B := by
  simp only [blockRegs, List.mem_cons, List.not_mem_nil, or_false, Prod.mk.injEq] at h
  rcases h with ⟨rfl, rfl⟩ | ⟨rfl, rfl⟩ | ⟨rfl, rfl⟩ | ⟨rfl, rfl⟩ | ⟨rfl, rfl⟩ | ⟨rfl, rfl⟩ |
    ⟨rfl, rfl⟩ | ⟨rfl, rfl⟩ | ⟨rfl, rfl⟩ | ⟨rfl, rfl⟩ | ⟨rfl, rfl⟩
  · exact ⟨.key, rfl, by decide, by decide, by decide, funext fun i => (blockByte_zero i).symm⟩
  all_goals exact ⟨_, rfl, by decide, by decide, by decide, rfl⟩

/-- Every register is listed, by its width. -/
theorem mem_regs (s : State) (r : Reg) :
    (r.offset < 0x040 ∧ ∃ w, (r.offset, w) ∈ wordRegs s ∧ readRegByte s r = wordByte w) ∨
    (¬ r.offset < 0x040 ∧ ∃ B, (r.offset, B) ∈ blockRegs s ∧ readRegByte s r = blockByte B) := by
  cases r
  case key =>
    exact .inr ⟨by decide, _, by simp [blockRegs], funext fun i => (blockByte_zero i).symm⟩
  case iv | blkin | blkout | gfx | gfy | gfz | h | y | j0 | ctr =>
    refine .inr ⟨by decide, _, ?_, rfl⟩
    simp [blockRegs]
  all_goals
    refine .inl ⟨by decide, _, ?_, rfl⟩
    simp [wordRegs]

/-- A byte of a register, at its offset (R61). -/
theorem readByte_reg (s : State) {r : Reg} {i : Nat} (h : i < if r.offset < 0x040 then 4 else 16) :
    readByte s .reg (r.offset + i) = readRegByte s r i := by
  rw [readByte, locate_offset r i h]

theorem readByte_word {s : State} {a : Nat} {w : Word} (h : (a, w) ∈ wordRegs s) {j : Nat} (hj : j < 4) :
    readByte s .reg (a + j) = wordByte w j := by
  obtain ⟨r, rfl, -, -, hr⟩ := readReg_of_mem_wordRegs h
  rw [readByte_reg s (by split <;> omega), hr]

theorem readByte_block {s : State} {a : Nat} {B : Block} (h : (a, B) ∈ blockRegs s) {j : Nat}
    (hj : j < 16) : readByte s .reg (a + j) = blockByte B j := by
  obtain ⟨r, rfl, hlo, -, -, hr⟩ := readReg_of_mem_blockRegs h
  rw [readByte_reg s (by rwa [if_neg (by omega)]), hr]

/-- The 4-byte read of a control register (R66). -/
theorem step_read_word {s : State} {rest : List HostEvent} {a : Nat} {w : Word}
    (h : (a, w) ∈ wordRegs s) (hpending : s.pending = .read .reg a 4 :: rest) :
    step s = .next { s with pending := rest, response := .data (bytes32 w) } := by
  obtain ⟨-, -, hhi, halign, -⟩ := readReg_of_mem_wordRegs h
  have hb : busError s .reg a 4 false = false := by
    rw [← Bool.not_eq_true, busError_iff]
    rintro (hn | hn | hn | ⟨-, b, -, hn, hu⟩ | ⟨-, hn, -⟩)
    · omega
    · omega
    · simp only [spaceSize] at hn
      omega
    · omega
    · cases hn
  have hbytes : (List.range 4).map (fun i => readByte s .reg (a + i)) = bytes32 w :=
    List.map_congr_left fun j hj => readByte_word h (List.mem_range.1 hj)
  rw [step_read_accepted hpending hb, hbytes]

/-- The 1-byte read of a byte of a data register (R66). -/
theorem step_read_block {s : State} {rest : List HostEvent} {a i : Nat} {B : Block}
    (h : (a, B) ∈ blockRegs s) (hi : i < 16) (hpending : s.pending = .read .reg (a + i) 1 :: rest) :
    step s = .next { s with pending := rest, response := .data [blockByte B i] } := by
  obtain ⟨-, -, hlo, hhi, halign, -⟩ := readReg_of_mem_blockRegs h
  have hb : busError s .reg (a + i) 1 false = false :=
    busError_data (.inl rfl) (Nat.mod_one _) (by show _ ≤ 256; omega) fun _ => ⟨by omega, by omega⟩
  have hbyte : (List.range 1).map (fun k => readByte s .reg (a + i + k)) = [blockByte B i] :=
    congrArg (fun b => [b]) (readByte_block h hi)
  rw [step_read_accepted hpending hb, hbyte]

/-- A mapped byte of `REG` is a byte of a listed register. -/
theorem readByte_mapped (s : State) {a i : Nat} {r : Reg} (h : locate a = some (r, i)) :
    (∃ b w j, (b, w) ∈ wordRegs s ∧ j < 4 ∧ a = b + j ∧ readByte s .reg a = wordByte w j) ∨
    (∃ b B j, (b, B) ∈ blockRegs s ∧ j < 16 ∧ a = b + j ∧ readByte s .reg a = blockByte B j) := by
  obtain ⟨rfl, hi⟩ := offset_of_locate h
  rcases mem_regs s r with ⟨hlo, w, hmem, -⟩ | ⟨hlo, B, hmem, -⟩
  · rw [if_pos hlo] at hi
    exact .inl ⟨_, w, i, hmem, hi, rfl, readByte_word hmem hi⟩
  · rw [if_neg hlo] at hi
    exact .inr ⟨_, B, i, hmem, hi, rfl, readByte_block hmem hi⟩

/-- Settles O51: the listed registers are all that the map has, and each byte reads as theirs. -/
theorem hostReadsReturnRegisters : Obligations.HostReadsReturnRegisters := by
  unfold Obligations.HostReadsReturnRegisters
  intro words blocks
  refine ⟨fun s rest a w => step_read_word, fun s rest a i B => step_read_block, ?_⟩
  intro s rest sp addr n hpending hb
  refine ⟨_, step_read_accepted hpending hb, by simp, fun i hi => ?_⟩
  have hbyte : ((List.range n).map fun i => readByte s sp (addr + i)).getD i 0#8 =
      readByte s sp (addr + i) := by
    simp [List.getD_eq_getElem?_getD, hi]
  rw [hbyte]
  refine ⟨?_, ?_, ?_, ?_⟩ <;> rintro rfl
  · rfl
  · rfl
  · rfl
  · obtain ⟨r, j, hr⟩ := busError_mapped hb (addr + i) (by omega) (by omega)
    exact readByte_mapped s hr

/-! ## What a write stores -/

/-- An accepted write that runs no command stores its bytes and is answered (R65). -/
theorem step_store_answered {s : State} {rest : List HostEvent} {sp : Space} {addr : Nat}
    {data : List Byte} (h : s.pending = .write sp addr data :: rest)
    (hb : busError s sp addr data.length true = false) (hc : ¬ (sp = .reg ∧ addr = 0x004)) :
    step s = .next { hostStore s sp addr data with pending := rest, response := .accepted } :=
  (step_store h hb hc).trans (congrArg (fun t : State => (.next { t with response := .accepted } : Result))
    (hostStore_frame s rest s.response sp addr data))

/-- An accepted access does not cross a 4-byte aligned bound (R70). -/
theorem busError_aligned {s : State} {sp : Space} {addr n : Nat} {w : Bool}
    (hb : busError s sp addr n w = false) {bound : Nat} (hbound : bound % 4 = 0) (h : addr < bound) :
    addr + n ≤ bound := by
  obtain ⟨rfl | rfl | rfl, halign, -⟩ := busError_bounds hb <;> omega

/-- An accepted access has a byte (R70). -/
theorem busError_pos {s : State} {sp : Space} {addr n : Nat} {w : Bool}
    (hb : busError s sp addr n w = false) : 0 < n := by
  obtain ⟨hn, -, -⟩ := busError_bounds hb
  omega

/-- The byte at offset `x` after one byte was stored at `a` and the rest of a sequence after it. -/
theorem stored_cons (v d : Byte) (vs : List Byte) (a x : Nat) :
    (if a + 1 ≤ x ∧ x < a + 1 + vs.length then vs.getD (x - (a + 1)) 0#8 else if x = a then v else d) =
      if a ≤ x ∧ x < a + (v :: vs).length then (v :: vs).getD (x - a) 0#8 else d := by
  rw [List.length_cons]
  rcases lt_trichotomy x a with h | rfl | h
  · rw [if_neg (by omega), if_neg (by omega), if_neg (by omega)]
  · rw [if_neg (by omega), if_pos rfl, if_pos (by omega), Nat.sub_self, List.getD_cons_zero]
  · obtain ⟨k, rfl⟩ : ∃ k, x = a + 1 + k := ⟨x - (a + 1), by omega⟩
    rw [if_neg (c := a + 1 + k = a) (by omega), show a + 1 + k - (a + 1) = k by omega,
      show a + 1 + k - a = k + 1 by omega, List.getD_cons_succ]
    exact if_congr (by omega) rfl rfl

/-- A host write into `KEYLEN` stores its bytes, and clears `RK_VALID` unless it is empty (R69). -/
theorem hostStore_toKeylen (s : State) (a : Nat) (vs : List Byte) (h1 : 0x014 ≤ a)
    (h2 : a + vs.length ≤ 0x018) :
    ∃ L, hostStore s .reg a vs = { s with keylen := L, rkValid := s.rkValid && vs.isEmpty } ∧
      ∀ i < 4, wordByte L i =
        if a ≤ 0x014 + i ∧ 0x014 + i < a + vs.length then vs.getD (0x014 + i - a) 0#8
        else wordByte s.keylen i := by
  induction vs generalizing s a with
  | nil => exact ⟨s.keylen, by simp [hostStore], fun i _ => by rw [if_neg (by simp)]⟩
  | cons v vs ih =>
    rw [List.length_cons] at h2
    have hl : locate a = some (.keylen, a - 0x014) := by
      have h := locate_offset .keylen (a - 0x014) (by show _ < 4; omega)
      rwa [show Reg.keylen.offset + (a - 0x014) = a from Nat.add_sub_cancel' h1] at h
    have hw : writeByte s .reg a v =
        { s with keylen := setWordByte s.keylen (a - 0x014) v, rkValid := false } := by
      simp [writeByte, hl, writeRegByte]
    obtain ⟨L, hL, hbytes⟩ := ih (writeByte s .reg a v) (a + 1) (by omega) (by omega)
    refine ⟨L, by rw [hostStore, hL, hw]; simp, fun i hi => ?_⟩
    rw [hbytes i hi, hw, wordByte_setWordByte _ _ _ _ (by omega) hi, ← stored_cons]
    exact if_congr Iff.rfl rfl (if_congr (by omega) rfl rfl)

/-- A host write that addresses no byte of `KEY` or `KEYLEN` leaves `KEY` and `RK_VALID` (R69). -/
theorem hostStore_keys_kept (s : State) (sp : Space) (a : Nat) (vs : List Byte)
    (h : sp = .reg → ∀ b, a ≤ b → b < a + vs.length →
      ¬ (0x040 ≤ b ∧ b < 0x050) ∧ ¬ (0x014 ≤ b ∧ b < 0x018)) :
    (hostStore s sp a vs).key = s.key ∧ (hostStore s sp a vs).rkValid = s.rkValid := by
  induction vs generalizing s a with
  | nil => exact ⟨rfl, rfl⟩
  | cons v vs ih =>
    rw [List.length_cons] at h
    obtain ⟨hkey, hvalid⟩ := ih (writeByte s sp a v) (a + 1) fun hsp b h1 h2 =>
      h hsp b (by omega) (by omega)
    have hbyte : (writeByte s sp a v).key = s.key ∧ (writeByte s sp a v).rkValid = s.rkValid := by
      cases sp with
      | reg =>
        obtain ⟨hk, hl⟩ := h rfl a le_rfl (by omega)
        unfold writeByte
        rcases hr : locate a with _ | ⟨r, i⟩
        · exact ⟨rfl, rfl⟩
        · obtain ⟨rfl, hi⟩ := offset_of_locate hr
          cases r
          case key => exact absurd ⟨Nat.le_add_right _ _, Nat.add_lt_add_left hi _⟩ hk
          case keylen => exact absurd ⟨Nat.le_add_right _ _, Nat.add_lt_add_left hi _⟩ hl
          all_goals exact ⟨rfl, rfl⟩
      | aadbuf | inbuf | outbuf => exact ⟨rfl, rfl⟩
    exact ⟨hkey.trans hbyte.1, hvalid.trans hbyte.2⟩

/-- Settles O53: an accepted access lies in the register it begins in, and is not empty. -/
theorem keyWritesInvalidateRoundKeys : Obligations.KeyWritesInvalidateRoundKeys := by
  constructor <;> intro s rest addr data hpending hlo hhi hb
  · obtain ⟨K, hK, hbytes⟩ := hostStore_toKey s addr data hlo (busError_aligned hb rfl hhi)
    refine ⟨K, ?_, hbytes⟩
    have hne : data.isEmpty = false := by simpa using List.length_pos_iff.1 (busError_pos hb)
    rw [step_store_answered hpending hb (by omega), hK, hne, Bool.and_false]
  · obtain ⟨L, hL, hbytes⟩ := hostStore_toKeylen s addr data hlo (busError_aligned hb rfl hhi)
    refine ⟨L, ?_, hbytes⟩
    have hne : data.isEmpty = false := by simpa using List.length_pos_iff.1 (busError_pos hb)
    rw [step_store_answered hpending hb (by omega), hL, hne, Bool.and_false]

/-- An accepted write that runs no command touches no byte of `CMD` (R37, R70). -/
theorem busError_not_cmd {s : State} {sp : Space} {addr n : Nat} (hb : busError s sp addr n true = false)
    (hc : ¬ (sp = .reg ∧ addr = 0x004)) : ¬ (sp = .reg ∧ addr < 8 ∧ 4 < addr + n) := by
  rintro ⟨rfl, hhi, hlo⟩
  obtain ⟨hn, halign, -⟩ := busError_bounds hb
  rw [← Bool.not_eq_true, busError_iff] at hb
  by_cases h4 : n = 4
  · subst h4
    exact hc ⟨rfl, by omega⟩
  · exact hb (.inr (.inr (.inr (.inr ⟨rfl, rfl, h4, max addr 4, by omega, by omega, by omega, by omega⟩))))

/-- `STATUS` after a host write that leaves `RK_VALID` (R33). -/
theorem readByte_status_hostStore (s : State) (sp : Space) (addr : Nat) (data : List Byte) {a : Nat}
    (h : (hostStore s sp addr data).rkValid = s.rkValid) (h1 : 0x008 ≤ a) (h2 : a < 0x00C) :
    readByte (hostStore s sp addr data) .reg a = readByte s .reg a := by
  obtain ⟨k, rfl⟩ : ∃ k, a = Reg.status.offset + k := ⟨a - 0x008, (Nat.add_sub_cancel' h1).symm⟩
  have hk : k < 4 := Nat.lt_of_add_lt_add_left h2
  rw [readByte_reg _ hk, readByte_reg _ hk, readRegByte, readRegByte, statusWord, statusWord, h]
  simp

/-- Settles O52: the store is that of its bytes one by one; `STATUS` is a view of flags that the write
leaves, unless it touches `KEY` or `KEYLEN`. -/
theorem hostWriteStoresItsBytes : Obligations.HostWriteStoresItsBytes := by
  intro s rest sp addr data hpending hb hc hwf1 hwf2 touchesKey
  have hkept (h : ¬ touchesKey) := hostStore_keys_kept s sp addr data fun hsp b h1 h2 =>
    ⟨fun hb => h ⟨hsp, by omega⟩, fun hb => h ⟨hsp, by omega⟩⟩
  refine ⟨_, step_store_answered hpending hb hc, rfl, rfl, by simp, hkept, fun sp' a hstatus => ?_⟩
  refine (readByte_hidden (hostStore s sp addr data) _ _ _ rest .accepted sp' a).trans ?_
  by_cases h : sp' = .reg ∧ 0x008 ≤ a ∧ a < 0x00C
  · obtain ⟨rfl, h1, h2⟩ := h
    obtain ⟨-, hvalid⟩ := hkept fun ht => hstatus ⟨ht, rfl, h1, h2⟩
    rw [readByte_status_hostStore s sp addr data hvalid h1 h2, if_neg]
    rintro ⟨rfl, -, -, hrw⟩
    have hreg : RegReadWrite a := by simpa [ReadWrite] using hrw
    omega
  · exact readByte_hostStore s sp addr data hwf1 hwf2 (busError_not_cmd hb hc) sp' a h

end Sys2Proof.HostAccess
end

section
/-! PROOFS. PC's caller operations run their command on the operands they present (R99). -/

namespace Sys2Proof.CallerRun

open Sys2Proof.Machine Sys2Proof.Laws

/-- `AEAD_ENC` leaves no more output than `OUTBUF` holds: `INLEN + 16` does not wrap for a legal capacity
(R11, R192). -/
theorem exec_aeadEnc_fits {s : State} (hcap : CapacityLegal s.cfgAadMax s.cfgMsgMax) (v : Variant) :
    ∃ u, exec (.aeadEnc v) s = .next u ∧ u.outlen.toNat ≤ bufSize u := by
  rw [exec_aeadEnc]
  split
  next => exact ⟨_, rfl, Nat.zero_le _⟩
  next hargs =>
    obtain ⟨-, -, -, hlen⟩ := (encArgError_eq_none s).1 hargs
    obtain ⟨-, -, -, -, -, hmax⟩ := hcap
    refine ⟨_, rfl, ?_⟩
    have hsum : (s.inlen + 16#32).toNat = s.inlen.toNat + 16 := by
      rw [BitVec.toNat_add]
      exact Nat.mod_eq_of_lt (by simp; omega)
    simpa [bufSize, callBase, hsum] using hlen

/-- `AEAD_DEC` leaves no more output than `OUTBUF` holds (R195). -/
theorem exec_aeadDec_fits (s : State) (v : Variant) :
    ∃ u, exec (.aeadDec v) s = .next u ∧ u.outlen.toNat ≤ bufSize u := by
  rw [exec_aeadDec]
  split
  next => exact ⟨_, rfl, Nat.zero_le _⟩
  next hargs =>
    obtain ⟨-, -, hmin, -, hlen⟩ := (decArgError_eq_none s).1 hargs
    split
    next =>
      refine ⟨_, rfl, ?_⟩
      have hdiff : (s.inlen - 16#32).toNat = s.inlen.toNat - 16 :=
        BitVec.toNat_sub_of_le (by simpa [BitVec.le_def] using hmin)
      simp [bufSize, callBase, hdiff]
      omega
    next => exact ⟨_, rfl, Nat.zero_le _⟩

/-- A sequence stored at the start of a buffer (R64). -/
theorem read_writeBytes_zero {m : Memory} (hwf : m.wf = true) (bs : List Byte) (p : Nat) :
    (m.writeBytes 0 bs).read p = if p < bs.length then bs.getD p 0#8 else m.read p := by
  simp [read_writeBytes hwf]

/-- An operation whose command runs on the presented operands gives back its result (R99). -/
theorem call_ends {i : Instr} {key iv input aad : List Byte} {s t : State} {rs : List Response}
    (hp : perform (operandScript key iv input aad) s = .next (rs, t)) (hd : decode (encode i) = .ok i)
    (hfits : ∃ u, exec i { t with response := .accepted } = .next u ∧ u.outlen.toNat ≤ bufSize u) :
    ∃ u r, exec i { t with response := .accepted } = .next u ∧ call i key iv input aad s =
      .next (⟨u.err, u.outbuf.readBytes 0 u.outlen.toNat⟩, { u with response := r }) := by
  obtain ⟨u, hu, hout⟩ := hfits
  obtain ⟨r, hr⟩ := call_eq hp hd hu hout
  exact ⟨u, r, hu, hr⟩

/-- Settles O57: both operations are `call`, whose script presents the operands; the command then leaves no
more output than `OUTBUF` holds, so all of it is read back. -/
theorem callerOperationsRunTheirCommand : Obligations.CallerOperationsRunTheirCommand := by
  intro v i op key iv input aad s hop hcap hwf1 hwf2 hkey hiv haad hin
  obtain ⟨hcall, hdecode, hfits⟩ : op key iv input aad s = call i key iv input aad s ∧
      decode (encode i) = .ok i ∧ ∀ t : State, CapacityLegal t.cfgAadMax t.cfgMsgMax →
        ∃ u, exec i t = .next u ∧ u.outlen.toNat ≤ bufSize u := by
    rcases hop with ⟨rfl, rfl⟩ | ⟨rfl, rfl⟩
    · exact ⟨rfl, (EncodesWellFormed.aeadEnc v).2.1, fun _ ht => exec_aeadEnc_fits ht v⟩
    · exact ⟨rfl, (EncodesWellFormed.aeadDec v).2.1, fun t _ => exec_aeadDec_fits t v⟩
  have ⟨_, _, hmaxA, _, _, hmaxM⟩ := hcap
  obtain ⟨K, I, rs, hp, hK, hI⟩ := perform_operandScript key iv input aad s haad hin
  rw [lengthWord_eq hkey, lengthWord_eq hiv, lengthWord_eq (bs := aad) (by omega),
    lengthWord_eq (bs := input) (by omega)] at hp
  obtain ⟨u, r, hu, hr⟩ := call_ends hp hdecode (hfits _ hcap)
  exact ⟨K, I, _, _, u, r, hK, hI, wf_writeBytes hwf1 _ _, read_writeBytes_zero hwf1 aad,
    wf_writeBytes hwf2 _ _, read_writeBytes_zero hwf2 input, hu, hcall.trans hr⟩

end Sys2Proof.CallerRun
end

section
/-! PROOFS. Which accesses the port refuses, and what a run of the accesses of a `PUT` leaves in `INBUF`. -/

namespace Sys2Proof.PortRun

open Sys2Proof.Machine Sys2Proof.Laws

/-! ## Accepted and refused accesses (R70) -/

/-- A command leaves the answer of the write that runs it. -/
theorem exec_response (i : Instr) (s : State) : ∃ t, exec i s = .next t ∧ t.response = s.response := by
  by_cases hi : i = .softReset
  · subst hi
    exact ⟨_, exec_softReset s, softReset_response s⟩
  · obtain ⟨o, a, x, hx, w⟩ := EngineState.exec_writes i s hi
    obtain ⟨-, -, -, -, -, -, -, -, -, -, -, -, -, -, hresponse, -⟩ := w.operands
    exact ⟨_, hx, (endCommand_response _ o a x).trans hresponse⟩

/-- A written word leaves the answer of its write, also if it is no command (R218). -/
theorem runWord_response (w : Word) (s : State) :
    ∃ t, runWord w s = .next t ∧ t.response = s.response := by
  unfold runWord
  split
  next i _ => exact exec_response i s
  next => exact ⟨_, illegalCommand_eq w s, rfl⟩

/-- A refused read changes no engine state (R70). -/
theorem step_read_refused {s : State} {rest : List HostEvent} {sp : Space} {addr n : Nat}
    (h : s.pending = .read sp addr n :: rest) (hb : busError s sp addr n false = true) :
    step s = .next { s with pending := rest, response := .busError } := by
  rw [step_read h, hostRead, if_pos hb]

/-- An accepted write is answered so, whether it stores its bytes or runs a command (R65, R69). -/
theorem step_write_accepted {s : State} {rest : List HostEvent} {sp : Space} {addr : Nat}
    {data : List Byte} (h : s.pending = .write sp addr data :: rest)
    (hb : busError s sp addr data.length true = false) :
    ∃ t, step s = .next t ∧ t.response = .accepted := by
  by_cases hcmd : sp = .reg ∧ addr = 0x004
  · obtain ⟨rfl, rfl⟩ := hcmd
    rw [← bytes32_wordOfBytes (length_of_cmd_write hb)] at h
    rw [step_command h]
    exact runWord_response _ _
  · exact ⟨_, HostAccess.step_store_answered h hb hcmd, rfl⟩

/-- Settles O50: the listed conditions are those of `busError_iff`; a refused access has its one step, and
an accepted read answers data, an accepted write `accepted`. -/
theorem badAccessesAreRefused : Obligations.BadAccessesAreRefused := by
  intro s rest sp addr n data write hlen hpending size bad
  have hbad : bad ↔ busError s sp addr n write = true := by
    have hsize : size = spaceSize s sp := by cases sp <;> rfl
    rw [busError_iff, ← hsize]
  rw [hbad, Bool.not_eq_true]
  cases write with
  | false =>
    exact ⟨step_read_refused hpending,
      fun hb => ⟨_, HostAccess.step_read_accepted hpending hb, nofun⟩⟩
  | true =>
    subst hlen
    refine ⟨step_write_refused hpending, fun hb => ?_⟩
    obtain ⟨t, ht, hanswer⟩ := step_write_accepted hpending hb
    exact ⟨t, ht, by rw [hanswer]; nofun⟩

/-! ## The run of a PUT (R98) -/

/-- A run begins with the step of its first event. -/
theorem run_succ {s t : State} (h : step s = .next t) (k : Nat) :
    Host.Core.run Sys2Proof.core (k + 1) s = Host.Core.run Sys2Proof.core k t := by
  have hcore : Sys2Proof.core.step s = .next t := h
  simp only [Host.Core.run, hcore]

/-- A run begins with a naturally aligned write that fits `INBUF`: it stores its bytes (R64, R65, R70). -/
theorem run_write_inbuf {s : State} {rest : List HostEvent} {addr : Nat} {data : List Byte} (k : Nat)
    (h : s.pending = .write .inbuf addr data :: rest)
    (hn : data.length = 1 ∨ data.length = 2 ∨ data.length = 4) (halign : addr % data.length = 0)
    (hfits : addr + data.length ≤ bufSize s) :
    Host.Core.run Sys2Proof.core (k + 1) s = Host.Core.run Sys2Proof.core k { s with
      inbuf := s.inbuf.writeBytes addr data, pending := rest, response := .accepted } := by
  have hb : busError s .inbuf addr data.length true = false := busError_data hn halign hfits nofun
  rw [run_succ (HostAccess.step_store_answered h hb (by simp)), hostStore_toInbuf]

/-- Running the accesses of a `PUT` to a 4-byte aligned place of `INBUF` stores its sequence there. The cases
are those of `put`: four bytes and the rest, or the last three bytes in two accesses, or in one the last two
or one. -/
theorem run_put_inbuf (offset : Nat) (data : List Byte) (s : State) (halign : offset % 4 = 0)
    (hfits : offset + data.length ≤ bufSize s) (hpending : s.pending = put ⟨.inbuf, offset⟩ data) :
    ∃ r, Host.Core.run Sys2Proof.core (put ⟨.inbuf, offset⟩ data).length s =
      .next { s with inbuf := s.inbuf.writeBytes offset data, pending := [], response := r } := by
  match data with
  | [] =>
    have hidle : s.pending = [] := hpending
    exact ⟨s.response, by rw [← hidle]; rfl⟩
  | [a] => exact ⟨.accepted, run_write_inbuf 0 hpending (.inl rfl) (Nat.mod_one _) hfits⟩
  | [a, b] =>
    have h2 : offset % 2 = 0 := by omega
    exact ⟨.accepted, run_write_inbuf 0 hpending (.inr (.inl rfl)) h2 hfits⟩
  | [a, b, c] =>
    have h2 : offset % 2 = 0 := by omega
    have hfirst : offset + 2 ≤ bufSize s := by simp at hfits; omega
    exact ⟨.accepted, (run_write_inbuf 1 hpending (.inr (.inl rfl)) h2 hfirst).trans
      (run_write_inbuf 0 rfl (.inl rfl) (Nat.mod_one _) hfits)⟩
  | a :: b :: c :: d :: bs =>
    simp only [List.length_cons] at hfits
    have hfirst := run_write_inbuf (put ⟨.inbuf, offset + 4⟩ bs).length hpending (.inr (.inr rfl)) halign
      (by show offset + 4 ≤ bufSize s; omega)
    obtain ⟨r, hrest⟩ := run_put_inbuf (offset + 4) bs
      { s with
        inbuf := s.inbuf.writeBytes offset [a, b, c, d]
        pending := put ⟨.inbuf, offset + 4⟩ bs
        response := .accepted } (by omega) (by show _ ≤ bufSize s; omega) rfl
    exact ⟨r, hfirst.trans hrest⟩

/-- Settles O55: the run is that of `run_put_inbuf`, and reading after the store gives the bytes. -/
theorem putStoresTheSequence : Obligations.PutStoresTheSequence := by
  intro s offset data hwf halign hfits hpending
  obtain ⟨r, hrun⟩ := run_put_inbuf offset data s halign hfits hpending
  exact ⟨_, hrun, rfl, read_writeBytes hwf offset data⟩

end Sys2Proof.PortRun
end

section
/-! PROOFS. The opcode map read in both directions: the decoder and the encoder are inverse to each other, rows
are selected by mask, and every other word is illegal (R92 to R95). -/

namespace Sys2Proof.Encoding

open Sys2Proof.Machine Sys2Proof.Laws

/-! ## Decoder and encoder (R93, R94) -/

/-- Every command's word is well formed and decodes to it. -/
theorem encodesWellFormed (i : Instr) : EncodesWellFormed.Statement i := by
  cases i with
  | nop => exact EncodesWellFormed.nop
  | softReset => exact EncodesWellFormed.softReset
  | ttInit => exact EncodesWellFormed.ttInit
  | keyExpand => exact EncodesWellFormed.keyExpand
  | blkEnc v => exact EncodesWellFormed.blkEnc v
  | blkDec v => exact EncodesWellFormed.blkDec v
  | gfMul => exact EncodesWellFormed.gfMul
  | ghInit => exact EncodesWellFormed.ghInit
  | ghUpd => exact EncodesWellFormed.ghUpd
  | ghMsg => exact EncodesWellFormed.ghMsg
  | hDerive v => exact EncodesWellFormed.hDerive v
  | j0Derive => exact EncodesWellFormed.j0Derive
  | ctrInc => exact EncodesWellFormed.ctrInc
  | ctrXcrypt v => exact EncodesWellFormed.ctrXcrypt v
  | aeadEnc v => exact EncodesWellFormed.aeadEnc v
  | aeadDec v => exact EncodesWellFormed.aeadDec v

theorem decode_encode (i : Instr) : decode (encode i) = .ok i := by
  obtain ⟨-, hdecode, -⟩ := encodesWellFormed i
  exact hdecode

/-- The bits of a command word, field by field (R90). -/
theorem getLsbD_commandFields (w : Word) {k : Nat} (hk : k < 32) :
    w.getLsbD k = if k < 8 then (commandFields w).op.getLsbD k
      else if k = 8 then (commandFields w).v.getLsbD 0
      else (commandFields w).rsv.getLsbD (k - 9) := by
  simp only [commandFields, BitVec.getLsbD_extractLsb']
  split
  next h => simp [h]
  next =>
    split
    next h => simp [h]
    next => simp [show k - 9 < 23 by omega, show 9 + (k - 9) = k by omega]

/-- The three fields are the whole word (R90). -/
theorem commandFields_injective : Function.Injective commandFields := by
  intro w x h
  apply BitVec.eq_of_getLsbD_eq
  intro k hk
  rw [getLsbD_commandFields w hk, getLsbD_commandFields x hk, h]

/-- Each row of the opcode map has the fields of the words of its commands (R93, R94). -/
theorem commandFields_encode_row : ∀ r ∈ opcodeMap,
    commandFields (encode r.plain) = ⟨0#23, 0#1, r.op⟩ ∧
    ∀ i ∈ r.variant1, commandFields (encode i) = ⟨0#23, 1#1, r.op⟩ := by
  decide

/-- A word that decodes selects a row: `RSV` is 0, `OP` is the row's, and `V` chooses the command among those
that the row offers (R93). -/
theorem row_of_decode {w : Word} {i : Instr} (h : decode w = .ok i) :
    (commandFields w).rsv = 0#23 ∧ ∃ r ∈ opcodeMap, r.op = (commandFields w).op ∧
      ((commandFields w).v = 0#1 ∧ i = r.plain ∨ (commandFields w).v = 1#1 ∧ i ∈ r.variant1) := by
  unfold decode at h
  split at h
  case isTrue => cases h
  case isFalse hrsv =>
    refine ⟨not_not.1 hrsv, ?_⟩
    split at h
    next => cases h
    next r hr =>
      refine ⟨r, List.mem_of_find?_eq_some hr, by simpa using List.find?_some hr, ?_⟩
      split at h
      case isTrue hv => exact .inl ⟨hv, (Except.ok.inj h).symm⟩
      case isFalse hv =>
        split at h
        next => cases h
        next j hj =>
          have hv1 := (BitVec.eq_zero_or_eq_one _).resolve_left hv
          exact .inr ⟨hv1, hj.trans (congrArg some (Except.ok.inj h))⟩

/-- Settles O2: a word that decodes has the fields of its command's word, and the fields are the whole word. -/
theorem decodeEncodeAgree : Obligations.DecodeEncodeAgree := by
  intro w i
  refine ⟨fun h => commandFields_injective ?_, fun h => h ▸ decode_encode i⟩
  obtain ⟨hrsv, r, hr, hop, ⟨hv, rfl⟩ | ⟨hv, hi⟩⟩ := row_of_decode h
  · rw [(commandFields_encode_row r hr).1, ← hrsv, ← hv, hop]
  · rw [(commandFields_encode_row r hr).2 i hi, ← hrsv, ← hv, hop]

/-- Settles O1: each word is the one that the encoder gives for its command. -/
theorem writtenWordsDecode : Obligations.WrittenWordsDecode := by
  simp only [Obligations.WrittenWordsDecode, decodeEncodeAgree _ _]
  decide

/-! ## Selection by mask (R93) -/

/-- A row with one form: the mask is the whole word. -/
theorem decode_iff_word (w : Word) (i : Instr) :
    decode w = .ok i ↔ w &&& 0xFFFFFFFF#32 = encode i := by
  have hmask : w &&& 0xFFFFFFFF#32 = w := BitVec.and_allOnes
  rw [decodeEncodeAgree, hmask, eq_comm]

/-- The word of a variant is its row's match with bit 8 added (R94). -/
theorem variantWord_eq_or (base : Word) (v : Variant) :
    variantWord base v = base ||| if v = .tableAccelerated then 0x00000100#32 else 0#32 := by
  cases v with
  | reference => exact BitVec.or_zero.symm
  | tableAccelerated => rfl

/-- A word is what the mask of a row with two forms keeps of it, and its bit 8. -/
theorem mask_or_bit (w : Word) :
    w &&& 0xFFFFFEFF#32 ||| (if w.getLsbD 8 then 0x00000100#32 else 0#32) = w := by
  have hbit : (if w.getLsbD 8 then 0x00000100#32 else 0#32) = w &&& 0x00000100#32 :=
    (BitVec.and_twoPow w 8).symm
  rw [hbit, ← BitVec.and_or_distrib_left]
  exact BitVec.and_allOnes

/-- A word is that of a variant exactly when the mask keeps the row's match of it and bit 8 says the variant,
for a match whose bit 8 is 0. -/
theorem variantWord_eq_iff {base w : Word} (hbase : base &&& 0xFFFFFEFF#32 = base) (v : Variant) :
    variantWord base v = w ↔
      w &&& 0xFFFFFEFF#32 = base ∧ (w.getLsbD 8 = true ↔ v = .tableAccelerated) := by
  constructor
  · rintro rfl
    have hbit : base.getLsbD 8 = false := by rw [← hbase]; simp
    rw [variantWord_eq_or, BitVec.and_or_distrib_right, hbase, BitVec.getLsbD_or, hbit]
    constructor <;> split <;> simp_all
  · rintro ⟨hmask, hbit⟩
    rw [variantWord_eq_or, ← hmask]
    simp only [← hbit]
    exact mask_or_bit w

/-- A row with two forms, of match `base`. -/
theorem decode_iff_masked {base : Word} (w : Word) (hbase : base &&& 0xFFFFFEFF#32 = base)
    {f : Variant → Instr} (hf : ∀ v, encode (f v) = variantWord base v) (v : Variant) :
    decode w = .ok (f v) ↔
      w &&& 0xFFFFFEFF#32 = base ∧ (w.getLsbD 8 = true ↔ v = .tableAccelerated) := by
  rw [decodeEncodeAgree, hf, variantWord_eq_iff hbase]

/-- Settles O3: the rows with one form, then those with two, each with its match as the encoder has it. -/
theorem decoderSelectsRowsByMask : Obligations.DecoderSelectsRowsByMask := by
  intro w
  have one := decode_iff_word w
  exact ⟨one _, one _, one _, one _, one _, one _, one _, one _, one _, one _, fun v =>
    ⟨decode_iff_masked w rfl (fun _ => rfl) v, decode_iff_masked w rfl (fun _ => rfl) v,
      decode_iff_masked w rfl (fun _ => rfl) v, decode_iff_masked w rfl (fun _ => rfl) v,
      decode_iff_masked w rfl (fun _ => rfl) v, decode_iff_masked w rfl (fun _ => rfl) v⟩⟩

/-! ## Illegal words (R95) -/

/-- A word that decodes is well formed: it is the word of a command. -/
theorem wellFormed_of_decode {w : Word} {i : Instr} (h : decode w = .ok i) :
    (commandFields w).wellFormed = true := by
  obtain ⟨hwf, -, -⟩ := encodesWellFormed i
  rwa [(decodeEncodeAgree w i).1 h] at hwf

/-- A word that is not well formed raises `IllegalCommand` (R218). -/
theorem runWord_illFormed {w : Word} (h : (commandFields w).wellFormed ≠ true) (s : State) :
    runWord w s = .next (s.failed w 6) := by
  unfold runWord
  split
  next hi => exact absurd (wellFormed_of_decode hi) h
  next => exact illegalCommand_eq w s

/-- The three kinds of words that select no row are those that are not well formed (R95). -/
theorem wellFormed_iff (w : Word) : (commandFields w).wellFormed = true ↔
    w.extractLsb' 9 23 = 0#23 ∧ w.extractLsb' 0 8 ∈ listedOps ∧
      (w.getLsbD 8 = true → w.extractLsb' 0 8 ∈ variantOps) := by
  have hv : w.extractLsb' 8 1 = 0#1 ↔ w.getLsbD 8 = false := by
    constructor
    · intro h
      simpa using congrArg (BitVec.getLsbD · 0) h
    · intro h
      apply BitVec.eq_of_getLsbD_eq
      intro k hk
      obtain rfl : k = 0 := by omega
      simpa using h
  simp only [CommandWord.wellFormed, CommandWord.rsvZero, CommandWord.opListed, CommandWord.variantOffered,
    commandFields, Bool.and_eq_true, Bool.or_eq_true, beq_iff_eq, List.contains_iff_mem, hv]
  rw [and_assoc]
  cases w.getLsbD 8 <;> simp

/-- Settles O4: the written word runs, and is not well formed. -/
theorem illegalWordRaisesIllegalCommand : Obligations.IllegalWordRaisesIllegalCommand := by
  intro s rest w hpending hw
  rw [step_command hpending]
  refine runWord_illFormed (fun hwf => ?_) _
  obtain ⟨hrsv, hop, hv⟩ := (wellFormed_iff w).1 hwf
  rcases hw with h | h | ⟨hbit, h⟩
  · exact h hrsv
  · exact h hop
  · exact h (hv hbit)

end Sys2Proof.Encoding
end

section
/-! PROOFS. What `AEAD_ENC` seals, `AEAD_DEC` opens, in any variant and on any engine that holds the operands,
and so for PC's caller operations (R99, R198). Both commands are stated over their operands as byte sequences. -/

namespace Sys2Proof.RoundTrip

open Sys2Proof.Machine Sys2Proof.Laws

/-! ## Byte sequences -/

/-- Two sequences of one length with equal bytes are equal. -/
theorem bytes_ext {a b : List Byte} (hlen : a.length = b.length)
    (h : ∀ p < a.length, a.getD p 0#8 = b.getD p 0#8) : a = b := by
  apply List.ext_getElem hlen
  intro p ha hb
  have hp := h p ha
  rwa [List.getD_eq_getElem _ _ ha, List.getD_eq_getElem _ _ hb] at hp

/-- A read gives the sequence that the buffer holds there (R63). -/
theorem readBytes_eq {m : Memory} {a : Nat} {bs : List Byte}
    (h : ∀ p < bs.length, m.read (a + p) = bs.getD p 0#8) : m.readBytes a bs.length = bs := by
  apply bytes_ext (length_readBytes _ _ _)
  intro p hp
  rw [length_readBytes] at hp
  rw [getD_readBytes _ _ _ _ hp, h p hp]

/-- Reading what was stored gives it back (R63, R64). -/
theorem readBytes_writeBytes {m : Memory} (hwf : m.wf = true) (a : Nat) (bs : List Byte) :
    (m.writeBytes a bs).readBytes a bs.length = bs :=
  readBytes_eq fun p hp => by
    rw [read_writeBytes hwf, if_pos (by omega), Nat.add_sub_cancel_left]

/-- Storing two sequences one after the other is storing both (R64). -/
theorem writeBytes_append (m : Memory) (a : Nat) (bs cs : List Byte) :
    m.writeBytes a (bs ++ cs) = (m.writeBytes a bs).writeBytes (a + bs.length) cs := by
  induction bs generalizing m a with
  | nil => rfl
  | cons b bs ih =>
    rw [List.cons_append, writeBytes_cons, ih, writeBytes_cons, List.length_cons, Nat.add_right_comm,
      Nat.add_assoc a]

/-- Counter mode undoes itself (R182). -/
theorem ctrStream_ctrStream (E : Block → Block) (J : Block) (D : List Byte) :
    (ctrStream E J (ctrStream E J D).1).1 = D := by
  apply bytes_ext (by simp)
  intro p hp
  rw [length_ctrStream, length_ctrStream] at hp
  rw [getD_ctrStream _ _ _ _ (by simpa), getD_ctrStream _ _ _ _ hp, BitVec.xor_assoc, BitVec.xor_self,
    BitVec.xor_zero]

/-- The comparison of tags accepts equal tags (R193). -/
theorem ctEq16_self (a : Block) : ctEq16 a a = true := by
  simp [ctEq16]

/-! ## The commands over their operands -/

/-- The block encryption under a key, as both variants compute it (R133, R134). -/
def cipher (key : Block) : Block → Block := encBlock tRef (deriveRoundKeys key)

/-- The initial counter block of an IV of legal length (R175). -/
def counter (iv : List Byte) : Block := (deriveJ0 iv).getD 0#128

/-- The ciphertext of a plaintext, and the plaintext of a ciphertext (R179, R182). -/
def stream (key : Block) (iv D : List Byte) : List Byte := (ctrStream (cipher key) (counter iv) D).1

/-- The tag over AAD and ciphertext (R191). -/
def tag (key : Block) (iv aad C : List Byte) : Block :=
  cipher key (counter iv) ^^^ ghashAC (cipher key 0#128) aad C

/-- What `AEAD_ENC` gives for a plaintext: the ciphertext and the tag (R192). -/
def sealedBytes (key : Block) (iv aad P : List Byte) : List Byte :=
  stream key iv P ++ blockBytes (tag key iv aad (stream key iv P))

/-- The operands of an AEAD command that its checks do not refuse, but for the length of the input (R91,
R190), in an engine whose tables are complete. -/
structure Operands (s : State) (key : Block) (iv aad input : List Byte) : Prop where
  tables : s.TablesComplete
  key : s.key = key
  keylen : s.keylen = 16#32
  ivlen : s.ivlen = 12#32 ∨ s.ivlen = 16#32
  iv : ivOperand s = iv
  aadlen : s.aadlen.toNat ≤ s.cfgAadMax.toNat
  aad : aadOperand s = aad
  input : inOperand s s.inlen.toNat = input

section
variable {s : State} {key : Block} {iv aad input : List Byte}

theorem Operands.length_input (h : Operands s key iv aad input) : input.length = s.inlen.toNat := by
  rw [← h.input, inOperand, length_readBytes]

/-- The buffer holds the input (R43). -/
theorem Operands.readBytes_inbuf (h : Operands s key iv aad input) {i n : Nat} (hn : i + n ≤ input.length) :
    s.inbuf.readBytes i n = (input.drop i).take n := by
  rw [h.length_input] at hn
  rw [← h.input, inOperand, take_drop_readBytes, Nat.zero_add, Nat.min_eq_left (by omega)]

theorem Operands.engineEnc (h : Operands s key iv aad input) (v : Variant) :
    Machine.engineEnc v (callBase v s) = cipher key := by
  rw [engineEnc_callBase, EngineState.roundFn_tablesFor h.tables, h.key]
  rfl

theorem Operands.callJ0 (h : Operands s key iv aad input) : Laws.callJ0 s = counter iv := by
  rw [Laws.callJ0, ivJ0, if_pos ((ivLenOk_iff s).2 h.ivlen), h.iv, counter]

theorem Operands.callTagOf (h : Operands s key iv aad input) (v : Variant) (C : List Byte) :
    Laws.callTagOf v s C = tag key iv aad C := by
  rw [Laws.callTagOf, h.engineEnc, h.callJ0, h.aad, tag]

theorem Operands.streamOut (h : Operands s key iv aad input) (v : Variant) (n : Nat) :
    Laws.streamOut v (callBase v s) (Laws.callJ0 s) n = stream key iv (inOperand s n) := by
  rw [Laws.streamOut, h.engineEnc, h.callJ0, inOperand, callBase_inbuf, stream, inOperand]

end

@[simp] theorem length_stream (key : Block) (iv D : List Byte) : (stream key iv D).length = D.length :=
  length_ctrStream _ _ _

@[simp] theorem length_sealedBytes (key : Block) (iv aad P : List Byte) :
    (sealedBytes key iv aad P).length = P.length + 16 := by
  simp [sealedBytes]

/-- Counter mode undoes itself (R182). -/
theorem stream_stream (key : Block) (iv D : List Byte) : stream key iv (stream key iv D) = D :=
  ctrStream_ctrStream _ _ _

/-- `AEAD_ENC` leaves the sealed plaintext in `OUTBUF` (R192). -/
theorem exec_aeadEnc_seals {s : State} {key : Block} {iv aad P : List Byte} (v : Variant)
    (h : Operands s key iv aad P) (hcap : CapacityLegal s.cfgAadMax s.cfgMsgMax)
    (hfits : P.length ≤ s.cfgMsgMax.toNat) :
    ∃ t, exec (.aeadEnc v) s = .next t ∧ t.err = 0#32 ∧ t.outlen = s.inlen + 16#32 ∧
      t.outbuf.readBytes 0 t.outlen.toNat = sealedBytes key iv aad P := by
  have hlen := h.length_input
  obtain ⟨-, -, -, -, -, hmax⟩ := hcap
  have hargs : encArgError s = none :=
    (encArgError_eq_none s).2 ⟨h.keylen, h.ivlen, h.aadlen, hlen ▸ hfits⟩
  have hsum : (s.inlen + 16#32).toNat = (sealedBytes key iv aad P).length := by
    rw [length_sealedBytes, hlen, BitVec.toNat_add]
    exact Nat.mod_eq_of_lt (by simp; omega)
  rw [exec_aeadEnc, hargs]
  refine ⟨_, rfl, rfl, rfl, ?_⟩
  have hstore := readBytes_writeBytes wf_nil 0 (sealedBytes key iv aad P)
  rw [sealedBytes, writeBytes_append, length_stream, Nat.zero_add, hlen, ← sealedBytes, ← hsum] at hstore
  simpa only [endCommand_outbuf, endCommand_outlen, endCall_outbuf, endCall_outlen,
    h.streamOut, h.callTagOf, h.input] using hstore

/-- `AEAD_DEC` opens what was sealed with the same operands (R195, R198). -/
theorem exec_aeadDec_opens {s : State} {key : Block} {iv aad P : List Byte} (v : Variant)
    (h : Operands s key iv aad (sealedBytes key iv aad P)) (hfits : P.length ≤ s.cfgMsgMax.toNat) :
    ∃ t, exec (.aeadDec v) s = .next t ∧ t.err = 0#32 ∧ t.authOk = true ∧ t.outlen = s.inlen - 16#32 ∧
      t.outbuf.readBytes 0 t.outlen.toNat = P := by
  have hlen : s.inlen.toNat = P.length + 16 := by rw [← h.length_input, length_sealedBytes]
  have hargs : decArgError s = none :=
    (decArgError_eq_none s).2 ⟨h.keylen, h.ivlen, by omega, h.aadlen, by omega⟩
  have hsub : s.inlen.toNat - 16 = P.length := by omega
  have hC : inOperand s P.length = stream key iv P := by
    rw [inOperand, h.readBytes_inbuf (by simp), List.drop_zero, sealedBytes]
    exact List.take_left' (length_stream _ _ _)
  have htag : receivedTag s = tag key iv aad (stream key iv P) := by
    rw [receivedTag, hsub, h.readBytes_inbuf (by simp), sealedBytes, List.drop_left' (length_stream _ _ _),
      List.take_of_length_le (by simp), blockOfBytes_blockBytes]
  have hdiff : (s.inlen - 16#32).toNat = P.length := by
    rw [BitVec.toNat_sub_of_le (by simp [BitVec.le_def, hlen])]
    exact hsub
  rw [exec_aeadDec, hargs, h.callTagOf, hsub, hC, htag, ctEq16_self, if_pos rfl]
  refine ⟨_, rfl, rfl, rfl, rfl, ?_⟩
  have hstore := readBytes_writeBytes wf_nil 0 P
  rw [← hdiff] at hstore
  simpa only [endCommand_outbuf, endCommand_outlen, endCall_outbuf, endCall_outlen,
    h.streamOut, hC, stream_stream] using hstore

/-! ## The caller operations (R99) -/

/-- A length register says the length of a sequence that fits it. -/
theorem toNat_length {bs : List Byte} (h : bs.length < 2 ^ 32) :
    (BitVec.ofNat 32 bs.length).toNat = bs.length := by
  rw [BitVec.toNat_ofNat, Nat.mod_eq_of_lt h]

/-- The IV operand is the sequence that `SETIV` stored (R24). -/
theorem ivOperand_eq {s : State} {iv : List Byte} (hlen : iv.length ≤ 16)
    (hivlen : s.ivlen = BitVec.ofNat 32 iv.length) (h : ∀ j < iv.length, blockByte s.iv j = iv.getD j 0#8) :
    ivOperand s = iv := by
  rw [ivOperand, hivlen, toNat_length (by omega)]
  refine bytes_ext (by simpa) fun p hp => ?_
  have hp' : p < iv.length := by simp at hp; omega
  rw [getD_take_blockBytes _ _ _ hp' (by omega), h p hp']

/-- What the round trip asks of an engine (R11, R50): the capacities hold the operands. -/
abbrev Holds (x : State) (aad plaintext : List Byte) : Prop :=
  CapacityLegal x.cfgAadMax x.cfgMsgMax ∧ x.TablesComplete ∧ x.aadbuf.wf = true ∧ x.inbuf.wf = true ∧
    aad.length ≤ x.cfgAadMax.toNat ∧ plaintext.length ≤ x.cfgMsgMax.toNat

/-- A caller operation runs its command on its operands, and gives back the command's error code and output
(R99). -/
theorem op_runs {v : Variant} {i : Instr}
    {op : List Byte → List Byte → List Byte → List Byte → State → Performed CallResult}
    (hop : (i = .aeadEnc v ∧ op = encrypt v) ∨ (i = .aeadDec v ∧ op = decrypt v))
    {key iv input aad plaintext : List Byte} {x : State} (hkey : key.length = 16)
    (hiv : iv.length = 12 ∨ iv.length = 16) (hx : Holds x aad plaintext)
    (hin : input.length ≤ plaintext.length + 16) :
    ∃ t u r, Operands t (blockOfBytes key) iv aad input ∧
      t.cfgAadMax = x.cfgAadMax ∧ t.cfgMsgMax = x.cfgMsgMax ∧ exec i t = .next u ∧
      op key iv input aad x = .next (⟨u.err, u.outbuf.readBytes 0 u.outlen.toNat⟩, { u with response := r }) := by
  obtain ⟨hcap, htables, hwfA, hwfM, haad, hplain⟩ := hx
  obtain ⟨K, I, A, M, u, r, hK, hI, -, hA, -, hM, hu, hr⟩ :=
    CallerRun.callerOperationsRunTheirCommand v i op key iv input aad x hop hcap hwfA hwfM (by omega) (by omega)
      haad (by omega)
  obtain ⟨-, -, hmaxA, -, -, hmaxM⟩ := hcap
  have haadlen := toNat_length (bs := aad) (by omega)
  have hinlen := toNat_length (bs := input) (by omega)
  refine ⟨_, u, r, ?operands, ?_, ?_, hu, hr⟩
  case operands =>
    exact
      { tables := htables
        key := block_ext fun j hj => by
          rw [blockByte_blockOfBytes _ _ hj]
          exact (hK j hj).trans (if_pos (by omega))
        keylen := congrArg (BitVec.ofNat 32) hkey
        ivlen := hiv.imp (congrArg (BitVec.ofNat 32)) (congrArg (BitVec.ofNat 32))
        iv := ivOperand_eq (by omega) rfl fun j hj => (hI j (by omega)).trans (if_pos hj)
        aadlen := haadlen.trans_le haad
        aad := by
          rw [aadOperand, haadlen]
          exact readBytes_eq fun p hp => by rw [Nat.zero_add, hA, if_pos hp]
        input := by
          rw [inOperand, hinlen]
          exact readBytes_eq fun p hp => by rw [Nat.zero_add, hM, if_pos hp] }
  all_goals rfl

section
variable {key iv aad plaintext : List Byte} {x : State}

/-- `encrypt` gives back the sealed plaintext (R99). -/
theorem encrypt_seals (v : Variant) (hkey : key.length = 16) (hiv : iv.length = 12 ∨ iv.length = 16)
    (hx : Holds x aad plaintext) : ∃ x', encrypt v key iv plaintext aad x =
      .next (⟨0#32, sealedBytes (blockOfBytes key) iv aad plaintext⟩, x') := by
  obtain ⟨t, u, r, ht, haadMax, hmsgMax, hu, hcall⟩ :=
    op_runs (op := encrypt v) (.inl ⟨rfl, rfl⟩) hkey hiv hx (Nat.le_add_right _ _)
  obtain ⟨hcap, -, -, -, -, hplain⟩ := hx
  obtain ⟨u', hu', herr, -, hout⟩ := exec_aeadEnc_seals v ht (by rwa [haadMax, hmsgMax]) (by rwa [hmsgMax])
  obtain rfl := Host.Outcome.next.inj (hu.symm.trans hu')
  rw [herr, hout] at hcall
  exact ⟨_, hcall⟩

/-- `decrypt` gives back the plaintext of what was sealed (R99, R198). -/
theorem decrypt_opens (v : Variant) (hkey : key.length = 16) (hiv : iv.length = 12 ∨ iv.length = 16)
    (hx : Holds x aad plaintext) : ∃ x',
      decrypt v key iv (sealedBytes (blockOfBytes key) iv aad plaintext) aad x =
        .next (⟨0#32, plaintext⟩, x') := by
  obtain ⟨t, u, r, ht, -, hmsgMax, hu, hcall⟩ :=
    op_runs (op := decrypt v) (.inr ⟨rfl, rfl⟩) hkey hiv hx
      (length_sealedBytes (blockOfBytes key) iv aad plaintext).le
  obtain ⟨-, -, -, -, -, hplain⟩ := hx
  obtain ⟨u', hu', herr, -, -, hout⟩ := exec_aeadDec_opens v ht (by rwa [hmsgMax])
  obtain rfl := Host.Outcome.next.inj (hu.symm.trans hu')
  rw [herr, hout] at hcall
  exact ⟨_, hcall⟩

end

/-- Settles O58: `decrypt` opens what `encrypt` has sealed, each on its own engine. -/
theorem callerRoundTrip : Obligations.CallerRoundTrip := by
  intro v v' key iv plaintext aad s u hkey hiv hx
  obtain ⟨s', hs⟩ := encrypt_seals v hkey hiv (hx s (by simp))
  obtain ⟨u', hu⟩ := decrypt_opens v' hkey hiv (hx u (by simp))
  exact ⟨_, s', u', hs, length_sealedBytes _ _ _ _, hu⟩

end Sys2Proof.RoundTrip
end

section
/-! PROOFS. The control commands, and the outcome record that every command leaves (R110). -/

namespace Sys2Proof.Control

open Sys2Proof.Machine Sys2Proof.Laws

/-! ## The control commands -/

/-- Settles O7: the equation of `NOP`, its record that of a success (R111). -/
theorem nopLeavesOnlyTheRecord : Obligations.NopLeavesOnlyTheRecord :=
  ⟨rfl, exec_nop⟩

/-- Settles O9: `TT_INIT` does what the first action of a command with `V = 1` does (R113, R131). -/
theorem ttInitFillsTablesOnce : Obligations.TtInitFillsTablesOnce := by
  refine ⟨rfl, fun s => ?_⟩
  obtain ⟨-, hkept, hfilled⟩ := (tablesFor_after .tableAccelerated s).2 rfl
  refine ⟨(initTables s).tt, hkept, hfilled, ?_⟩
  rw [← initTables_eq, ← endCommand_none]
  exact exec_ttInit s

/-! ## The outcome record of every command -/

/-- The three ways in which command `i` ends in state `s` with an outcome record: a success, an error that
is not the reserved one (R224), and a success of `AEAD_DEC`, the one that sets `AUTH_OK`. The record is
written over a state that still has the `ERRSEEN` of `s` (R110, R220). -/
inductive Ends (i : Instr) (s : State) : Result → Prop
  | success {x : State} (hi : ∀ v, i ≠ .aeadDec v) (hseen : x.errseen = s.errseen) :
    Ends i s (.next (endCommand (encode i) none false x))
  | error {x : State} {e : ErrorKind} (he : e ≠ .invalidHexEncoding) (hseen : x.errseen = s.errseen) :
    Ends i s (.next (endCommand (encode i) (some e) false x))
  | authentic {x : State} (hi : ∃ v, i = .aeadDec v) (hseen : x.errseen = s.errseen) :
    Ends i s (.next (endCommand (encode i) none true x))

/-- Every command but `SOFT_RESET` ends with an outcome record. The cases are the equations of the commands
with their branches. -/
theorem exec_ends (i : Instr) (s : State) (hi : i ≠ .softReset) : Ends i s (exec i s) := by
  cases i with
  | softReset => exact absurd rfl hi
  | nop => exact exec_nop s ▸ .success nofun rfl
  | ttInit => exact exec_ttInit s ▸ .success nofun (by simp)
  | keyExpand =>
    rw [exec_keyExpand]
    split
    · exact .success nofun rfl
    · exact .error nofun rfl
  | blkEnc v =>
    rw [exec_blkEnc]
    split
    · exact .success nofun (by simp)
    · exact .error nofun rfl
  | blkDec v =>
    rw [exec_blkDec]
    split
    · exact .success nofun (by simp)
    · exact .error nofun rfl
  | gfMul => exact exec_gfMul s ▸ .success nofun rfl
  | ghInit => exact exec_ghInit s ▸ .success nofun rfl
  | ghUpd => exact exec_ghUpd s ▸ .success nofun rfl
  | ghMsg =>
    rw [exec_ghMsg]
    split
    · exact .error nofun rfl
    · exact .success nofun rfl
  | hDerive v =>
    rw [exec_hDerive]
    split
    · exact .success nofun (by simp)
    · exact .error nofun rfl
  | j0Derive =>
    rw [exec_j0Derive]
    split
    · exact .error nofun rfl
    · exact .success nofun rfl
  | ctrInc => exact exec_ctrInc s ▸ .success nofun rfl
  | ctrXcrypt v =>
    rw [exec_ctrXcrypt]
    split
    · split
      · exact .error nofun rfl
      · exact .success nofun (by simp)
    · exact .error nofun rfl
  | aeadEnc v =>
    rw [exec_aeadEnc]
    split
    next e he => exact .error (Invariant.encArgError_ne_reserved he) rfl
    next => exact .success nofun (by simp [callBase])
  | aeadDec v =>
    rw [exec_aeadDec]
    split
    next e he => exact .error (Invariant.decArgError_ne_reserved he) rfl
    next =>
      split
      · exact .authentic ⟨v, rfl⟩ (by simp [callBase])
      · exact .error nofun (by simp [callBase])

/-- The codes of the errors that a command raises: those of R212 but the reserved 3. -/
theorem code_mem {e : ErrorKind} (he : e ≠ .invalidHexEncoding) :
    e.code ∈ [0, 1, 2, 4, 5, 6, 7, 8] := by
  cases e
  case invalidHexEncoding => exact absurd rfl he
  all_goals decide

/-- Code 0 stands for success only (R212). -/
theorem code_ne_zero (e : ErrorKind) : e.code ≠ 0 := by cases e <;> decide

/-- `PHASE` after an error: code 5 is the one that is no abort (R34, R110). -/
theorem endPhase_some (e : ErrorKind) :
    endPhase (some e) = if e.code = 5 then .authenticationFailed else .aborted := by
  cases e <;> rfl

/-- Settles O6: the code is 0 for the two successes, and that of the error otherwise; `SOFT_RESET` answers
its own state. -/
theorem everyCommandRecordsItsOutcome : Obligations.EveryCommandRecordsItsOutcome := by
  intro i s
  by_cases hi : i = .softReset
  · exact ⟨_, hi ▸ exec_softReset s, fun h => absurd hi h⟩
  have hends := exec_ends i s hi
  generalize exec i s = r at hends
  cases hends with
  | success hdec hseen => exact ⟨_, rfl, fun _ => ⟨0, by simp [hseen, hdec]⟩⟩
  | authentic hdec hseen => exact ⟨_, rfl, fun _ => ⟨0, by simp [hseen, hdec]⟩⟩
  | @error _ e he hseen =>
    have h0 := code_ne_zero e
    exact ⟨_, rfl, fun _ => ⟨e.code, code_mem he, rfl, rfl, rfl, by simp [h0],
      by simp [h0, hseen, errSeenAfter], by simp [h0], by simp [h0, endPhase_some]⟩⟩

end Sys2Proof.Control
end

section
/-! PROOFS. The block cipher: the substitution, the key schedule, the recurrence that `BLK_ENC` and `BLK_DEC`
run, and that each direction undoes the other (R120 to R138). -/

namespace Sys2Proof.BlockCipher

open Sys2Proof.Machine Sys2Proof.Laws

/-! ## The two round functions (R128, R132) -/

/-- Settles O14: the linear transform of the substituted word is the sum of its four table entries. -/
theorem tableLookupEqualsReference : Obligations.TableLookupEqualsReference :=
  fun _ a h => congrFun (EngineState.tTab_eq_tRef h) a

/-- With the defined tables both variants run one round function (R133). -/
@[simp] theorem roundFn_ttDef (v : Variant) : roundFn v ttDef = tRef := by
  cases v with
  | reference => rfl
  | tableAccelerated => exact EngineState.tTab_eq_tRef ttLookup_ttDef

/-! ## The two directions undo each other (R137) -/

/-- The window read backwards: what the last four words of one direction are to the other (R134). -/
def reversed (w : Window) : Window := ⟨w.w3, w.w2, w.w1, w.w0⟩

/-- A round from the reversed window takes back the round with the same key, whatever the round function. -/
theorem cipherStep_reversed_cipherStep (T : Word → Word) (w : Window) (k : Word) :
    cipherStep T (reversed (cipherStep T w k)) k = reversed w := by
  have hsum : w.w3 ^^^ w.w2 ^^^ w.w1 ^^^ k = w.w1 ^^^ w.w2 ^^^ w.w3 ^^^ k := by ac_rfl
  simp only [cipherStep, reversed, hsum, BitVec.xor_assoc _ (T _), BitVec.xor_self, BitVec.xor_zero]

/-- The rounds with the keys in reverse order take back the rounds. -/
theorem foldl_reverse_reversed_foldl (T : Word → Word) (ks : List Word) (w : Window) :
    ks.reverse.foldl (cipherStep T) (reversed (ks.foldl (cipherStep T) w)) = reversed w := by
  induction ks generalizing w with
  | nil => rfl
  | cons k ks ih =>
    rw [List.foldl_cons, List.reverse_cons, List.foldl_append, ih]
    exact cipherStep_reversed_cipherStep T w k

/-- The words of the output block are those of the last window, reversed. -/
theorem blockWindow_reversedBlock (w : Window) : blockWindow (reversedBlock w) = reversed w := by
  obtain ⟨h0, h1, h2, h3⟩ := word_blockOfWords w.w3 w.w2 w.w1 w.w0
  rw [blockWindow, reversedBlock, h0, h1, h2, h3, reversed]

/-- A block is made of its own words. -/
theorem reversedBlock_reversed_blockWindow (B : Block) : reversedBlock (reversed (blockWindow B)) = B :=
  blockOfWords_word B

/-- A pass of the cipher undoes another that has the same round keys in reverse order. -/
theorem crypt_crypt (T : Word → Word) {rk : Vector Word 32} {d d' : Direction}
    (h : orderedKeys rk d' = (orderedKeys rk d).reverse) (B : Block) :
    crypt T rk d' (crypt T rk d B) = B := by
  rw [crypt, crypt, blockWindow_reversedBlock, h, foldl_reverse_reversed_foldl,
    reversedBlock_reversed_blockWindow]

theorem decBlock_encBlock (T : Word → Word) (rk : Vector Word 32) (B : Block) :
    decBlock T rk (encBlock T rk B) = B :=
  crypt_crypt T (d := .enc) (d' := .dec) rfl B

theorem encBlock_decBlock (T : Word → Word) (rk : Vector Word 32) (B : Block) :
    encBlock T rk (decBlock T rk B) = B :=
  crypt_crypt T (d := .dec) (d' := .enc) (List.reverse_reverse _).symm B

/-- Settles O16: both variants run one round function, and with it each direction undoes the other. -/
theorem blockCipherInverse : Obligations.BlockCipherInverse := by
  intro rk B v v'
  simp only [roundFn_ttDef]
  exact ⟨decBlock_encBlock tRef rk B, encBlock_decBlock tRef rk B⟩

/-! ## The key schedule (R126, R127) -/

theorem getD_ckList {i : Nat} (h : i < 32) : ckList.getD i 0#32 = ck i := by
  simp [ckList, List.getD_eq_getElem?_getD, h]

/-- The sequence of the key schedule, from the key words masked with `FK` (R126). -/
theorem deriveRoundKeys_sequence (key : Block) : ∃ K : Nat → Word,
    (K 0 = word key 0 ^^^ fk 0 ∧ K 1 = word key 1 ^^^ fk 1 ∧ K 2 = word key 2 ^^^ fk 2 ∧
      K 3 = word key 3 ^^^ fk 3) ∧
    (∀ i < 32, K (i + 4) = K i ^^^ linLk (tau (K (i + 1) ^^^ K (i + 2) ^^^ K (i + 3) ^^^ ck i))) ∧
    ∀ i : Fin 32, (deriveRoundKeys key)[i] = K (i.val + 4) := by
  obtain ⟨K, hfirst, hstep, hkeys⟩ := key_sequence ckList (keyWindow key)
  have hlen : ckList.length = 32 := by simp [ckList]
  rw [hlen] at hstep hkeys
  refine ⟨K, hfirst, fun i hi => getD_ckList hi ▸ hstep i hi, fun i => ?_⟩
  rw [← hkeys i i.isLt, List.getD_eq_getElem _ _ (by simp [keyWords_length, hlen])]
  rfl

/-- Settles O11: the keys that `KEY_EXPAND` stores are those of the schedule's sequence. -/
theorem keyExpandFollowsSchedule : Obligations.KeyExpandFollowsSchedule := by
  refine ⟨rfl, fun s hlen => ?_, fun s hlen => ?_⟩
  · obtain ⟨K, hfirst, hstep, hkeys⟩ := deriveRoundKeys_sequence s.key
    exact ⟨K, deriveRoundKeys s.key, hfirst, hstep, hkeys, (exec_keyExpand s).trans (if_pos hlen)⟩
  · exact (exec_keyExpand s).trans (if_neg hlen)

/-! ## The recurrence of the cipher (R134) -/

/-- The sequence that a pass of the cipher runs along, with the round keys in the order of its direction. -/
theorem crypt_sequence (T : Word → Word) (rk : Vector Word 32) (d : Direction) (B : Block) :
    ∃ X : Nat → Word, (∀ j < 4, X j = word B j) ∧
      (∀ i < 32, X (i + 4) =
        X i ^^^ T (X (i + 1) ^^^ X (i + 2) ^^^ X (i + 3) ^^^ (orderedKeys rk d).getD i 0#32)) ∧
      crypt T rk d B = X 35 ++ X 34 ++ X 33 ++ X 32 := by
  obtain ⟨X, ⟨h0, h1, h2, h3⟩, hstep, hlast⟩ := cipher_sequence T (orderedKeys rk d) (blockWindow B)
  have hlen : (orderedKeys rk d).length = 32 := by cases d <;> simp [orderedKeys]
  rw [hlen] at hstep hlast
  refine ⟨X, fun j hj => ?_, hstep, ?_⟩
  · match j, hj with
    | 0, _ => exact h0
    | 1, _ => exact h1
    | 2, _ => exact h2
    | 3, _ => exact h3
  · rw [crypt, hlast]
    rfl

/-- Encryption uses round key `i` in round `i`. -/
theorem getD_orderedKeys_enc (rk : Vector Word 32) (i : Fin 32) :
    (orderedKeys rk .enc).getD i 0#32 = rk[i] := by
  simp [orderedKeys, List.getD_eq_getElem?_getD]

/-- Decryption uses round key `31 - i` in round `i`. -/
theorem getD_orderedKeys_dec (rk : Vector Word 32) (i : Fin 32) :
    (orderedKeys rk .dec).getD i 0#32 = rk[31 - i.val] := by
  simp [orderedKeys, List.getD_eq_getElem?_getD]

/-- The state with the tables of the first action of a command and an output block (R131, R135, R136). -/
theorem tablesFor_with_blkout (v : Variant) (s : State) (B : Block) :
    { tablesFor v s with blkout := B } =
      { s with tt := (tablesFor v s).tt, ttReady := (tablesFor v s).ttReady, blkout := B } :=
  congrArg (fun x : State => { x with blkout := B }) (tablesFor_eq v s)

/-- Settles O12: the block that `BLK_ENC` stores ends the sequence of its pass. -/
theorem blkEncFollowsRecurrence : Obligations.BlkEncFollowsRecurrence := by
  refine ⟨rfl, rfl, fun v s hrk => ?_, fun v s hrk => ?_⟩
  · obtain ⟨X, hfirst, hstep, hlast⟩ := crypt_sequence (roundFn v (tablesFor v s).tt) s.rk .enc s.blkin
    refine ⟨_, _, X, tablesFor_after v s, hfirst, fun i => ?_, ?_⟩
    · rw [hstep i i.isLt, getD_orderedKeys_enc]
    · rw [exec_blkEnc, if_pos hrk, endCommand_none, tablesFor_with_blkout, encBlock, hlast]
  · rw [exec_blkEnc, hrk, endCommand_some]
    rfl

/-- Settles O13: the block that `BLK_DEC` stores ends the sequence of its pass. -/
theorem blkDecFollowsRecurrence : Obligations.BlkDecFollowsRecurrence := by
  refine ⟨rfl, rfl, fun v s hrk => ?_, fun v s hrk => ?_⟩
  · obtain ⟨X, hfirst, hstep, hlast⟩ := crypt_sequence (roundFn v (tablesFor v s).tt) s.rk .dec s.blkin
    refine ⟨_, _, X, tablesFor_after v s, hfirst, fun i => ?_, ?_⟩
    · rw [hstep i i.isLt, getD_orderedKeys_dec]
    · rw [exec_blkDec, if_pos hrk, endCommand_none, tablesFor_with_blkout, decBlock, hlast]
  · rw [exec_blkDec, hrk, endCommand_some]
    rfl

/-! ## The substitution and the known answer (R120, R138) -/

/-- The rows of the table of the inverse of `SBOX`, laid out as `sboxRows`. -/
def sboxInverseRows : List Block :=
  [0x716C7AB8160F1E4135EBD02AE4AC625A#128,
   0xCDC8DB1A0A8E0846F04B96C132A060CC#128,
   0xF76D69AA61681B760CA914100ED8A3B7#128,
   0x9BD29A28955F79B286FEF46B4A06FB3E#128,
   0x84CB212B19B37240FF1CE35B78F6AE4E#128,
   0x22BF77AD29975D736549CEBECA9263FA#128,
   0xA78D2F6455E8A51150E1BA51BDBCEDAF#128,
   0x5C54BB45D93C13E66EF827D66AF2E7C7#128,
   0x3852A448EF4D1D6FD3E082579DC0B63D#128,
   0x0124C3993A37E5E2261F1294205E7F74#128,
   0x7C8F678893D43F424F3318AB2E9891C2#128,
   0xDF9E5331DE870907DCE947C4C6D71581#128,
   0xA8D10B177DECEE857E34A6FD04D58B2D#128,
   0xDA66837570B000FCCFC956B1F5C5B439#128,
   0x9005A29F30DD4C7B36028059F32CF925#128,
   0xF1EA8A44239CA189588C3B0D43B503B9#128]

/-- The byte that `SBOX` sends to `b`. -/
def sboxInverse (b : Byte) : Byte :=
  blockByte (sboxInverseRows.getD (b.toNat / 16) 0#128) (b.toNat % 16)

/-- The inverse table undoes `SBOX`, byte by byte. -/
theorem sboxInverse_sbox : ∀ b : Byte, sboxInverse (sbox b) = b := by decide

/-- Settles O10: `SBOX` has a left inverse, and the bytes are finitely many. -/
theorem sboxIsPermutation : Obligations.SboxIsPermutation :=
  Finite.injective_iff_bijective.1 (Function.LeftInverse.injective sboxInverse_sbox)

/-- The standard's test vector, run with the reference round function. -/
theorem encBlock_tRef_knownAnswer :
    encBlock tRef (deriveRoundKeys 0x0123456789abcdeffedcba9876543210#128)
      0x0123456789abcdeffedcba9876543210#128 = 0x681edf34d206965e86b3e94f536e4246#128 := by
  decide

/-- Settles O17: one run, in one variant, gives the ciphertext; decryption then undoes it. -/
theorem knownAnswer : Obligations.KnownAnswer := by
  intro v
  rw [roundFn_ttDef]
  refine ⟨encBlock_tRef_knownAnswer, ?_⟩
  rw [← encBlock_tRef_knownAnswer, decBlock_encBlock]

end Sys2Proof.BlockCipher
end

section
/-! PROOFS. What the AEAD commands leave once their checks have passed (R191, R192, R195, R196). -/

namespace Sys2Proof.AeadCall

open Sys2Proof.Machine Sys2Proof.Laws

/-! ## The parts of a call (R191) -/

/-- The state of a call after its key expansion: the tables of its first action and the round keys. -/
theorem callBase_with_output (v : Variant) (s : State) (m : Memory) (n : Word) :
    { callBase v s with outbuf := m, outlen := n } =
      { s with
        tt := (tablesFor v s).tt
        ttReady := (tablesFor v s).ttReady
        rk := deriveRoundKeys s.key
        rkValid := true
        outbuf := m
        outlen := n } := by
  rw [callBase_eq, tablesFor_eq]

/-- The tag over ciphertext `C`, in terms of the block encryption and of the buffers. -/
theorem callTagOf_eq (v : Variant) (s : State) (C : List Byte) :
    callTagOf v s C =
      encBlock (roundFn v (tablesFor v s).tt) (deriveRoundKeys s.key) (callJ0 s) ^^^
        ghash (encBlock (roundFn v (tablesFor v s).tt) (deriveRoundKeys s.key) 0#128)
          (aeadBlocks (s.aadbuf.readBytes 0 s.aadlen.toNat) C) := by
  rw [callTagOf, engineEnc_callBase, ghashAC, aadOperand]

/-- The output of counter mode in a call, byte by byte (R179). -/
theorem getD_callStream (v : Variant) (s : State) {n p : Nat} (h : p < n) :
    (streamOut v (callBase v s) (callJ0 s) n).getD p 0#8 = s.inbuf.read p ^^^
      blockByte (encBlock (roundFn v (tablesFor v s).tt) (deriveRoundKeys s.key)
        (inc32^[p / 16 + 1] (callJ0 s))) (p % 16) := by
  rw [getD_streamOut _ _ _ _ _ h, callBase_inbuf, engineEnc_callBase]

/-! ## The output buffer -/

/-- The cleared output buffer with a byte sequence stored at its start (R64, R180). -/
theorem read_output (bs : List Byte) (p : Nat) :
    (Memory.writeBytes [] 0 bs).read p = if p < bs.length then bs.getD p 0#8 else 0#8 := by
  simp [read_writeBytes wf_nil]

/-- The same with a block stored after the sequence (R192). -/
theorem read_output_block (C : List Byte) (t : Block) (p : Nat) :
    ((Memory.writeBytes [] 0 C).writeBytes C.length (blockBytes t)).read p =
      if p < C.length then C.getD p 0#8
      else if p < C.length + 16 then blockByte t (p - C.length) else 0#8 := by
  rw [read_writeBytes (wf_writeBytes wf_nil 0 C), read_output, length_blockBytes]
  by_cases hC : p < C.length
  · rw [if_neg (by omega)]
    simp only [if_pos hC]
  · by_cases ht : p < C.length + 16
    · rw [if_pos ⟨by omega, ht⟩, if_neg hC, if_pos ht, getD_blockBytes _ _ (by omega)]
    · rw [if_neg (by omega), if_neg hC, if_neg hC, if_neg ht]

/-! ## The comparison of tags (R193) -/

/-- The combined differences are zero exactly when each of them is. -/
theorem foldl_or_eq_zero (f : Nat → Byte) (is : List Nat) (d : Byte) :
    is.foldl (fun d i => d ||| f i) d = 0#8 ↔ d = 0#8 ∧ ∀ i ∈ is, f i = 0#8 := by
  induction is generalizing d with
  | nil => simp
  | cons i is ih => rw [List.foldl_cons, ih, BitVec.or_eq_zero_iff, List.forall_mem_cons, and_assoc]

theorem ctEq16_iff (a b : Block) : ctEq16 a b = true ↔ ∀ i < 16, blockByte a i = blockByte b i := by
  simp only [ctEq16, beq_iff_eq, foldl_or_eq_zero, true_and, List.mem_range, BitVec.xor_eq_zero_iff]

/-- The received tag is the last sixteen bytes of the input (R195). -/
theorem blockByte_receivedTag (s : State) {i : Nat} (h : i < 16) :
    blockByte (receivedTag s) i = s.inbuf.read (s.inlen.toNat - 16 + i) := by
  rw [receivedTag, blockByte_blockOfBytes _ _ h, getD_readBytes _ _ _ _ h]

/-- The comparison of `AEAD_DEC`, byte by byte. -/
theorem ctEq16_receivedTag (t : Block) (s : State) : ctEq16 t (receivedTag s) = true ↔
    ∀ i < 16, blockByte t i = s.inbuf.read (s.inlen.toNat - 16 + i) := by
  rw [ctEq16_iff]
  exact forall₂_congr fun i hi => by rw [blockByte_receivedTag s hi]

/-! ## The commands -/

/-- Settles O36: the equation of `AEAD_ENC`, its stream, its tag and its output byte by byte. -/
theorem aeadEncComputesCiphertextAndTag : Obligations.AeadEncComputesCiphertextAndTag := by
  refine ⟨rfl, rfl, fun v s hkey hiv haad hin => ?_⟩
  have hargs : encArgError s = none := (encArgError_eq_none s).2 ⟨hkey, hiv, haad, hin⟩
  have hlen : (streamOut v (callBase v s) (callJ0 s) s.inlen.toNat).length = s.inlen.toNat :=
    length_streamOut _ _ _ _
  have hbytes (p : Nat) (hp : p < s.inlen.toNat) := getD_callStream v s hp
  have hexec := exec_aeadEnc v s
  rw [hargs] at hexec
  dsimp only at hexec
  generalize streamOut v (callBase v s) (callJ0 s) s.inlen.toNat = C at hlen hbytes hexec
  refine ⟨_, _, callJ0 s, callTagOf v s C, C, _, tablesFor_after v s, callJ0_twelve s, callJ0_sixteen s,
    hlen, hbytes, callTagOf_eq v s C,
    wf_writeBytes (wf_writeBytes wf_nil 0 C) C.length (blockBytes (callTagOf v s C)), ?_, ?_⟩
  · rw [← hlen]
    exact read_output_block C (callTagOf v s C)
  · rw [hexec, endCommand_none, callBase_with_output, hlen]
    rfl

/-- Settles O37: the equation of `AEAD_DEC`, its tag and its plaintext byte by byte, and the comparison as the
equality of sixteen bytes. -/
theorem aeadDecChecksTagBeforePlaintext : Obligations.AeadDecChecksTagBeforePlaintext := by
  refine ⟨rfl, rfl, fun v s hkey hiv hmin haad hin => ?_⟩
  have hargs : decArgError s = none := (decArgError_eq_none s).2 ⟨hkey, hiv, hmin, haad, hin⟩
  have hexec := exec_aeadDec v s
  rw [hargs] at hexec
  dsimp only at hexec
  refine ⟨_, _, callJ0 s, callTagOf v s (inOperand s (s.inlen.toNat - 16)), _, tablesFor_after v s,
    callJ0_twelve s, callJ0_sixteen s, callTagOf_eq v s _,
    wf_writeBytes wf_nil 0 (streamOut v (callBase v s) (callJ0 s) (s.inlen.toNat - 16)),
    fun p => ?plaintext, fun heq => ?accepted, fun hne => ?rejected⟩
  case plaintext =>
    rw [read_output, length_streamOut]
    split
    next hp => exact getD_callStream v s hp
    next => rfl
  case accepted =>
    rw [hexec, if_pos ((ctEq16_receivedTag _ s).2 heq), endCommand_authentic, callBase_with_output]
    rfl
  case rejected =>
    obtain ⟨i, hi, hdiff⟩ := hne
    have hrejected := mt (ctEq16_receivedTag _ s).1 fun heq => hdiff (heq i hi)
    rw [hexec, if_neg hrejected, endCommand_some, clearOut, callBase_with_output]
    rfl

end Sys2Proof.AeadCall
end

section
/-! PROOFS. The multiplier: a block is read as an element of GF(2)[x] modulo the polynomial of R150, the loop of
R151 is its product there, and the laws of R153 are those of that ring, because the reading loses nothing. -/

namespace Sys2Proof.Multiplier

open AdjoinRoot (mk root)
open Polynomial (X)
open Sys2Proof.Machine Sys2Proof.Laws

/-! ## The loop of R151 -/

/-- The running copy and the accumulator after `n` iterations. -/
def loopState (A B : Block) (n : Nat) : Block × Block := (List.range n).foldl (gfStep B) (A, 0#128)

theorem loopState_zero (A B : Block) : loopState A B 0 = (A, 0#128) := rfl

theorem loopState_succ (A B : Block) (n : Nat) :
    loopState A B (n + 1) = gfStep B (loopState A B n) n := by
  rw [loopState, List.range_succ, List.foldl_concat, loopState]

theorem gfmul_eq_loopState (A B : Block) : gfmul A B = (loopState A B 128).2 := rfl

/-- The coefficient of `x^i` by its bit number in the block (R16). -/
theorem gbit_eq_getLsbD (B : Block) {i : Nat} (hi : i < 128) : gbit B i = B.getLsbD (127 - i) := by
  simp [gbit, BitVec.getMsbD, hi]

/-- Settles O18: the sequences are the two halves of the loop's state. -/
theorem gfMulShiftsAndAccumulates : Obligations.GfMulShiftsAndAccumulates := by
  refine ⟨rfl, fun s => ⟨fun n => (loopState s.gfx s.gfy n).1, fun n => (loopState s.gfx s.gfy n).2,
    rfl, rfl, fun i hi => ?_, fun i _ => ?_, exec_gfMul s⟩⟩
  · rw [← gbit_eq_getLsbD _ hi]
    exact congrArg Prod.snd (loopState_succ s.gfx s.gfy i)
  · exact congrArg Prod.fst (loopState_succ s.gfx s.gfy i)

/-! ## Blocks as polynomials (R150) -/

/-- The polynomial over GF(2) whose coefficient of `x^i` is `gbit i`. -/
noncomputable def blockPoly (B : Block) : Polynomial (ZMod 2) :=
  ∑ i ∈ Finset.range 128, if B.getLsbD (127 - i) then X ^ i else 0

/-- The polynomial that defines the field. -/
noncomputable def fieldPoly : Polynomial (ZMod 2) := X ^ 128 + X ^ 7 + X ^ 2 + X + 1

theorem coeff_blockPoly (B : Block) (i : Nat) :
    (blockPoly B).coeff i = if i < 128 ∧ B.getLsbD (127 - i) then 1 else 0 := by
  have hterm (j : Nat) : (if B.getLsbD (127 - j) then X ^ j else 0 : Polynomial (ZMod 2)).coeff i =
      if i = j then (if B.getLsbD (127 - i) then 1 else 0) else 0 := by
    by_cases h : i = j
    · subst h
      cases B.getLsbD (127 - i) <;> simp
    · cases B.getLsbD (127 - j) <;> simp [Polynomial.coeff_X_pow, h]
  rw [blockPoly, Polynomial.finsetSum_coeff, Finset.sum_congr rfl fun j _ => hterm j,
    Finset.sum_ite_eq, ite_and]
  exact if_congr Finset.mem_range rfl rfl

theorem blockPoly_injective : Function.Injective blockPoly := by
  intro A B h
  refine BitVec.eq_of_getLsbD_eq fun i hi => ?_
  have hcoeff := congrArg (Polynomial.coeff · (127 - i)) h
  simp only [coeff_blockPoly, show 127 - i < 128 by omega, show 127 - (127 - i) = i by omega,
    true_and] at hcoeff
  cases hA : A.getLsbD i <;> cases hB : B.getLsbD i <;> simp_all

theorem degree_blockPoly_lt (B : Block) : (blockPoly B).degree < 128 :=
  (Polynomial.degree_lt_iff_coeff_zero _ 128).2 fun i hi => by
    rw [coeff_blockPoly, if_neg fun h => absurd h.1 (by omega)]

theorem degree_fieldPoly : fieldPoly.degree = 128 := by
  unfold fieldPoly
  compute_degree!

theorem blockPoly_zero : blockPoly 0#128 = 0 := by simp [blockPoly]

/-- The block whose only one is `gbit k` stands for `x^k`. -/
theorem blockPoly_singleBit {k : Nat} (hk : k < 128) : blockPoly (1#128 <<< (127 - k)) = X ^ k := by
  have hbit : ∀ i ∈ Finset.range 128, (if (1#128 <<< (127 - k)).getLsbD (127 - i) then X ^ i else 0) =
      if i = k then (X ^ k : Polynomial (ZMod 2)) else 0 := fun i hi => by
    rw [Finset.mem_range] at hi
    have hiff : (1#128 <<< (127 - k)).getLsbD (127 - i) = decide (i = k) := by
      rw [BitVec.getLsbD_shiftLeft, BitVec.getLsbD_one]
      grind
    rw [hiff]
    by_cases h : i = k <;> simp [h]
  rw [blockPoly, Finset.sum_congr rfl hbit, Finset.sum_ite_eq', if_pos (Finset.mem_range.2 hk)]

/-- Exclusive or is the sum over GF(2) (R150). -/
theorem blockPoly_xor (A B : Block) : blockPoly (A ^^^ B) = blockPoly A + blockPoly B := by
  rw [blockPoly, blockPoly, blockPoly, ← Finset.sum_add_distrib]
  refine Finset.sum_congr rfl fun i _ => ?_
  rw [BitVec.getLsbD_xor]
  cases A.getLsbD (127 - i) <;> cases B.getLsbD (127 - i) <;> simp [CharTwo.add_self_eq_zero]

/-- 0xE1 in the top byte stands for the polynomial of the field without its leading term (R151). -/
theorem blockPoly_gfPoly : blockPoly gfPoly = X ^ 7 + X ^ 2 + X + 1 := by
  have hbits : gfPoly = 1#128 <<< (127 - 0) ^^^ 1#128 <<< (127 - 1) ^^^ 1#128 <<< (127 - 2) ^^^
      1#128 <<< (127 - 7) := by decide
  rw [hbits, blockPoly_xor, blockPoly_xor, blockPoly_xor, blockPoly_singleBit (by omega),
    blockPoly_singleBit (by omega), blockPoly_singleBit (by omega), blockPoly_singleBit (by omega)]
  ring

/-- A shift to the right multiplies by `x` and loses the bit of `x^127`. -/
theorem blockPoly_shiftRight (v : Block) :
    blockPoly (v >>> 1) = X * blockPoly v - if v.getLsbD 0 then X ^ 128 else 0 := by
  have hnext : ∀ i ∈ Finset.range 127,
      (if (v >>> 1).getLsbD (127 - (i + 1)) then X ^ (i + 1) else 0 : Polynomial (ZMod 2)) =
        X * if v.getLsbD (127 - i) then X ^ i else 0 := fun i hi => by
    rw [Finset.mem_range] at hi
    rw [BitVec.getLsbD_ushiftRight, show 1 + (127 - (i + 1)) = 127 - i by omega, mul_ite, mul_zero,
      pow_succ']
  have hlow : blockPoly (v >>> 1) =
      (∑ i ∈ Finset.range 127, if (v >>> 1).getLsbD (127 - (i + 1)) then X ^ (i + 1) else 0) +
        if (v >>> 1).getLsbD (127 - 0) then X ^ 0 else 0 := Finset.sum_range_succ' _ 127
  have hall : blockPoly v = (∑ i ∈ Finset.range 127, if v.getLsbD (127 - i) then X ^ i else 0) +
      if v.getLsbD (127 - 127) then X ^ 127 else 0 := Finset.sum_range_succ _ 127
  rw [hlow, hall, Finset.sum_congr rfl hnext, ← Finset.mul_sum]
  cases v.getLsbD 0 <;> simp [mul_add, ← pow_succ']

/-! ## The ring of residues -/

/-- The residue of a block's polynomial modulo the polynomial of the field. -/
noncomputable def residue (B : Block) : AdjoinRoot fieldPoly := mk fieldPoly (blockPoly B)

/-- Two polynomials of small degree with one residue are equal. -/
theorem eq_of_mk_eq {p f g : Polynomial (ZMod 2)} (h : mk p f = mk p g)
    (hf : f.degree < p.degree) (hg : g.degree < p.degree) : f = g :=
  sub_eq_zero.1 (Polynomial.eq_zero_of_dvd_of_degree_lt (AdjoinRoot.mk_eq_mk.1 h)
    ((Polynomial.degree_sub_le f g).trans_lt (max_lt hf hg)))

/-- Different blocks have different residues: their polynomials have degree below 128. -/
theorem residue_injective : Function.Injective residue := by
  intro A B h
  apply blockPoly_injective
  apply eq_of_mk_eq h <;> rw [degree_fieldPoly] <;> exact degree_blockPoly_lt _

theorem residue_zero : residue 0#128 = 0 := by rw [residue, blockPoly_zero, map_zero]

/-- The block 80 00 ... 00 stands for 1 (R153). -/
theorem residue_one : residue (1#128 <<< 127) = 1 := by
  rw [residue, blockPoly_singleBit (k := 0) (by omega), pow_zero, map_one]

theorem residue_xor (A B : Block) : residue (A ^^^ B) = residue A + residue B := by
  rw [residue, blockPoly_xor, map_add, residue, residue]

/-- The defining relation of the field: `x^128 = x^7 + x^2 + x + 1`. -/
theorem residue_gfPoly : residue gfPoly = root fieldPoly ^ 128 := by
  have hrel : blockPoly gfPoly - X ^ 128 = fieldPoly := by
    rw [blockPoly_gfPoly, CharTwo.sub_eq_add]
    unfold fieldPoly
    ring
  rw [residue, ← AdjoinRoot.mk_X, ← map_pow, AdjoinRoot.mk_eq_mk, hrel]

/-- One iteration multiplies the running copy by `x` (R151). -/
theorem residue_gfShift (v : Block) : residue (gfShift v) = root fieldPoly * residue v := by
  have hshift : residue (v >>> 1) = root fieldPoly * residue v -
      if v.getLsbD 0 then root fieldPoly ^ 128 else 0 := by
    rw [residue, blockPoly_shiftRight, map_sub, map_mul, apply_ite (mk fieldPoly), map_pow,
      map_zero, AdjoinRoot.mk_X, residue]
  rw [gfShift]
  cases hlast : v.getLsbD 0
  · rw [if_neg Bool.false_ne_true, hshift, hlast, if_neg Bool.false_ne_true, sub_zero]
  · rw [if_pos rfl, residue_xor, residue_gfPoly, hshift, hlast, if_pos rfl, sub_add_cancel]

/-- The residue of the terms below `x^n` of a block's polynomial. -/
noncomputable def lowResidue (B : Block) (n : Nat) : AdjoinRoot fieldPoly :=
  ∑ i ∈ Finset.range n, if gbit B i then root fieldPoly ^ i else 0

theorem lowResidue_succ (B : Block) (n : Nat) :
    lowResidue B (n + 1) = lowResidue B n + if gbit B n then root fieldPoly ^ n else 0 :=
  Finset.sum_range_succ _ n

theorem lowResidue_all (B : Block) : lowResidue B 128 = residue B := by
  rw [residue, blockPoly, map_sum, lowResidue]
  refine Finset.sum_congr rfl fun i hi => ?_
  rw [apply_ite (mk fieldPoly), map_pow, map_zero, AdjoinRoot.mk_X,
    gbit_eq_getLsbD B (Finset.mem_range.1 hi)]

/-- After `n` iterations the running copy is `A x^n`, and the accumulator is the product of `A` with the
terms of `B` below `x^n` (R151). -/
theorem residue_loopState (A B : Block) (n : Nat) :
    residue (loopState A B n).1 = residue A * root fieldPoly ^ n ∧
      residue (loopState A B n).2 = residue A * lowResidue B n := by
  induction n with
  | zero => simp [loopState_zero, lowResidue, residue_zero]
  | succ n ih =>
    obtain ⟨hcopy, hacc⟩ := ih
    rw [loopState_succ, gfStep, lowResidue_succ]
    constructor
    · rw [residue_gfShift, hcopy, pow_succ', mul_left_comm]
    · cases gbit B n
      · simp [hacc]
      · simp [residue_xor, hacc, hcopy, mul_add]

/-- The multiplier multiplies residues (R150, R151). -/
theorem residue_gfmul (A B : Block) : residue (gfmul A B) = residue A * residue B := by
  obtain ⟨-, hacc⟩ := residue_loopState A B 128
  rw [gfmul_eq_loopState, hacc, lowResidue_all]

/-! ## The laws of the multiplier (R150, R153) -/

theorem fieldPoly_dvd_gfmul (A B : Block) :
    fieldPoly ∣ blockPoly (gfmul A B) - blockPoly A * blockPoly B := by
  rw [← AdjoinRoot.mk_eq_mk, map_mul]
  exact residue_gfmul A B

/-- Settles O19: equal residues, as divisibility of polynomials. -/
theorem productIsFieldProduct : Obligations.ProductIsFieldProduct := by
  intro A B
  have h := fieldPoly_dvd_gfmul A B
  unfold fieldPoly at h
  exact h

/-- Settles O20: each law holds of the residues. -/
theorem multiplierIsBilinear : Obligations.MultiplierIsBilinear := by
  refine fun A B C => ⟨?_, ?_, ?_, ?_, ?_, ?_⟩ <;> apply residue_injective
  · simp only [residue_gfmul, residue_xor, add_mul]
  · simp only [residue_gfmul, residue_xor, mul_add]
  · rw [residue_gfmul, residue_zero, mul_zero]
  · rw [residue_gfmul, residue_zero, zero_mul]
  · rw [residue_gfmul, residue_one, mul_one]
  · rw [residue_gfmul, residue_one, one_mul]

/-- Settles O21: each law holds of the residues. -/
theorem multiplierCommutesAndAssociates : Obligations.MultiplierCommutesAndAssociates := by
  refine fun A B C => ⟨?_, ?_⟩ <;> apply residue_injective
  · rw [residue_gfmul, residue_gfmul, mul_comm]
  · simp only [residue_gfmul, mul_assoc]

end Sys2Proof.Multiplier
end

section
/-! PROOFS. GHASH: the accumulator, the block sequence of a call with its length block, and the commands that
run them (R160 to R168). -/

namespace Sys2Proof.GhashUnit

open Sys2Proof.Machine Sys2Proof.Laws

/-! ## The accumulator (R160) -/

theorem ghash_nil (H : Block) : ghash H [] = 0#128 := rfl

theorem ghash_concat (H X : Block) (Xs : List Block) :
    ghash H (Xs ++ [X]) = gfmul (ghash H Xs ^^^ X) H :=
  List.foldl_concat ..

/-- Settles O22: the two equations of the accumulator. -/
theorem ghashAbsorbsBlocksInOrder : Obligations.GhashAbsorbsBlocksInOrder :=
  fun H X Xs => ⟨ghash_nil H, ghash_concat H X Xs⟩

/-! ## The block sequence of a call (R163) -/

theorem length_aeadBlocks (A C : List Byte) :
    (aeadBlocks A C).length = nchunks A.length + nchunks C.length + 1 := by
  simp [aeadBlocks, Nat.add_assoc]

/-- The sequence begins with the blocks of the AAD. -/
theorem getD_aeadBlocks_aad (A C : List Byte) {i : Nat} (hi : i < nchunks A.length) :
    (aeadBlocks A C).getD i 0#128 = (padBlocks A).getD i 0#128 := by
  rw [aeadBlocks, List.append_assoc, List.getD_append _ _ _ _ (by simpa using hi)]

/-- The blocks of the ciphertext follow those of the AAD. -/
theorem getD_aeadBlocks_ciphertext (A C : List Byte) {i : Nat} (hi : i < nchunks C.length) :
    (aeadBlocks A C).getD (nchunks A.length + i) 0#128 = (padBlocks C).getD i 0#128 := by
  rw [aeadBlocks, List.append_assoc, List.getD_append_right _ _ _ _ (by simp), length_padBlocks,
    Nat.add_sub_cancel_left, List.getD_append _ _ _ _ (by simpa using hi)]

/-- The length block comes last. -/
theorem getD_aeadBlocks_last (A C : List Byte) :
    (aeadBlocks A C).getD (nchunks A.length + nchunks C.length) 0#128 = lenblock A.length C.length := by
  rw [aeadBlocks, List.getD_append_right _ _ _ _ (by simp), List.length_append, length_padBlocks,
    length_padBlocks, Nat.sub_self, List.getD_cons_zero]

/-- Settles O23: each block of the sequence is found in its part, and a padded block gives its bytes. -/
theorem aeadBlockSequence : Obligations.AeadBlockSequence := by
  refine fun A C => ⟨length_aeadBlocks A C, fun i hi t ht => ?_, fun i hi t ht => ?_,
    getD_aeadBlocks_last A C⟩
  · rw [getD_aeadBlocks_aad A C hi, blockByte_padBlocks A i t hi ht]
  · have hbyte := blockByte_padBlocks C i t hi ht
    rw [← getD_aeadBlocks_ciphertext A C hi] at hbyte
    exact hbyte

/-! ## The length block (R164) -/

/-- A byte of a block as a digit in base 256: byte 0 is the most significant (R15). -/
theorem toNat_blockByte (B : Block) (i : Nat) :
    (blockByte B i).toNat = B.toNat / 256 ^ (15 - i) % 256 := by
  rw [blockByte, BitVec.extractLsb'_toNat, Nat.shiftRight_eq_div_pow, pow_mul]
  rfl

/-- The low `n` digits of a number in base 256. -/
theorem sum_digits_base256 (x n : Nat) :
    ∑ j ∈ Finset.range n, x / 256 ^ j % 256 * 256 ^ j = x % 256 ^ n := by
  induction n with
  | zero => simp [Nat.mod_one]
  | succ n ih => rw [Finset.sum_range_succ, ih, Nat.mod_pow_succ, Nat.mul_comm]

/-- Eight bytes of a block from byte `k` on, as a big-endian number. -/
theorem sum_eight_blockBytes (B : Block) {k : Nat} (hk : k ≤ 8) :
    ∑ i ∈ Finset.range 8, (blockByte B (k + i)).toNat * 256 ^ (7 - i) =
      B.toNat / 256 ^ (8 - k) % 256 ^ 8 := by
  rw [← sum_digits_base256, ← Finset.sum_range_reflect]
  refine Finset.sum_congr rfl fun j hj => ?_
  have hj8 : j < 8 := Finset.mem_range.1 hj
  rw [toNat_blockByte, show 15 - (k + (8 - 1 - j)) = 8 - k + j by omega,
    show 7 - (8 - 1 - j) = j by omega, pow_add, Nat.div_div_eq_div_mul]

/-- Both bit lengths fit their halves of the block. -/
theorem toNat_lenblock {a c : Nat} (ha : a < 2 ^ 61) (hc : c < 2 ^ 61) :
    (lenblock a c).toNat = 256 ^ 8 * (8 * a) + 8 * c := by
  have hbit {n : Nat} (hn : n < 2 ^ 61) : (be64 (8 * n)).toNat = 8 * n := by
    rw [be64, BitVec.toNat_ofNat]
    omega
  rw [lenblock, BitVec.toNat_append, hbit ha, hbit hc, ← Nat.shiftLeft_add_eq_or_of_lt (by omega),
    Nat.shiftLeft_eq]
  omega

/-- Settles O24: each half of the block is a quotient or a remainder of its number by `256 ^ 8`. -/
theorem lengthBlockHoldsBitLengths : Obligations.LengthBlockHoldsBitLengths := by
  intro a c ha hc
  have hblock : (lenblock a c).toNat = 256 ^ 8 * (8 * a) + 8 * c :=
    toNat_lenblock (by omega) (by omega)
  constructor
  · have hhigh := sum_eight_blockBytes (lenblock a c) (Nat.zero_le 8)
    simp only [Nat.zero_add] at hhigh
    rw [hhigh, hblock]
    omega
  · rw [sum_eight_blockBytes (lenblock a c) le_rfl, hblock]
    omega

/-! ## The commands (R161, R162, R166, R167) -/

/-- Settles O25: the equation of `GH_INIT`, its record that of a success. -/
theorem ghInitClearsAccumulator : Obligations.GhInitClearsAccumulator :=
  ⟨rfl, exec_ghInit⟩

/-- Settles O26: the equation of `GH_UPD`, its record that of a success. -/
theorem ghUpdAbsorbsBlock : Obligations.GhUpdAbsorbsBlock :=
  ⟨rfl, exec_ghUpd⟩

/-- The check of `GH_MSG` fails when one of the two lengths is beyond its buffer. -/
theorem ghMsgTooLong_iff (s : State) : (aadTooLong s || inTooLong s) = true ↔
    s.cfgAadMax.toNat < s.aadlen.toNat ∨ s.cfgMsgMax.toNat + 16 < s.inlen.toNat := by
  rw [Bool.or_eq_true, aadTooLong_iff, inTooLong_iff]

/-- Settles O27: the equation of `GH_MSG`, its check as a statement about the two lengths. -/
theorem ghMsgHashesTheBuffers : Obligations.GhMsgHashesTheBuffers := by
  refine ⟨rfl, fun s haad hin => ?_, fun s hlong => ?_⟩
  · have hshort : ¬ (aadTooLong s || inTooLong s) = true := by
      rw [ghMsgTooLong_iff]
      omega
    rw [exec_ghMsg, if_neg hshort, endCommand_none]
    rfl
  · rw [exec_ghMsg, if_pos ((ghMsgTooLong_iff s).2 hlong), endCommand_some]
    rfl

/-- The state with the tables of the first action of a command and a hash key (R131, R167). -/
theorem tablesFor_with_h (v : Variant) (s : State) (B : Block) :
    { tablesFor v s with h := B } =
      { s with tt := (tablesFor v s).tt, ttReady := (tablesFor v s).ttReady, h := B } :=
  congrArg (fun x : State => { x with h := B }) (tablesFor_eq v s)

/-- Settles O28: the equation of `H_DERIVE` in its two cases. -/
theorem hDeriveEncryptsZeroBlock : Obligations.HDeriveEncryptsZeroBlock := by
  refine ⟨rfl, rfl, fun v s hrk => ⟨_, _, tablesFor_after v s, ?_⟩, fun v s hrk => ?_⟩
  · rw [exec_hDerive, if_pos hrk, endCommand_none, tablesFor_with_h]
  · rw [exec_hDerive, hrk, endCommand_some]
    rfl

end Sys2Proof.GhashUnit
end

section
/-! PROOFS. Counter mode: the initial counter block, the increment and its ceiling, the laws of the keystream,
and the commands that run them (R175 to R182). -/

namespace Sys2Proof.CounterMode

open Sys2Proof.Machine Sys2Proof.Laws

/-! ## The increment (R177, R181) -/

/-- `inc32` keeps the first twelve bytes. -/
theorem blockByte_inc32 (B : Block) {i : Nat} (hi : i < 12) : blockByte (inc32 B) i = blockByte B i := by
  rw [inc32, blockByte_lastWord _ _ _ (by omega), if_pos hi]

/-- The last word of the counter after `n` increments. -/
theorem word_inc32_iterate (n : Nat) (B : Block) :
    word (inc32^[n] B) 3 = word B 3 + BitVec.ofNat 32 n := by
  rw [inc32_iterate]
  exact (word_blockOfWords _ _ _ _).2.2.2

/-- The counter comes back after `2^32` increments. -/
theorem inc32_iterate_period (B : Block) : inc32^[2 ^ 32] B = B := by
  have hzero : BitVec.ofNat 32 (2 ^ 32) = 0#32 := rfl
  rw [inc32_iterate, hzero, BitVec.add_zero, blockOfWords_word]

/-- Up to `2^32` increments the last word tells how many there were, so no counter block repeats. -/
theorem eq_of_inc32_iterate_eq {J : Block} {i j : Nat} (hi : i < 2 ^ 32) (hj : j < 2 ^ 32)
    (h : inc32^[i] J = inc32^[j] J) : i = j := by
  have hword := congrArg (word · 3) h
  simp only [word_inc32_iterate, BitVec.add_right_inj] at hword
  have hmod := congrArg BitVec.toNat hword
  rwa [BitVec.toNat_ofNat, BitVec.toNat_ofNat, Nat.mod_eq_of_lt hi, Nat.mod_eq_of_lt hj] at hmod

/-- Settles O30: the increment replaces the last word by its successor, and `2^32` is zero there. -/
theorem inc32CountsInTheLastWord : Obligations.Inc32CountsInTheLastWord := by
  refine fun B => ⟨?_, fun i hi => blockByte_inc32 B hi, inc32_iterate_period B⟩
  obtain ⟨-, -, -, hlast⟩ := word_inc32 B
  rw [hlast, BitVec.toNat_add]
  rfl

/-- Settles O32: the last words of the counter blocks differ, and the capacity bounds the chunks (R11). -/
theorem counterBlocksDoNotRepeat : Obligations.CounterBlocksDoNotRepeat := by
  refine ⟨fun J i j hij hj h => ?_, fun aadMax msgMax n hcap hn => ?_⟩
  · exact hij.ne (eq_of_inc32_iterate_eq (hij.trans hj) hj h)
  · obtain ⟨-, -, -, -, -, hmax⟩ := hcap
    rw [nchunks]
    omega

/-! ## The laws of the keystream (R182) -/

/-- Exclusive or with a mask passes through counter mode: both are exclusive ors, byte by byte. -/
theorem ctrStream_xorBytes (E : Block → Block) (J : Block) {D M : List Byte} (hlen : M.length = D.length) :
    (ctrStream E J (xorBytes D M)).1 = xorBytes (ctrStream E J D).1 M := by
  apply RoundTrip.bytes_ext (by simp)
  intro p hp
  have hpD : p < D.length := by simpa [hlen] using hp
  have hpM : p < M.length := hlen ▸ hpD
  rw [getD_ctrStream _ _ _ _ (by simpa [hlen]), getD_xorBytes _ _ _ hpD hpM,
    getD_xorBytes _ _ _ (by simpa) hpM, getD_ctrStream _ _ _ _ hpD]
  ac_rfl

/-- Settles O34: over the defined tables both variants have one keystream, which is only ever combined by
exclusive or. -/
theorem counterModeLaws : Obligations.CounterModeLaws := by
  intro rk J D M v v'
  rw [BlockCipher.roundFn_ttDef, BlockCipher.roundFn_ttDef]
  exact ⟨length_ctrStream _ J D, RoundTrip.ctrStream_ctrStream _ J D, ctrStream_xorBytes _ J⟩

/-! ## The commands (R176, R178, R180) -/

/-- Settles O29: the equation of `J0_DERIVE` in the three cases of the IV length. -/
theorem j0DeriveFollowsIvLength : Obligations.J0DeriveFollowsIvLength := by
  refine ⟨rfl, fun s h12 => ?_, fun s h16 => ?_, fun s h12 h16 => ?_⟩
  · rw [exec_j0Derive, ivJ0_twelve s h12]
    rfl
  · rw [exec_j0Derive, ivJ0_sixteen s h16]
    rfl
  · rw [exec_j0Derive, ivJ0_other s h12 h16]
    rfl

/-- Settles O31: the equation of `CTR_INC`, its record that of a success. -/
theorem ctrIncAdvancesCounter : Obligations.CtrIncAdvancesCounter :=
  ⟨rfl, exec_ctrInc⟩

/-- The state with the tables of the first action of a command, an output and a counter (R131, R180). -/
theorem tablesFor_with_stream (v : Variant) (s : State) (m : Memory) (n : Word) (c : Block) :
    { tablesFor v s with outbuf := m, outlen := n, ctr := c } =
      { s with
        tt := (tablesFor v s).tt
        ttReady := (tablesFor v s).ttReady
        outbuf := m
        outlen := n
        ctr := c } :=
  congrArg (fun x : State => { x with outbuf := m, outlen := n, ctr := c }) (tablesFor_eq v s)

/-- The output of `CTR_XCRYPT` byte by byte, over the tables of its first action (R179). -/
theorem getD_xcryptOut (v : Variant) (s : State) {n p : Nat} (h : p < n) :
    (streamOut v (tablesFor v s) s.j0 n).getD p 0#8 = s.inbuf.read p ^^^
      blockByte (encBlock (roundFn v (tablesFor v s).tt) s.rk (inc32^[p / 16 + 1] s.j0)) (p % 16) := by
  rw [getD_streamOut _ _ _ _ _ h, tablesFor_inbuf, engineEnc, tablesFor_rk]

/-- Settles O33: the equation of `CTR_XCRYPT`, its output byte by byte, and its two errors in their order. -/
theorem ctrXcryptStreams : Obligations.CtrXcryptStreams := by
  refine ⟨rfl, rfl, fun v s hrk hin => ?_, fun v s hrk => ?_, fun v s hrk hlong => ?_⟩
  · have hfits : ¬ inTooLong s = true := by rwa [inTooLong_iff, Nat.not_lt]
    refine ⟨_, _, Memory.writeBytes [] 0 (streamOut v (tablesFor v s) s.j0 s.inlen.toNat),
      tablesFor_after v s, wf_writeBytes wf_nil 0 _, fun p hp => ?_, fun p hp => ?_, ?_⟩
    · rw [AeadCall.read_output, length_streamOut, if_pos hp, getD_xcryptOut v s hp]
    · rw [AeadCall.read_output, length_streamOut, if_neg (by omega)]
    · rw [exec_ctrXcrypt, if_pos hrk, if_neg hfits, endCommand_none, tablesFor_with_stream, nchunks]
  · rw [exec_ctrXcrypt, hrk, endCommand_some]
    rfl
  · rw [exec_ctrXcrypt, if_pos hrk, if_pos ((inTooLong_iff s).2 hlong), endCommand_some]
    rfl

end Sys2Proof.CounterMode
end

section
/-! PROOFS. What an AEAD call guarantees on every path: the first failing check decides its error, nothing of the
call stays behind, what was sealed opens, and a changed tag is rejected (R190, R193, R194, R198, R199). -/

namespace Sys2Proof.AeadGuarantees

open Sys2Proof.Machine Sys2Proof.Laws

/-- Settles O35: the combined differences are zero exactly when each of the sixteen is. -/
theorem tagComparisonDecidesEquality : Obligations.TagComparisonDecidesEquality :=
  AeadCall.ctEq16_iff

/-! ## The argument checks (R190) -/

section
variable {v : Variant} {s : State} {e : ErrorKind}

/-- The checks of `AEAD_ENC` as statements about numbers. -/
theorem encArgError_eq (s : State) : encArgError s =
    if s.keylen ≠ 16#32 then some .invalidKeySize
    else if ¬ (s.ivlen = 12#32 ∨ s.ivlen = 16#32) then some .invalidIVSize
    else if s.cfgAadMax.toNat < s.aadlen.toNat ∨ s.cfgMsgMax.toNat < s.inlen.toNat then some .lengthError
    else none := by
  simp only [encArgError, ← keyLenOk_iff, ← ivLenOk_iff, ← aadTooLong_iff, ← plainTooLong_iff,
    Bool.not_eq_true', Bool.not_eq_true, Bool.or_eq_true, ne_eq]

/-- The checks of `AEAD_DEC` as statements about numbers. -/
theorem decArgError_eq (s : State) : decArgError s =
    if s.keylen ≠ 16#32 then some .invalidKeySize
    else if ¬ (s.ivlen = 12#32 ∨ s.ivlen = 16#32) then some .invalidIVSize
    else if s.inlen.toNat < 16 then some .truncatedInput
    else if s.cfgAadMax.toNat < s.aadlen.toNat ∨ s.cfgMsgMax.toNat + 16 < s.inlen.toNat then some .lengthError
    else none := by
  simp only [decArgError, ← keyLenOk_iff, ← ivLenOk_iff, ← aadTooLong_iff, ← inTooLong_iff,
    Bool.not_eq_true', Bool.not_eq_true, Bool.or_eq_true, ne_eq, decide_eq_true_iff]

/-- A call that fails a check leaves the record of its error over the cleared state (R194). -/
theorem exec_aeadEnc_argError (h : encArgError s = some e) :
    exec (.aeadEnc v) s = .next (State.failed s.outCleared.callCleared (encode (.aeadEnc v)) e.code) := by
  rw [exec_aeadEnc, h]
  exact congrArg _ (endCommand_some _ _ _)

/-- A call that fails a check leaves the record of its error over the cleared state (R194). -/
theorem exec_aeadDec_argError (h : decArgError s = some e) :
    exec (.aeadDec v) s = .next (State.failed s.outCleared.callCleared (encode (.aeadDec v)) e.code) := by
  rw [exec_aeadDec, h]
  exact congrArg _ (endCommand_some _ _ _)

end

/-- Settles O38: each clause selects its check, all before it having passed. -/
theorem aeadArgumentErrorsInOrder : Obligations.AeadArgumentErrorsInOrder := by
  rintro v s _ (rfl | rfl)
  · refine ⟨fun hkey => exec_aeadEnc_argError (e := .invalidKeySize) ?_,
      fun hkey h12 h16 => exec_aeadEnc_argError (e := .invalidIVSize) ?_, nofun,
      fun hkey hiv _ hlong => exec_aeadEnc_argError (e := .lengthError) ?_⟩
    · rw [encArgError_eq, if_pos hkey]
    · rw [encArgError_eq, if_neg (not_not_intro hkey), if_pos (not_or_intro h12 h16)]
    · have hlen : s.cfgAadMax.toNat < s.aadlen.toNat ∨ s.cfgMsgMax.toNat < s.inlen.toNat := by
        simpa using hlong
      rw [encArgError_eq, if_neg (not_not_intro hkey), if_neg (not_not_intro hiv), if_pos hlen]
  · refine ⟨fun hkey => exec_aeadDec_argError (e := .invalidKeySize) ?_,
      fun hkey h12 h16 => exec_aeadDec_argError (e := .invalidIVSize) ?_,
      fun hkey hiv _ hshort => exec_aeadDec_argError (e := .truncatedInput) ?_,
      fun hkey hiv hmin hlong => exec_aeadDec_argError (e := .lengthError) ?_⟩
    · rw [decArgError_eq, if_pos hkey]
    · rw [decArgError_eq, if_neg (not_not_intro hkey), if_pos (not_or_intro h12 h16)]
    · rw [decArgError_eq, if_neg (not_not_intro hkey), if_neg (not_not_intro hiv), if_pos hshort]
    · have hlen : s.cfgAadMax.toNat < s.aadlen.toNat ∨ s.cfgMsgMax.toNat + 16 < s.inlen.toNat := by
        simpa using hlong
      rw [decArgError_eq, if_neg (not_not_intro hkey), if_neg (not_not_intro hiv),
        if_neg (Nat.not_lt.2 (hmin rfl)), if_pos hlen]

/-! ## What stays behind (R194) -/

/-- Settles O39: every path ends in `end_call()`, and every error in `clear_out()` before it. -/
theorem aeadLeavesNoCallLocalState : Obligations.AeadLeavesNoCallLocalState := by
  rintro v s _ (rfl | rfl)
  · rw [exec_aeadEnc]
    split
    next e _ => exact ⟨_, rfl, rfl, rfl, rfl, rfl, fun _ => ⟨rfl, read_nil⟩⟩
    next => exact ⟨_, rfl, rfl, rfl, rfl, rfl, fun hsuccess => absurd errWord_none hsuccess⟩
  · rw [exec_aeadDec]
    split
    next e _ => exact ⟨_, rfl, rfl, rfl, rfl, rfl, fun _ => ⟨rfl, read_nil⟩⟩
    next =>
      split
      · exact ⟨_, rfl, rfl, rfl, rfl, rfl, fun hsuccess => absurd errWord_none hsuccess⟩
      · exact ⟨_, rfl, rfl, rfl, rfl, rfl, fun _ => ⟨rfl, read_nil⟩⟩

/-! ## What was sealed opens (R198) -/

/-- Two buffers that agree on a range give the same read of it (R63). -/
theorem readBytes_congr {m m' : Memory} {n : Nat} (h : ∀ p < n, m.read p = m'.read p) :
    m.readBytes 0 n = m'.readBytes 0 n := by
  simp only [readBytes_eq_map, Nat.zero_add]
  exact List.map_congr_left fun p hp => h p (List.mem_range.1 hp)

/-- Two IV registers that agree on the bytes in use give the same IV (R24). -/
theorem ivOperand_congr {s u : State} (hlen : u.ivlen = s.ivlen)
    (h : ∀ i < s.ivlen.toNat, blockByte u.iv i = blockByte s.iv i) : ivOperand u = ivOperand s := by
  rw [ivOperand, ivOperand, hlen]
  refine RoundTrip.bytes_ext (by simp) fun p hp => ?_
  obtain ⟨hp', h16⟩ : p < s.ivlen.toNat ∧ p < 16 := by simpa using hp
  rw [getD_take_blockBytes _ _ _ hp' h16, getD_take_blockBytes _ _ _ hp' h16, h p hp']

/-- Settles O41: both commands are stated over the same operands, as byte sequences. -/
theorem aeadRoundTrip : Obligations.AeadRoundTrip := by
  intro v v' s hcap htables hkeylen hiv haad hin
  have hs : RoundTrip.Operands s s.key (ivOperand s) (aadOperand s) (inOperand s s.inlen.toNat) :=
    ⟨htables, rfl, hkeylen, hiv, rfl, haad, rfl, rfl⟩
  have hfits : (inOperand s s.inlen.toNat).length ≤ s.cfgMsgMax.toNat := hs.length_input.trans_le hin
  obtain ⟨t, ht, -, houtlen, hsealed⟩ := RoundTrip.exec_aeadEnc_seals v hs hcap hfits
  refine ⟨t, ht, fun u utables uaadMax umsgMax ukey ukeylen uivlen uiv uaadlen uaad uinlen uin => ?_⟩
  have hu : RoundTrip.Operands u s.key (ivOperand s) (aadOperand s)
      (RoundTrip.sealedBytes s.key (ivOperand s) (aadOperand s) (inOperand s s.inlen.toNat)) :=
    { tables := utables
      key := ukey
      keylen := ukeylen.trans hkeylen
      ivlen := by rwa [uivlen]
      iv := ivOperand_congr uivlen uiv
      aadlen := by rwa [uaadlen, uaadMax]
      aad := by
        rw [aadOperand, uaadlen]
        exact readBytes_congr uaad
      input := by
        rw [inOperand, uinlen, ← hsealed]
        exact readBytes_congr uin }
  obtain ⟨r, hr, herr, hauth, hlen, hplain⟩ := RoundTrip.exec_aeadDec_opens v' hu (by rwa [umsgMax])
  rw [uinlen, houtlen, BitVec.add_sub_cancel] at hlen
  refine ⟨r, hr, herr, hauth, hlen, fun p hp => ?_⟩
  rw [hlen, inOperand] at hplain
  have hbyte := congrArg (·.getD p 0#8) hplain
  simpa only [getD_readBytes _ _ _ _ hp, Nat.zero_add] using hbyte

/-! ## A changed tag (R196, R199) -/

section
variable {v : Variant} {s : State}

/-- `AUTH_OK` tells that the checks passed and that the tags are equal in all their bytes (R110, R195). -/
theorem tag_eq_of_authOk {t : State} (hexec : exec (.aeadDec v) s = .next t) (hauth : t.authOk = true) :
    decArgError s = none ∧ ∀ i < 16, blockByte (callTagOf v s (inOperand s (s.inlen.toNat - 16))) i =
      s.inbuf.read (s.inlen.toNat - 16 + i) := by
  rw [exec_aeadDec] at hexec
  split at hexec
  next => cases hexec; cases hauth
  next hargs =>
    split at hexec
    next heq => exact ⟨hargs, (AeadCall.ctEq16_receivedTag _ s).1 heq⟩
    next => cases hexec; cases hauth

/-- Different tags end the call as R196 says. -/
theorem exec_aeadDec_rejects (hargs : decArgError s = none) {i : Nat} (hi : i < 16)
    (hne : blockByte (callTagOf v s (inOperand s (s.inlen.toNat - 16))) i ≠
      s.inbuf.read (s.inlen.toNat - 16 + i)) :
    exec (.aeadDec v) s = .next (endCommand (encode (.aeadDec v)) (some .authenticationFailure) false
      (endCall (clearOut (callBase v s)))) := by
  have hrejected := mt (AeadCall.ctEq16_receivedTag _ s).1 fun heq => hne (heq i hi)
  rw [exec_aeadDec, hargs]
  exact if_neg hrejected

/-- The tag is computed over the ciphertext that is given, not over `INBUF` (R191). -/
theorem callTagOf_with_inbuf (v : Variant) (s : State) (m : Memory) (C : List Byte) :
    callTagOf v { s with inbuf := m } C = callTagOf v s C := by
  obtain ⟨htt, -⟩ := EngineState.tablesFor_congr v (s := { s with inbuf := m }) (u := s) rfl rfl
  rw [AeadCall.callTagOf_eq, AeadCall.callTagOf_eq, htt]
  rfl

end

/-- Settles O42: the changed input has the ciphertext of the accepted one, so its tag is computed to be the
accepted one, from which a received byte differs. -/
theorem changedTagIsRejected : Obligations.ChangedTagIsRejected := by
  intro v s t m i hexec hauth hi hsame hchanged
  obtain ⟨hargs, heq⟩ := tag_eq_of_authOk hexec hauth
  have htag : callTagOf v { s with inbuf := m } (inOperand { s with inbuf := m } (s.inlen.toNat - 16)) =
      callTagOf v s (inOperand s (s.inlen.toNat - 16)) := by
    rw [callTagOf_with_inbuf]
    exact congrArg _ (readBytes_congr hsame)
  have hne : blockByte (callTagOf v { s with inbuf := m }
      (inOperand { s with inbuf := m } (s.inlen.toNat - 16))) i ≠ m.read (s.inlen.toNat - 16 + i) := by
    rw [htag, heq i hi]
    exact hchanged.symm
  exact ⟨_, exec_aeadDec_rejects (s := { s with inbuf := m }) hargs hi hne, rfl, rfl, rfl, rfl, read_nil⟩

end Sys2Proof.AeadGuarantees
end

section
/-! PROOFS. Every step answers a next state (R220). -/

namespace Sys2Proof.StepSafety

open Sys2Proof.Machine Sys2Proof.Laws

/-- Settles O56, by the cases of a step: all but the run of a written word name the next state, and that run
answers one whether the word is a command, whose errors are outcomes (R220), or not (R218). -/
theorem everyStepIsSafe : Obligations.EveryStepIsSafe := by
  intro s
  rcases step_cases s with ⟨-, hidle⟩ | ⟨rest, -, hreset⟩ | ⟨rest, r, hanswer⟩ | ⟨rest, w, -, hcommand⟩ |
    ⟨rest, sp, addr, data, -, -, -, hstore⟩
  · exact ⟨_, hidle⟩
  · exact ⟨_, hreset⟩
  · exact ⟨_, hanswer⟩
  · obtain ⟨t, hrun, -⟩ := PortRun.runWord_response w { s with pending := rest, response := .accepted }
    exact ⟨t, hcommand.trans hrun⟩
  · exact ⟨_, hstore⟩

end Sys2Proof.StepSafety
end
